-- ==== Sys2Proof/Word.lean ====
section
/-! DEFINITION. The word types of the E220 link controller: a byte (00_scope.md R9) and the 16-bit values of the
configuration record and of the RSSI register (10_state.md R25, R33). -/

namespace Sys2Proof

/-- A byte is 8 bits (R9). -/
abbrev Byte := BitVec 8

/-- A 16-bit value: an address, a key, or an `int16` in two's complement (R9). -/
abbrev Word16 := BitVec 16

end Sys2Proof
end

