-- ==== Sys2Proof/Syntax.lean ====
section
/-! DEFINITION. The host's operations with their operands (30_encoding.md R80, R81): one constructor of `Instr` for
each row of spec/opcode_table.json. -/

namespace Sys2Proof

/-- The configuration record (10_state.md R25), each field at its width (R8). A field is `none` where it is UNWRITTEN
in the sense of R38: in `cfg` after reset, and where a host request in the text form leaves the field out (R98). The
packed port always carries all fourteen fields (R82). -/
structure ConfigurationRecord where
  ownAddress : Option Word16 := none
  baudRate : Option (BitVec 3) := none
  airDataRate : Option (BitVec 5) := none
  subpacketSize : Option (BitVec 2) := none
  rssiAmbientNoiseFlag : Option (BitVec 1) := none
  transmittingPower : Option (BitVec 2) := none
  ownChannel : Option Byte := none
  rssiByteFlag : Option (BitVec 1) := none
  transmissionMethodType : Option (BitVec 1) := none
  lbtFlag : Option (BitVec 1) := none
  worCycle : Option (BitVec 3) := none
  encryptionKey : Option Word16 := none
  targetAddress : Option Word16 := none
  targetChannel : Option Byte := none
  deriving DecidableEq, Repr, Inhabited

/-- The operations of the block (R2, R81), one constructor for each row of the opcode table. -/
inductive Instr where
  /-- `op = 000`, R110. -/
  | validate (v : Byte)
  /-- `op = 001`, R111. -/
  | encode (cfg : ConfigurationRecord)
  /-- `op = 010`, R120. -/
  | apply (cfg : ConfigurationRecord)
  /-- `op = 011`, R140. -/
  | receive
  /-- `op = 100`, R170. -/
  | send (cfg : ConfigurationRecord) (payload : List Byte)
  /-- `op = 101`: reserved, R206. -/
  | illegal101
  /-- `op = 11x`: reserved, R206; `x` is bit 0 of the op code. -/
  | illegal11x (x : BitVec 1)
  deriving DecidableEq, Repr, Inhabited

end Sys2Proof
end

