-- ==== Sys2Proof/Machine/Inputs.lean ====
section
/-! DEFINITION. What reaches the block from outside and what moves the agents that share the port: host requests
(30_encoding.md R80), the agents (60_exceptions.md R214) and one move of one agent (00_scope.md R11, 20_memory.md R65).
Nothing here has a meaning; Machine/Moves.lean gives each move its effect. -/

namespace Sys2Proof

/-- A host request: the record of four fields of R80. The payload's length `L` is the length of the list, a natural
number with no field of its own (R83). -/
structure Request where
  op : BitVec 3
  v : Byte := 0
  cfgIn : ConfigurationRecord := {}
  payload : List Byte := []
  deriving DecidableEq, Repr, Inhabited

/-- Who can hold the port's lock and touch its queues: a sequencer, or an environment agent, each by its id
(10_state.md R35, 60_exceptions.md R214). -/
inductive Agent where
  | sequencer (id : Nat)
  | env (id : Nat)
  deriving DecidableEq, Repr, Inhabited

/-- The choice a waiting `Acquire` makes at a step (20_memory.md R60): to be the waiter that is granted the lock if the
lock is free, or to time out. It matters at a waiting point only. -/
inductive LockChoice where
  | grant
  | timeout
  deriving DecidableEq, Repr, Inhabited

/-- A port access by an environment agent, with or without the lock (R62). -/
inductive EnvAction where
  | acquire
  | release
  | write (b : Byte)
  | read
  deriving DecidableEq, Repr, Inhabited

/-- The result registers a host may read (60_exceptions.md R217, 10_state.md R41). `err` is not among them: it has no
host visibility (R29). -/
inductive OutReg where
  | ok | chanOk | cmd | respCnt | rxState | rxBuf | accLen | rxLen | rxRssi | maxPay | txFrame
  deriving DecidableEq, Repr, Inhabited

/-- What a host gets by reading a result register, at the register's own type. -/
inductive OutValue where
  | flag (b : Bool)
  | count (n : Byte)
  | int16 (n : Word16)
  | code (c : BitVec 3)
  | bytes (bs : List Byte)
  deriving DecidableEq, Repr, Inhabited

/-- One move of one agent (R65: any agent with an enabled step may take it next). A move whose agent has no enabled
step passes without effect. -/
inductive Move where
  /-- Sequencer `k` takes its next step. -/
  | advance (k : Nat) (choice : LockChoice)
  /-- The host presents a request to sequencer `k`, which holds it until it is IDLE (R214). -/
  | present (k : Nat) (q : Request)
  /-- The host reads a result register of sequencer `k` (R217). -/
  | hostRead (k : Nat) (o : OutReg)
  /-- The receive source appends a byte to `rx_q` (R70). -/
  | arrive (b : Byte)
  /-- The transmitter sends the head of `tx_q` (R70). -/
  | transmit
  /-- Environment agent `a` uses the port (R214). -/
  | env (a : Nat) (act : EnvAction)
  /-- A reset, with what the line then holds (`rx_q0`, R36, R230). -/
  | reset (rxQ0 : List Byte)
  deriving DecidableEq, Repr, Inhabited

end Sys2Proof
end

