-- ==== Sys2Proof/Config.lean ====
section
/-! DEFINITION. What an implementation fixes (00_scope.md R7) and the model's one free value: which agent moves when
nothing says so. -/

namespace Sys2Proof

/-- LOCK_GRANULARITY (R7, R63; 90_conflicts.md C4). -/
inductive Granularity where
  | perBurst
  | perByte
  deriving DecidableEq, Repr, Inhabited

/-- The delay points of 60_exceptions.md R212. -/
inductive DelayPoint where
  | tCmdSettle | tPoll | tRxSettle | tTxWait | tTxGap
  deriving DecidableEq, Repr, Inhabited

/-- The nominal length of a delay point in milliseconds (R212); `none` where it is OPEN. No rule and no definition of
the model depends on it (R250). -/
def Config.nominalMs : DelayPoint → Option Nat
  | .tCmdSettle => some 100
  | .tPoll => some 100
  | .tRxSettle => some 10
  | .tTxWait => some 100
  | .tTxGap => none

/-- The parameters the machine is launched with (R7, R36): LOCK_GRANULARITY, RX_FIFO_CAP (`none`: no bound) and
`rx_q0`. They do not change while the machine runs, but that a reset gives `rx_q0` again. -/
structure Params where
  granularity : Granularity := .perBurst
  rxFifoCap : Option Nat := none
  rxQ0 : List Byte := []
  deriving DecidableEq, Repr, Inhabited

/-- FREE VALUE (log 1: DESIGN CHOICE, safe). The move taken when the script of State is used up, by how many such moves were taken before:
the spec lets any agent with an enabled step take it next (60_exceptions.md R214), any byte arrive at any step
(20_memory.md R70) and any wait be granted or time out (R60). It has no body, so no proof can know which it is. -/
opaque Config.freeMove : Nat → Move

end Sys2Proof
end

