-- ==== Sys2Proof/WellFormed.lean ====
section
/-! DEFINITION. Which instructions the packed request port can carry (30_encoding.md R82), and which have every operand
they read (10_state.md R38, 30_encoding.md R98). -/

namespace Sys2Proof

/-- All fourteen fields are written: what the packed `cfg_in` carries (R82). -/
def ConfigurationRecord.allWritten (c : ConfigurationRecord) : Bool :=
  c.ownAddress.isSome && c.baudRate.isSome && c.airDataRate.isSome && c.subpacketSize.isSome &&
  c.rssiAmbientNoiseFlag.isSome && c.transmittingPower.isSome && c.ownChannel.isSome && c.rssiByteFlag.isSome &&
  c.transmissionMethodType.isSome && c.lbtFlag.isSome && c.worCycle.isSome && c.encryptionKey.isSome &&
  c.targetAddress.isSome && c.targetChannel.isSome

/-- The fields ENCODE and APPLY read are written: all but target_address and target_channel (R41). -/
def ConfigurationRecord.encodeWritten (c : ConfigurationRecord) : Bool :=
  c.ownAddress.isSome && c.baudRate.isSome && c.airDataRate.isSome && c.subpacketSize.isSome &&
  c.rssiAmbientNoiseFlag.isSome && c.transmittingPower.isSome && c.ownChannel.isSome && c.rssiByteFlag.isSome &&
  c.transmissionMethodType.isSome && c.lbtFlag.isSome && c.worCycle.isSome && c.encryptionKey.isSome

/-- The fields SEND reads are written (R41, R98). -/
def ConfigurationRecord.sendWritten (c : ConfigurationRecord) : Bool :=
  c.subpacketSize.isSome && c.targetAddress.isSome && c.targetChannel.isSome

/-- An instruction is well formed when the packed port can carry it: its configuration, where it has one, is whole. -/
def Instr.WellFormed : Instr → Bool
  | .validate _ => true
  | .encode cfg => cfg.allWritten
  | .apply cfg => cfg.allWritten
  | .receive => true
  | .send cfg _ => cfg.allWritten
  | .illegal101 => true
  | .illegal11x _ => true

/-- Every configuration field the operation reads is written (R98): then no operand read faults. -/
def Instr.operandsWritten : Instr → Bool
  | .validate _ => true
  | .encode cfg => cfg.encodeWritten
  | .apply cfg => cfg.encodeWritten
  | .receive => true
  | .send cfg _ => cfg.sendWritten
  | .illegal101 => true
  | .illegal11x _ => true

end Sys2Proof
end

