-- ==== Sys2Proof/Decode.lean ====
section
/-! DEFINITION. The host request's decoder and encoder (30_encoding.md R80 to R83). A request lies in bytes as a 96-bit
word, least significant byte first, and then the payload: `op` in bits 2:0 (as spec/opcode_table.json numbers them), `v`
in bits 10:3, `cfg_in` in bits 93:11, bits 95:94 zero (log 5, DESIGN CHOICE, safe: R80 names the fields and their widths
and leaves their places in a byte image open). -/

namespace Sys2Proof

/-- Why a byte image is no request. -/
inductive DecodeError where
  /-- Fewer than the 12 bytes of the fixed fields. -/
  | truncated
  /-- Bits 95:94, which hold no field, are not zero. -/
  | padding
  deriving DecidableEq, Repr

/-- The value of a byte list, least significant byte first. -/
def leValue : List Byte → Nat
  | [] => 0
  | b :: bs => b.toNat + 256 * leValue bs

/-- The `n` low bytes of a number, least significant byte first. -/
def leBytes : Nat → Nat → List Byte
  | 0, _ => []
  | n + 1, w => BitVec.ofNat 8 w :: leBytes n (w / 256)

/-- `cfg_in` taken apart at the bit positions of R82. -/
def unpackConfig (w : BitVec 83) : ConfigurationRecord where
  ownAddress := some (w.extractLsb' 67 16)
  baudRate := some (w.extractLsb' 64 3)
  airDataRate := some (w.extractLsb' 59 5)
  subpacketSize := some (w.extractLsb' 57 2)
  rssiAmbientNoiseFlag := some (w.extractLsb' 56 1)
  transmittingPower := some (w.extractLsb' 54 2)
  ownChannel := some (w.extractLsb' 46 8)
  rssiByteFlag := some (w.extractLsb' 45 1)
  transmissionMethodType := some (w.extractLsb' 44 1)
  lbtFlag := some (w.extractLsb' 43 1)
  worCycle := some (w.extractLsb' 40 3)
  encryptionKey := some (w.extractLsb' 24 16)
  targetAddress := some (w.extractLsb' 8 16)
  targetChannel := some (w.extractLsb' 0 8)

/-- `cfg_in` put together, the first field most significant (R82). A field that is not written has no bits to give; a
well-formed instruction has none such. -/
def packConfig (c : ConfigurationRecord) : BitVec 83 :=
  c.ownAddress.getD 0 ++ c.baudRate.getD 0 ++ c.airDataRate.getD 0 ++ c.subpacketSize.getD 0 ++
    c.rssiAmbientNoiseFlag.getD 0 ++ c.transmittingPower.getD 0 ++ c.ownChannel.getD 0 ++ c.rssiByteFlag.getD 0 ++
    c.transmissionMethodType.getD 0 ++ c.lbtFlag.getD 0 ++ c.worCycle.getD 0 ++ c.encryptionKey.getD 0 ++
    c.targetAddress.getD 0 ++ c.targetChannel.getD 0

/-- The operation a request selects (R81): total on the 3-bit `op`; a field the operation does not use is ignored
(R80). -/
def decodeRequest (q : Request) : Instr :=
  if q.op = 0b000#3 then .validate q.v
  else if q.op = 0b001#3 then .encode q.cfgIn
  else if q.op = 0b010#3 then .apply q.cfgIn
  else if q.op = 0b011#3 then .receive
  else if q.op = 0b100#3 then .send q.cfgIn q.payload
  else if q.op = 0b101#3 then .illegal101
  else .illegal11x (q.op.extractLsb' 0 1)

/-- A byte image read as a request, or the reason it is none. -/
def parseRequest (bs : List Byte) : Except DecodeError Request :=
  if bs.length < 12 then .error .truncated
  else
    let w := leValue (bs.take 12)
    if w / 2 ^ 94 = 0 then
      .ok { op := BitVec.ofNat 3 w
            v := BitVec.ofNat 8 (w / 2 ^ 3)
            cfgIn := unpackConfig (BitVec.ofNat 83 (w / 2 ^ 11))
            payload := bs.drop 12 }
    else .error .padding

/-- The instruction a byte image stands for, or the reason there is none. -/
def decode (bs : List Byte) : Except DecodeError Instr :=
  match parseRequest bs with
  | .ok q => .ok (decodeRequest q)
  | .error e => .error e

/-- The op code of an instruction (R81). -/
def Instr.opCode : Instr → BitVec 3
  | .validate _ => 0b000
  | .encode _ => 0b001
  | .apply _ => 0b010
  | .receive => 0b011
  | .send _ _ => 0b100
  | .illegal101 => 0b101
  | .illegal11x x => 0b11#2 ++ x

/-- The request that asks for an instruction, with zeros in the fields the operation does not use. -/
def requestOf : Instr → Request
  | .validate v => { op := 0b000, v := v }
  | .encode cfg => { op := 0b001, cfgIn := cfg }
  | .apply cfg => { op := 0b010, cfgIn := cfg }
  | .receive => { op := 0b011 }
  | .send cfg payload => { op := 0b100, cfgIn := cfg, payload := payload }
  | .illegal101 => { op := 0b101 }
  | .illegal11x x => { op := 0b11#2 ++ x }

/-- The byte image of a request. -/
def requestBytes (q : Request) : List Byte :=
  leBytes 12 (q.op.toNat + 2 ^ 3 * q.v.toNat + 2 ^ 11 * (packConfig q.cfgIn).toNat) ++ q.payload

/-- The byte image of an instruction. -/
def encode (i : Instr) : List Byte := requestBytes (requestOf i)

/-- The byte image of an instruction whose bits are `w`, numbered as spec/opcode_table.json numbers them: the `nbits`
bits that are given, zeros above them up to the 12 bytes of the fixed fields, and an empty payload. -/
def tableBytes (nbits w : Nat) : List Byte := leBytes (max 12 (nbits / 8)) (w % 2 ^ nbits)

/-- The instruction the decoder reads from the bits `w`. -/
def decodeTableWord (nbits w : Nat) : Option Instr :=
  match decode (tableBytes nbits w) with
  | .ok i => some i
  | .error _ => none

end Sys2Proof
end

