-- ==== Sys2Proof/Machine/State.lean ====
section
/-! DEFINITION. The state of the E220 link controller (10_state.md): one set of registers per sequencer, one port, the
launch parameters, and the model's own fields that say which agent moves next. Where a register is an Option, `none` is
the spec's own value UNWRITTEN (R38), which R230 gives as its reset value and R141 writes to two registers again. -/

namespace Sys2Proof.Machine

/-- `rx_state` (R23). -/
inductive RxState where
  | idle | draining | settling | done | overflow
  deriving DecidableEq, Repr, Inhabited

/-- The diagnostic cause in `err` (R29, R200). -/
inductive ErrCode where
  | none | invalidConfig | echoMismatch | frameTooLarge | payloadTooLarge | channelBusy | illegalOp
  deriving DecidableEq, Repr, Inhabited

/-- Where a transmit phase stands (40_config_path.md R120 A2, 42_frame_send.md R170 S3). -/
inductive Tx where
  /-- Before `Acquire`. -/
  | acquire
  /-- Held in `Acquire` while another agent has, or had, the lock (R60). -/
  | wait
  /-- Before the `WriteByte` of frame byte `i`. -/
  | write (i : Nat)
  /-- Held in `Flush`. -/
  | flush
  deriving DecidableEq, Repr, Inhabited

/-- Where a `DrainBurst` stands (20_memory.md R63). -/
inductive Burst where
  /-- Before the availability test made without the lock: the opening test, and under `per_byte` the loop's test. -/
  | first
  /-- Before `Acquire`. -/
  | acquire
  /-- Held in `Acquire`. -/
  | wait
  /-- Before the loop's availability test, made holding the lock (`per_burst`). -/
  | more
  /-- Before `ReadByte`. -/
  | read
  /-- Before the `Release` after one `ReadByte`, whose answer is `r` (`per_byte`). -/
  | releaseByte (r : Option Byte)
  /-- Before the `Release` that ends the burst (`per_burst`). -/
  | releaseAll
  deriving DecidableEq, Repr, Inhabited

/-- Where APPLY stands (R120). -/
inductive ApplyPoint where
  | a2 (t : Tx)
  /-- Before the `Release` of A2. -/
  | a2Release
  | a3Delay
  | a4 (b : Burst)
  deriving DecidableEq, Repr, Inhabited

/-- Where RECEIVE stands (R140). -/
inductive ReceivePoint where
  /-- Before X1's availability test. -/
  | x1Avail
  | x1Delay
  | x2 (b : Burst)
  /-- An overflow in a burst that holds the lock, before its `Release` (R203). -/
  | x2Overflow
  | x3Delay
  /-- Before X3's availability test. -/
  | x3Avail
  deriving DecidableEq, Repr, Inhabited

/-- Where SEND stands (R170). -/
inductive SendPoint where
  | s3 (t : Tx)
  | s4Delay
  /-- Before the availability test at the loop's head. -/
  | s5Avail
  /-- Before the availability test of the inner loop. -/
  | s5More
  /-- Before the `ReadByte` whose answer is discarded. -/
  | s5Read
  | s5Gap
  /-- Before the `Release` that ends S5. -/
  | s5Release
  deriving DecidableEq, Repr, Inhabited

/-- The points at which a running operation rests: before each port event and at each delay point (R11, R65;
log 11: DEDUCED, safe). -/
inductive Point where
  | apply (p : ApplyPoint)
  | receive (p : ReceivePoint)
  | send (p : SendPoint)
  deriving DecidableEq, Repr, Inhabited

/-- `seq` (R22): no operation, or the running operation and where it stands. -/
inductive Seq where
  | idle
  | busy (p : Point)
  deriving DecidableEq, Repr, Inhabited

/-- The registers of one sequencer (R21 to R34), the requests it holds (R214), and which of its result registers the
current or last operation has written (`fresh`, the model's own, for R38; log 8: DEDUCED, safe). At reset that is
`rx_state` alone, the one result register R230 gives a value. An unwritten register is `none` (log 6: DEDUCED, safe). -/
structure Sequencer where
  seq : Seq := .idle
  rxState : RxState := .idle
  cfg : ConfigurationRecord := {}
  ok : Option Bool := none
  err : Option ErrCode := none
  chanOk : Option Bool := none
  cmd : Option (Vector Byte 11) := none
  respCnt : Option Byte := none
  rxBuf : Option (Vector Byte 200) := none
  accLen : Option Byte := none
  rxLen : Option Byte := none
  rxRssi : Option Word16 := none
  maxPay : Option Byte := none
  txFrame : Option (List Byte) := none
  held : List Request := []
  fresh : List OutReg := [.rxState]
  deriving DecidableEq, Repr, Inhabited

/-- An event of the port's history: `rd(agent, byte)` (R37), and likewise a byte written (R11) and a byte that arrived
(R65; log 7: DEDUCED, safe). -/
inductive PortEvent where
  | rd (a : Agent) (b : Byte)
  | wr (a : Agent) (b : Byte)
  | arr (b : Byte)
  deriving DecidableEq, Repr, Inhabited

/-- The port all agents share (R35 to R37): the lock (`none` is FREE), the two queues with their heads first, and the
two histories with the oldest entry first. -/
structure Port where
  lockOwner : Option Agent := none
  rxQ : List Byte := []
  txQ : List Byte := []
  wireOut : List Byte := []
  history : List PortEvent := []
  deriving DecidableEq, Repr, Inhabited

/-- The machine's state. `cur`, `script` and `turn` are the model's own (log 1): the sequencer whose request `exec`
runs, the moves that come next, and how many free moves have been taken. -/
structure State where
  seqs : List Sequencer
  port : Port
  params : Params
  cur : Nat := 0
  script : List Move := []
  turn : Nat := 0
  deriving DecidableEq, Repr, Inhabited

/-- Why the machine stops without a meaning. R207 names the first four. -/
inductive Fault where
  /-- A read of an unwritten register or field (R38, R207; `fault` in 93_implementation_defined.md): raised by an
  operation whose request left out a field it reads (R98), by a host that reads a result register the last operation did
  not write, and by a resumed operation in a state no run reaches. Safe: the machine stops. -/
  | readUnwritten
  /-- An `Acquire` by the lock's holder (R60): raised by an environment agent. Safe: the machine stops. -/
  | reentrantAcquire
  /-- A `Release` by an agent that does not hold the lock (R61): raised by an environment agent. Safe: the machine
  stops. -/
  | releaseNotHeld
  /-- A request run on a sequencer that is not IDLE (R207): raised by `exec` alone; `step` holds the request instead
  (R214). Safe: the machine stops. -/
  | busy
  /-- `exec` asked to run a request on a sequencer the machine does not have (the model's own). Safe: no step does it. -/
  | noSequencer
  deriving DecidableEq, Repr, Inhabited

/-- Why the model gives no meaning. -/
inductive Refusal where
  /-- An instruction that has no meaning yet: raised by `exec`'s arms only. Safe: the machine stops. -/
  | notModelled (mnemonic : String)
  /-- A reset while an operation is running (70_reset_and_hazards.md R231: refused rather than guessed). Safe: the
  machine stops. -/
  | resetDuringOperation
  deriving DecidableEq, Repr, Inhabited

/-- The answer of a step or a meaning. -/
abbrev Answer := Host.Outcome State Fault Refusal

/-- The machine right after power-on with `n` sequencers and the launch parameters `p` (R230). -/
def State.launch (n : Nat) (p : Params) : State where
  seqs := List.replicate n {}
  port := { rxQ := p.rxQ0 }
  params := p

/-- The machine right after reset (R230): one sequencer, `per_burst`, nothing on the line (log 3: DESIGN CHOICE,
unsafe). -/
def State.reset : State := State.launch 1 {}

end Sys2Proof.Machine
end

