-- ==== Sys2Proof/Machine/Operands.lean ====
section
/-! DEFINITION. The operand forms and the encodings the operations compute: the command frame (30_encoding.md R84 to
R90), the outbound header (R92), MAXPAY (R93), the RSSI decode (R95) and the range predicate (40_config_path.md
R112). -/

namespace Sys2Proof.Machine

/-- CHAN_MAX (R7). -/
def chanMax : Nat := 30

/-- CMD_LEN (R7, 90_conflicts.md C1). -/
def cmdLen : Nat := 11

/-- RX_MAX (R7). -/
def rxMax : Nat := 200

/-- `InRange(lo, hi, x)` (R112): inclusive, on mathematical values. -/
def inRange (lo hi x : Nat) : Bool := decide (lo ≤ x) && decide (x ≤ hi)

/-- The high byte of a 16-bit value (R89). -/
def hiByte (v : Word16) : Byte := v.extractLsb' 8 8

/-- The low byte of a 16-bit value (R89). -/
def loByte (v : Word16) : Byte := v.extractLsb' 0 8

/-- The twelve fields ENCODE and APPLY read (R41), all written. -/
structure EncodeFields where
  ownAddress : Word16
  baudRate : BitVec 3
  airDataRate : BitVec 5
  subpacketSize : BitVec 2
  rssiAmbientNoiseFlag : BitVec 1
  transmittingPower : BitVec 2
  ownChannel : Byte
  rssiByteFlag : BitVec 1
  transmissionMethodType : BitVec 1
  lbtFlag : BitVec 1
  worCycle : BitVec 3
  encryptionKey : Word16
  deriving DecidableEq, Repr, Inhabited

/-- The fields `Encode` reads, or nothing where one of them is unwritten (R38, R111). -/
def encodeFields (c : ConfigurationRecord) : Option EncodeFields := do
  let ownAddress ← c.ownAddress
  let baudRate ← c.baudRate
  let airDataRate ← c.airDataRate
  let subpacketSize ← c.subpacketSize
  let rssiAmbientNoiseFlag ← c.rssiAmbientNoiseFlag
  let transmittingPower ← c.transmittingPower
  let ownChannel ← c.ownChannel
  let rssiByteFlag ← c.rssiByteFlag
  let transmissionMethodType ← c.transmissionMethodType
  let lbtFlag ← c.lbtFlag
  let worCycle ← c.worCycle
  let encryptionKey ← c.encryptionKey
  return { ownAddress, baudRate, airDataRate, subpacketSize, rssiAmbientNoiseFlag, transmittingPower, ownChannel,
           rssiByteFlag, transmissionMethodType, lbtFlag, worCycle, encryptionKey }

/-- REG2 (R85). -/
def reg2 (e : EncodeFields) : Byte := (e.baudRate.setWidth 8 <<< 5) ||| e.airDataRate.setWidth 8

/-- REG3 (R86): bits 4:2 are zero. -/
def reg3 (e : EncodeFields) : Byte :=
  (e.subpacketSize.setWidth 8 <<< 6) ||| (e.rssiAmbientNoiseFlag.setWidth 8 <<< 5) ||| e.transmittingPower.setWidth 8

/-- REG5 (R88): bits 5 and 3 are zero. -/
def reg5 (e : EncodeFields) : Byte :=
  (e.rssiByteFlag.setWidth 8 <<< 7) ||| (e.transmissionMethodType.setWidth 8 <<< 6) |||
    (e.lbtFlag.setWidth 8 <<< 4) ||| e.worCycle.setWidth 8

/-- `Encode(cfg)` (R84, R90): the 11 bytes of the command frame. -/
def commandFrame (e : EncodeFields) : Vector Byte 11 :=
  #v[0xC0, 0x00, 0x08, hiByte e.ownAddress, loByte e.ownAddress, reg2 e, reg3 e, e.ownChannel, reg5 e,
     hiByte e.encryptionKey, loByte e.encryptionKey]

/-- The module register image a command frame writes (10_state.md R39): addresses 00h to 07h with their bytes. The
module holds it, so it is no state of the block. -/
def registerImage (cmd : Vector Byte 11) : List Host.Cell :=
  [(0, cmd[3]), (1, cmd[4]), (2, cmd[5]), (3, cmd[6]), (4, cmd[7]), (5, cmd[8]), (6, cmd[9]), (7, cmd[10])]

/-- `MAXPAY(code)` (R93), with the default arm that a 2-bit field cannot reach (90_conflicts.md C6). -/
def maxPayOf (code : Nat) : Byte :=
  match code with
  | 0 => 200
  | 1 => 128
  | 2 => 64
  | 3 => 32
  | _ => 200

/-- The outbound frame (R92): the header, then the payload. -/
def outboundFrame (targetAddress : Word16) (targetChannel : Byte) (payload : List Byte) : List Byte :=
  [hiByte targetAddress, loByte targetAddress, targetChannel] ++ payload

/-- The RSSI decode (R95): `zext_16(b) - 256` as an `int16`. -/
def rssiOf (b : Byte) : Word16 := b.setWidth 16 - 256

/-- The codes of `rx_state` (R23). -/
def rxStateCode : RxState → BitVec 3
  | .idle => 0
  | .draining => 1
  | .settling => 2
  | .done => 3
  | .overflow => 4

/-- The codes of `err` (R29). -/
def errCodeOf : ErrCode → Nat
  | .none => 0
  | .invalidConfig => 1
  | .echoMismatch => 2
  | .frameTooLarge => 3
  | .payloadTooLarge => 4
  | .channelBusy => 5
  | .illegalOp => 6

/-- The delay point at which an operation rests, by name (60_exceptions.md R212). -/
def delayAt : Point → Option DelayPoint
  | .apply .a3Delay => some .tCmdSettle
  | .receive .x1Delay => some .tPoll
  | .receive .x3Delay => some .tRxSettle
  | .send .s4Delay => some .tTxWait
  | .send .s5Gap => some .tTxGap
  | _ => none

end Sys2Proof.Machine
end

