-- ==== Sys2Proof/Machine/Flags.lean ====
section
/-! DEFINITION. The result flags and counters: `ok` and `err` at the end of an operation (60_exceptions.md R201), the
saturating `resp_cnt` (10_state.md R32) and what a host reads of a result register (R38, R217). -/

namespace Sys2Proof.Machine

/-- `finish(ok, kind)` (R201): writes `ok` and `err` (NONE when `ok` is 1), and `seq` goes back to IDLE. -/
def Sequencer.finish (ok : Bool) (kind : ErrCode) (r : Sequencer) : Sequencer :=
  { r with ok := some ok, err := some (if ok then .none else kind), seq := .idle, fresh := .ok :: r.fresh }

/-- The operation rests at `p` (R22). -/
def Sequencer.restAt (p : Point) (r : Sequencer) : Sequencer := { r with seq := .busy p }

/-- `min(n + 1, 255)` on 8 bits (R32, R120). -/
def satSucc (n : Byte) : Byte := BitVec.ofNat 8 (min (n.toNat + 1) 255)

/-- What a host reads of a result register: its value if the last operation wrote it, else nothing (R38: "A host that
reads a result register which the finished operation did not write also reads an unwritten value."). -/
def Sequencer.readOut (r : Sequencer) (o : OutReg) : Option OutValue :=
  if o ∈ r.fresh then
    match o with
    | .ok => r.ok.map .flag
    | .chanOk => r.chanOk.map .flag
    | .cmd => r.cmd.map fun v => .bytes v.toList
    | .respCnt => r.respCnt.map .count
    | .rxState => some (.code (rxStateCode r.rxState))
    | .rxBuf => r.rxBuf.map fun v => .bytes v.toList
    | .accLen => r.accLen.map .count
    | .rxLen => r.rxLen.map .count
    | .rxRssi => r.rxRssi.map .int16
    | .maxPay => r.maxPay.map .count
    | .txFrame => r.txFrame.map .bytes
  else none

end Sys2Proof.Machine
end

