-- ==== Sys2Proof/Machine/Ops.lean ====
section
/-! DEFINITION. The port primitives and the lock (20_memory.md R53 to R61), the two multi-event phases the operations
share (the transmit phase and DrainBurst, R63, R64), the acceptance of a request (40_config_path.md, head) and the one
way an operation fails (60_exceptions.md R203). Each phase is given one port event at a time (R65). -/

namespace Sys2Proof.Machine

/-! ## The port -/

/-- `Avail()` (R54). -/
def Port.avail (p : Port) : Nat := p.rxQ.length

/-- `WriteByte(b)` by agent `a` (R53), recorded in the history (R11). -/
def Port.writeByte (a : Agent) (b : Byte) (p : Port) : Port :=
  { p with txQ := p.txQ ++ [b], history := p.history ++ [.wr a b] }

/-- `ReadByte()` by agent `a` (R55): the head of `rx_q` if there is one, recorded in the history. -/
def Port.readByte (a : Agent) (p : Port) : Option Byte × Port :=
  match p.rxQ with
  | [] => (none, p)
  | b :: rest => (some b, { p with rxQ := rest, history := p.history ++ [.rd a b] })

/-- The receive source appends a byte (R36, R70); beyond RX_FIFO_CAP it is not appended (D33; log 22:
DEDUCED, safe). -/
def Port.arrive (cap : Option Nat) (b : Byte) (p : Port) : Port :=
  match cap with
  | some n => if p.rxQ.length < n then { p with rxQ := p.rxQ ++ [b], history := p.history ++ [.arr b] } else p
  | none => { p with rxQ := p.rxQ ++ [b], history := p.history ++ [.arr b] }

/-- The transmitter moves the head of `tx_q` to the end of `wire_out`, if there is one (R70). -/
def Port.transmit (p : Port) : Port :=
  match p.txQ with
  | [] => p
  | b :: rest => { p with txQ := rest, wireOut := p.wireOut ++ [b] }

/-! ## The lock -/

/-- What an `Acquire` answers at a step (R60). -/
inductive Grant where
  | granted
  | held
  | timeout
  deriving DecidableEq, Repr

/-- The first attempt of `Acquire()` by agent `a` (R60). -/
def Port.tryAcquire (a : Agent) (p : Port) : Except Fault (Grant × Port) :=
  if p.lockOwner = some a then .error .reentrantAcquire
  else if p.lockOwner = none then .ok (.granted, { p with lockOwner := some a })
  else .ok (.held, p)

/-- A later step of a held `Acquire()` (R60): a timeout if that is the choice, a grant if the lock is free
(log 13: DEDUCED, safe). -/
def Port.waitAcquire (a : Agent) (c : LockChoice) (p : Port) : Grant × Port :=
  match c with
  | .timeout => (.timeout, p)
  | .grant => if p.lockOwner = none then (.granted, { p with lockOwner := some a }) else (.held, p)

/-- `Release()` by agent `a` (R61). -/
def Port.release (a : Agent) (p : Port) : Except Fault Port :=
  if p.lockOwner = some a then .ok { p with lockOwner := none } else .error .releaseNotHeld

/-! ## The transmit phase: Acquire, every byte of a frame in order, Flush (R52, R64) -/

/-- What a step of a transmit phase comes to. -/
inductive TxNext where
  | goto (t : Tx)
  | sent
  | timeout
  deriving DecidableEq, Repr

/-- One step of the transmit phase of `frame` by agent `a`. A read of a frame that is unwritten is the model fault
ReadUnwritten (R38, R207; `fault` in 93_implementation_defined.md), in states no run reaches. -/
def txStep (a : Agent) (c : LockChoice) (frame : Option (List Byte)) (t : Tx) (p : Port) :
    Except Fault (TxNext × Port) :=
  match t with
  | .acquire =>
    match p.tryAcquire a with
    | .error f => .error f
    | .ok (.granted, p') => .ok (.goto (.write 0), p')
    | .ok (.held, p') => .ok (.goto .wait, p')
    | .ok (.timeout, p') => .ok (.timeout, p')
  | .wait =>
    match p.waitAcquire a c with
    | (.granted, p') => .ok (.goto (.write 0), p')
    | (.held, p') => .ok (.goto .wait, p')
    | (.timeout, p') => .ok (.timeout, p')
  | .write i =>
    match frame with
    | none => .error .readUnwritten
    | some bs =>
      match bs[i]? with
      | some b => .ok (.goto (if i + 1 < bs.length then .write (i + 1) else .flush), p.writeByte a b)
      | none => .ok (.goto .flush, p)
  | .flush => if p.txQ = [] then .ok (.sent, p) else .ok (.goto .flush, p)

/-! ## DrainBurst (R63) -/

/-- What a step of a burst comes to: it goes on, it hands a byte to `on_byte` and then goes on, or it ends. -/
inductive BurstNext where
  | goto (b : Burst)
  | byte (v : Byte) (b : Burst)
  | done
  | timeout
  deriving DecidableEq, Repr

/-- Where a burst goes once its lock is granted (R63). -/
def afterGrant : Granularity → Burst
  | .perBurst => .more
  | .perByte => .read

/-- One step of `DrainBurst` by agent `a`. -/
def burstStep (g : Granularity) (a : Agent) (c : LockChoice) (b : Burst) (p : Port) :
    Except Fault (BurstNext × Port) :=
  match b with
  | .first => if p.avail = 0 then .ok (.done, p) else .ok (.goto .acquire, p)
  | .acquire =>
    match p.tryAcquire a with
    | .error f => .error f
    | .ok (.granted, p') => .ok (.goto (afterGrant g), p')
    | .ok (.held, p') => .ok (.goto .wait, p')
    | .ok (.timeout, p') => .ok (.timeout, p')
  | .wait =>
    match p.waitAcquire a c with
    | (.granted, p') => .ok (.goto (afterGrant g), p')
    | (.held, p') => .ok (.goto .wait, p')
    | (.timeout, p') => .ok (.timeout, p')
  | .more => if p.avail = 0 then .ok (.goto .releaseAll, p) else .ok (.goto .read, p)
  | .read =>
    match g, p.readByte a with
    | .perBurst, (some v, p') => .ok (.byte v .more, p')
    | .perBurst, (none, p') => .ok (.goto .more, p')
    | .perByte, (r, p') => .ok (.goto (.releaseByte r), p')
  | .releaseByte r =>
    match p.release a with
    | .error f => .error f
    | .ok p' =>
      match r with
      | some v => .ok (.byte v .first, p')
      | none => .ok (.goto .first, p')
  | .releaseAll =>
    match p.release a with
    | .error f => .error f
    | .ok p' => .ok (.done, p')

/-! ## Sequencers in the state -/

/-- Sequencer `k`'s registers become `r` and the port becomes `p`. -/
def State.put (k : Nat) (r : Sequencer) (p : Port) (s : State) : State :=
  { s with seqs := s.seqs.set k r, port := p }

/-- A read of a register or a field (R38): its value goes on to `use`, and a read of one that is unwritten is the model
fault ReadUnwritten, "and never a value" (R207; `fault` in 93_implementation_defined.md). -/
def readWritten {α : Type} (v : Option α) (use : α → Answer) : Answer :=
  match v with
  | some a => use a
  | none => .fault .readUnwritten

/-- `raise E` by sequencer `k` (R10, R203): the lock is released if the sequencer holds it, and the operation finishes
with `ok = 0`. -/
def State.raise (k : Nat) (e : ErrCode) (r : Sequencer) (p : Port) (s : State) : Answer :=
  if p.lockOwner = some (.sequencer k) then .next (s.put k (r.finish false e) { p with lockOwner := none })
  else .next (s.put k (r.finish false e) p)

/-- A request is accepted by the sequencer `s.cur`, which must be IDLE (R22, R207), and `run` is its first step. -/
def State.accept (s : State) (run : Nat → Sequencer → Answer) : Answer :=
  match s.seqs[s.cur]? with
  | none => .fault .noSequencer
  | some r =>
    match r.seq with
    | .busy _ => .fault .busy
    | .idle => run s.cur { r with fresh := [] }

end Sys2Proof.Machine
end

