-- ==== Sys2Proof/Machine/ConfigPath.lean ====
section
/-! DEFINITION. The configuration path (40_config_path.md): VALIDATE, ENCODE and APPLY. `execX` is the step that accepts
the request; `applyResume` takes a running APPLY from one resting point to the next. -/

namespace Sys2Proof.Machine

/-- VALIDATE (R110): V0 and the finish, in the step that accepts it (R113). -/
def execValidate (v : Byte) (s : State) : Answer :=
  s.accept fun k r =>
    .next (s.put k ({ r with chanOk := some (inRange 0 chanMax v.toNat), fresh := .chanOk :: r.fresh }.finish true .none)
      s.port)

/-- ENCODE (R111): E0 and the finish, in the step that accepts it (R113). -/
def execEncode (cfg : ConfigurationRecord) (s : State) : Answer :=
  s.accept fun k r =>
    readWritten (encodeFields cfg) fun e =>
      .next (s.put k ({ r with cfg := cfg, cmd := some (commandFrame e), fresh := .cmd :: r.fresh }.finish true .none)
        s.port)

/-- APPLY (R120): A0 and A1, in the step that accepts it. A0 reads own_channel alone (R121; log 23:
DEDUCED, safe). -/
def execApply (cfg : ConfigurationRecord) (s : State) : Answer :=
  s.accept fun k r =>
    readWritten cfg.ownChannel fun ch =>
      if inRange 0 chanMax ch.toNat then
        readWritten (encodeFields cfg) fun e =>
          .next (s.put k
            ({ r with cfg := cfg, cmd := some (commandFrame e), fresh := .cmd :: r.fresh }.restAt (.apply (.a2 .acquire)))
            s.port)
      else .next (s.put k ({ r with cfg := cfg }.finish false .invalidConfig) s.port)

/-- A5 (R120, R125): the echo check, by length alone. -/
def applyCheck (k : Nat) (r : Sequencer) (p : Port) (s : State) : Answer :=
  readWritten r.respCnt fun n =>
    if n.toNat = cmdLen then .next (s.put k (r.finish true .none) p)
    else s.raise k .echoMismatch r p

/-- A running APPLY's next step (R120), from its resting point `q`. -/
def applyResume (k : Nat) (c : LockChoice) (q : ApplyPoint) (r : Sequencer) (s : State) : Answer :=
  match q with
  | .a2 t =>
    match txStep (.sequencer k) c (r.cmd.map Vector.toList) t s.port with
    | .error f => .fault f
    | .ok (.goto t', p) => .next (s.put k (r.restAt (.apply (.a2 t'))) p)
    | .ok (.sent, p) => .next (s.put k (r.restAt (.apply .a2Release)) p)
    | .ok (.timeout, p) => s.raise k .channelBusy r p
  | .a2Release =>
    match s.port.release (.sequencer k) with
    | .error f => .fault f
    | .ok p =>
      .next (s.put k ({ r with respCnt := some 0, fresh := .respCnt :: r.fresh }.restAt (.apply .a3Delay)) p)
  | .a3Delay => .next (s.put k (r.restAt (.apply (.a4 .first))) s.port)
  | .a4 b =>
    match burstStep s.params.granularity (.sequencer k) c b s.port with
    | .error f => .fault f
    | .ok (.goto b', p) => .next (s.put k (r.restAt (.apply (.a4 b'))) p)
    | .ok (.byte _ b', p) =>
      readWritten r.respCnt fun n =>
        .next (s.put k ({ r with respCnt := some (satSucc n) }.restAt (.apply (.a4 b'))) p)
    | .ok (.done, p) => applyCheck k r p s
    | .ok (.timeout, p) => s.raise k .channelBusy r p

end Sys2Proof.Machine
end

