-- ==== Sys2Proof/Machine/Illegal.lean ====
section
/-! DEFINITION. The reserved op codes (60_exceptions.md R206): accepted, and finished at once with IllegalOp. No field
of the request is loaded (log 12, DEDUCED): R206 writes no register other than `ok`, `err` and `seq`. -/

namespace Sys2Proof.Machine

/-- `op = 101` (R206). -/
def execIllegal101 (s : State) : Answer :=
  s.accept fun k r => .next (s.put k (r.finish false .illegalOp) s.port)

/-- `op = 11x` (R206); `x` changes nothing. -/
def execIllegal11x (_x : BitVec 1) (s : State) : Answer :=
  s.accept fun k r => .next (s.put k (r.finish false .illegalOp) s.port)

end Sys2Proof.Machine
end

