-- ==== Sys2Proof/Machine/Receive.lean ====
section
/-! DEFINITION. The frame receiver (41_frame_receive.md): RECEIVE. `execReceive` is the step that accepts the request;
`receiveResume` takes a running RECEIVE from one resting point to the next. -/

namespace Sys2Proof.Machine

/-- RECEIVE (R140, R141): X0, in the step that accepts it. -/
def execReceive (s : State) : Answer :=
  s.accept fun k r =>
    .next (s.put k
      ({ r with
          rxBuf := some (Vector.replicate 200 0)
          accLen := some 0
          rxLen := none
          rxRssi := none
          rxState := .idle
          fresh := .rxBuf :: .accLen :: .rxState :: r.fresh }.restAt (.receive .x1Avail))
      s.port)

/-- X2's `on_byte(b)` (R143), after which the burst goes on at `next`. The byte that overflows is counted and not
stored; the lock, if the burst holds it, is released before the operation finishes (R203; log 15: DEDUCED,
safe). -/
def receiveByte (k : Nat) (b : Byte) (next : Burst) (r : Sequencer) (p : Port) (s : State) : Answer :=
  readWritten r.accLen fun n =>
    if h : n.toNat + 1 > rxMax then
      if p.lockOwner = some (.sequencer k) then
        .next (s.put k ({ r with accLen := some (n + 1), rxState := .overflow }.restAt (.receive .x2Overflow)) p)
      else s.raise k .frameTooLarge { r with accLen := some (n + 1), rxState := .overflow } p
    else
      readWritten r.rxBuf fun buf =>
        .next (s.put k
          ({ r with accLen := some (n + 1), rxBuf := some (buf.set n.toNat b (by simp [rxMax] at h; omega)) }.restAt
            (.receive (.x2 next)))
          p)

/-- X2 after its burst is done (R140, R144): back to Idle if nothing has been read, else to Settling. -/
def receiveBurstDone (k : Nat) (r : Sequencer) (p : Port) (s : State) : Answer :=
  readWritten r.accLen fun n =>
    if n = 0 then .next (s.put k ({ r with rxState := .idle }.restAt (.receive .x1Avail)) p)
    else .next (s.put k ({ r with rxState := .settling }.restAt (.receive .x3Delay)) p)

/-- X3's end and X4 (R145): the last byte is the RSSI byte. -/
def receiveDone (k : Nat) (r : Sequencer) (s : State) : Answer :=
  readWritten r.accLen fun n =>
    readWritten r.rxBuf fun buf =>
      readWritten buf[(n - 1).toNat]? fun b =>
        .next (s.put k
          ({ r with
              rxState := .done
              rxLen := some (n - 1)
              rxRssi := some (rssiOf b)
              fresh := .rxLen :: .rxRssi :: r.fresh }.finish true .none)
          s.port)

/-- A running RECEIVE's next step (R140), from its resting point `q`. -/
def receiveResume (k : Nat) (c : LockChoice) (q : ReceivePoint) (r : Sequencer) (s : State) : Answer :=
  match q with
  | .x1Avail =>
    if s.port.avail = 0 then .next (s.put k (r.restAt (.receive .x1Delay)) s.port)
    else .next (s.put k ({ r with rxState := .draining }.restAt (.receive (.x2 .first))) s.port)
  | .x1Delay => .next (s.put k (r.restAt (.receive .x1Avail)) s.port)
  | .x2 b =>
    match burstStep s.params.granularity (.sequencer k) c b s.port with
    | .error f => .fault f
    | .ok (.goto b', p) => .next (s.put k (r.restAt (.receive (.x2 b'))) p)
    | .ok (.byte v b', p) => receiveByte k v b' r p s
    | .ok (.done, p) => receiveBurstDone k r p s
    | .ok (.timeout, p) => s.raise k .channelBusy r p
  | .x2Overflow => s.raise k .frameTooLarge r s.port
  | .x3Delay => .next (s.put k (r.restAt (.receive .x3Avail)) s.port)
  | .x3Avail =>
    if s.port.avail = 0 then receiveDone k r s
    else .next (s.put k ({ r with rxState := .draining }.restAt (.receive (.x2 .first))) s.port)

end Sys2Proof.Machine
end

