-- ==== Sys2Proof/Machine/Send.lean ====
section
/-! DEFINITION. The frame sender (42_frame_send.md): SEND. `execSend` is the step that accepts the request;
`sendResume` takes a running SEND from one resting point to the next. -/

namespace Sys2Proof.Machine

/-- SEND (R170 to R173): S0, S1 and S2, in the step that accepts it. The target fields are read after the size check. -/
def execSend (cfg : ConfigurationRecord) (payload : List Byte) (s : State) : Answer :=
  s.accept fun k r =>
    readWritten cfg.subpacketSize fun sp =>
      if payload.length > (maxPayOf sp.toNat).toNat then
        .next (s.put k
          ({ r with cfg := cfg, maxPay := some (maxPayOf sp.toNat), fresh := .maxPay :: r.fresh }.finish false
            .payloadTooLarge)
          s.port)
      else
        readWritten cfg.targetAddress fun addr =>
          readWritten cfg.targetChannel fun ch =>
            .next (s.put k
              ({ r with
                  cfg := cfg
                  maxPay := some (maxPayOf sp.toNat)
                  txFrame := some (outboundFrame addr ch payload)
                  fresh := .txFrame :: .maxPay :: r.fresh }.restAt (.send (.s3 .acquire)))
              s.port)

/-- A running SEND's next step (R170), from its resting point `q`. The discard drain does not depend on
LOCK_GRANULARITY (R175). -/
def sendResume (k : Nat) (c : LockChoice) (q : SendPoint) (r : Sequencer) (s : State) : Answer :=
  match q with
  | .s3 t =>
    match txStep (.sequencer k) c r.txFrame t s.port with
    | .error f => .fault f
    | .ok (.goto t', p) => .next (s.put k (r.restAt (.send (.s3 t'))) p)
    | .ok (.sent, p) => .next (s.put k (r.restAt (.send .s4Delay)) p)
    | .ok (.timeout, p) => s.raise k .channelBusy r p
  | .s4Delay => .next (s.put k (r.restAt (.send .s5Avail)) s.port)
  | .s5Avail =>
    if s.port.avail = 0 then .next (s.put k (r.restAt (.send .s5Release)) s.port)
    else .next (s.put k (r.restAt (.send .s5More)) s.port)
  | .s5More =>
    if s.port.avail = 0 then .next (s.put k (r.restAt (.send .s5Gap)) s.port)
    else .next (s.put k (r.restAt (.send .s5Read)) s.port)
  | .s5Read => .next (s.put k (r.restAt (.send .s5More)) (s.port.readByte (.sequencer k)).2)
  | .s5Gap => .next (s.put k (r.restAt (.send .s5Avail)) s.port)
  | .s5Release =>
    match s.port.release (.sequencer k) with
    | .error f => .fault f
    | .ok p => .next (s.put k (r.finish true .none) p)

end Sys2Proof.Machine
end

