-- ==== Sys2Proof/Machine/Dispatch.lean ====
section
/-! DEFINITION. One arm per instruction: the step that accepts the request on sequencer `s.cur` (30_encoding.md R81). -/

namespace Sys2Proof.Machine

def exec (i : Instr) (s : State) : Host.Outcome State Fault Refusal :=
  match i with
  | .validate v => Sys2Proof.Machine.execValidate v s
  | .encode cfg => Sys2Proof.Machine.execEncode cfg s
  | .apply cfg => Sys2Proof.Machine.execApply cfg s
  | .receive => Sys2Proof.Machine.execReceive s
  | .send cfg payload => Sys2Proof.Machine.execSend cfg payload s
  | .illegal101 => Sys2Proof.Machine.execIllegal101 s
  | .illegal11x x => Sys2Proof.Machine.execIllegal11x x s

end Sys2Proof.Machine
end

