-- ==== Sys2Proof/Machine/Moves.lean ====
section
/-! DEFINITION. What one move of one agent does (60_exceptions.md R214, 20_memory.md R65, R70): a sequencer's next step,
the host's moves, the receive source, the transmitter, an environment agent, a reset. A move whose agent has no enabled
step leaves everything as it was. -/

namespace Sys2Proof.Machine

/-- The running operation at `q` goes on. -/
def resume (k : Nat) (c : LockChoice) (q : Point) (r : Sequencer) (s : State) : Answer :=
  match q with
  | .apply q => applyResume k c q r s
  | .receive q => receiveResume k c q r s
  | .send q => sendResume k c q r s

/-- Sequencer `k` takes its next step: a running operation goes on; an IDLE sequencer accepts the oldest request it
holds, decoded, if it holds one (R214). -/
def advance (k : Nat) (c : LockChoice) (s : State) : Answer :=
  match s.seqs[k]? with
  | none => .next s
  | some r =>
    match r.seq with
    | .busy q => resume k c q r s
    | .idle =>
      match r.held with
      | [] => .next s
      | q :: rest => exec (decodeRequest q) { s with seqs := s.seqs.set k { r with held := rest }, cur := k }

/-- The host presents a request to sequencer `k`, which holds it (R214). The operands are fixed here: a change the host
makes to its own configuration before the request is accepted is not seen (log 24: DESIGN CHOICE, unsafe; R68 and D17 speak
of changes after acceptance only). -/
def present (k : Nat) (q : Request) (s : State) : State :=
  match s.seqs[k]? with
  | none => s
  | some r => { s with seqs := s.seqs.set k { r with held := r.held ++ [q] } }

/-- The host reads a result register of sequencer `k` when it is IDLE (R217); an unwritten value faults (R38). -/
def hostRead (k : Nat) (o : OutReg) (s : State) : Answer :=
  match s.seqs[k]? with
  | none => .next s
  | some r =>
    match r.seq with
    | .busy _ => .next s
    | .idle =>
      readWritten (r.readOut o) fun _ => .next s

/-- Environment agent `a` uses the port, with or without the lock (R62, R214). An `Acquire` of a lock another agent
holds waits, which changes nothing. -/
def envAct (a : Nat) (act : EnvAction) (s : State) : Answer :=
  match act with
  | .acquire =>
    match s.port.tryAcquire (.env a) with
    | .error f => .fault f
    | .ok (_, p) => .next { s with port := p }
  | .release =>
    match s.port.release (.env a) with
    | .error f => .fault f
    | .ok p => .next { s with port := p }
  | .write b => .next { s with port := s.port.writeByte (.env a) b }
  | .read => .next { s with port := (s.port.readByte (.env a)).2 }

/-- No sequencer runs an operation. -/
def State.allIdle (s : State) : Bool := s.seqs.all fun r => decide (r.seq = .idle)

/-- A reset with `rx_q0` on the line (R230), refused while an operation is running (R231). The schedule of moves is no
state of the block and goes on (log 9: DESIGN CHOICE, unsafe). -/
def resetMove (rxQ0 : List Byte) (s : State) : Answer :=
  if s.allIdle then
    .next { State.launch s.seqs.length { s.params with rxQ0 := rxQ0 } with script := s.script, turn := s.turn }
  else .refused .resetDuringOperation

/-- One move. -/
def applyMove (m : Move) (s : State) : Answer :=
  match m with
  | .advance k c => advance k c s
  | .present k q => .next (present k q s)
  | .hostRead k o => hostRead k o s
  | .arrive b => .next { s with port := s.port.arrive s.params.rxFifoCap b }
  | .transmit => .next { s with port := s.port.transmit }
  | .env a act => envAct a act s
  | .reset rxQ0 => resetMove rxQ0 s

/-- The next move and the state without it: the script's head, or a free value when the script is used up (log 1). -/
def State.nextMove (s : State) : Move × State :=
  match s.script with
  | m :: rest => (m, { s with script := rest })
  | [] => (Config.freeMove s.turn, { s with turn := s.turn + 1 })

/-- The request a table word stands for, placed first among those sequencer 0 holds, the sequencer IDLE, and its next
step the next move. -/
def placeRequest (q : Request) (s : State) : State :=
  match s.seqs[0]? with
  | none => s
  | some r =>
    { s with
      seqs := s.seqs.set 0 { r with seq := .idle, held := q :: r.held }
      script := .advance 0 .grant :: s.script }

end Sys2Proof.Machine
end

