-- ==== Sys2Proof/Machine/Step.lean ====
section
/-! DEFINITION. One step of the machine: the next move is taken (00_scope.md R11, 20_memory.md R65). -/

namespace Sys2Proof.Machine

/-- One step. -/
def step (s : State) : Host.Outcome State Fault Refusal := applyMove s.nextMove.1 s.nextMove.2

/-- `s` with the request whose bits are `w` presented to sequencer 0, IDLE, and that sequencer's step the very next
move (log 2: DESIGN CHOICE, safe). -/
def State.withFetchWord (s : State) (nbits w : Nat) : State :=
  match parseRequest (tableBytes nbits w) with
  | .ok q => placeRequest q s
  | .error _ => s

end Sys2Proof.Machine
end

