-- ==== Sys2Proof/Safety.lean ====
section
/-! DEFINITION. The terms the claims use: where an operation holds the lock, the invariant of the machine, the port's
history, the lock discipline of an environment agent, and the schedules under which an operation runs alone. -/

namespace Sys2Proof.Machine

/-! ## Where the lock is held (20_memory.md R62, R63; 42_frame_send.md R174) -/

/-- A transmit phase holds the lock from the grant on. -/
def Tx.holdsLock : Tx → Bool
  | .acquire => false
  | .wait => false
  | .write _ => true
  | .flush => true

/-- A burst holds the lock between its grant and its release. -/
def Burst.holdsLock : Burst → Bool
  | .first => false
  | .acquire => false
  | .wait => false
  | .more => true
  | .read => true
  | .releaseByte _ => true
  | .releaseAll => true

/-- Whether an operation holds the lock at a resting point. -/
def Point.holdsLock : Point → Bool
  | .apply (.a2 t) => t.holdsLock
  | .apply .a2Release => true
  | .apply .a3Delay => false
  | .apply (.a4 b) => b.holdsLock
  | .receive .x1Avail => false
  | .receive .x1Delay => false
  | .receive (.x2 b) => b.holdsLock
  | .receive .x2Overflow => true
  | .receive .x3Delay => false
  | .receive .x3Avail => false
  | .send (.s3 t) => t.holdsLock
  | .send .s4Delay => true
  | .send .s5Avail => true
  | .send .s5More => true
  | .send .s5Read => true
  | .send .s5Gap => true
  | .send .s5Release => true

/-- Whether a sequencer holds the lock by where it stands. -/
def Sequencer.holdsLock (r : Sequencer) : Bool :=
  match r.seq with
  | .idle => false
  | .busy p => p.holdsLock

/-- The lock register agrees with where the sequencers stand, and so no IDLE sequencer owns it (R203). -/
def LockInv (s : State) : Prop :=
  ∀ k, s.port.lockOwner = some (.sequencer k) ↔ ∃ r, s.seqs[k]? = some r ∧ r.holdsLock = true

/-! ## The invariant of one sequencer -/

/-- `ok` and `err` are written together, and `err` is NONE exactly when `ok` is 1 (10_state.md R28, R29). -/
def FlagsInv (r : Sequencer) : Prop :=
  (r.ok = none ∧ r.err = none) ∨ (r.ok = some true ∧ r.err = some .none) ∨
    (r.ok = some false ∧ ∃ e, r.err = some e ∧ e ≠ .none)

/-- The registers keep to the ranges of 10_state.md R33 and R34, and `rx_len` and `rx_rssi` are written together. -/
def RangeInv (r : Sequencer) : Prop :=
  (∀ n, r.accLen = some n → n.toNat ≤ 201) ∧
  ((r.rxLen = none ∧ r.rxRssi = none) ∨
    ∃ n w, r.rxLen = some n ∧ r.rxRssi = some w ∧ n.toNat ≤ 199 ∧ -256 ≤ w.toInt ∧ w.toInt ≤ -1) ∧
  (∀ m, r.maxPay = some m → m = 200 ∨ m = 128 ∨ m = 64 ∨ m = 32) ∧
  (∀ f, r.txFrame = some f → 3 ≤ f.length ∧ f.length ≤ 203)

/-- A result register the current or last operation has written holds a value (R38). -/
def FreshInv (r : Sequencer) : Prop := ∀ o, o ∈ r.fresh → (r.readOut o).isSome

/-- A running APPLY holds the frame of its own configuration, whose channel passed the check (R120, R121). -/
def ApplyInv (q : ApplyPoint) (r : Sequencer) : Prop :=
  (∃ e, encodeFields r.cfg = some e ∧ e.ownChannel.toNat ≤ 30 ∧ r.cmd = some (commandFrame e)) ∧
  match q with
  | .a2 (.write i) => i < 11
  | .a2 _ => True
  | .a2Release => True
  | .a3Delay => r.respCnt = some 0
  | .a4 _ => r.respCnt.isSome

/-- A running RECEIVE has `acc_len` bytes in `rx_buf` and zeros after them, no length and no RSSI yet, and the
`rx_state` of its point (R140 to R144). -/
def ReceiveInv (q : ReceivePoint) (r : Sequencer) : Prop :=
  (∃ n buf, r.accLen = some n ∧ r.rxBuf = some buf ∧
    (∀ (j : Nat) (h : j < 200), n.toNat ≤ j → buf[j] = 0) ∧
    match q with
    | .x1Avail => n = 0 ∧ r.rxState = .idle
    | .x1Delay => n = 0 ∧ r.rxState = .idle
    | .x2 _ => n.toNat ≤ 200 ∧ r.rxState = .draining
    | .x2Overflow => n.toNat = 201 ∧ r.rxState = .overflow
    | .x3Delay => 1 ≤ n.toNat ∧ n.toNat ≤ 200 ∧ r.rxState = .settling
    | .x3Avail => 1 ≤ n.toNat ∧ n.toNat ≤ 200 ∧ r.rxState = .settling) ∧
  r.rxLen = none ∧ r.rxRssi = none

/-- A running SEND holds its frame: the header of its own configuration and a payload within the maximum (R170 to
R173). -/
def SendInv (q : SendPoint) (r : Sequencer) : Prop :=
  ∃ sp addr ch payload, r.cfg.subpacketSize = some sp ∧ r.cfg.targetAddress = some addr ∧
    r.cfg.targetChannel = some ch ∧ r.txFrame = some (outboundFrame addr ch payload) ∧
    r.maxPay = some (maxPayOf sp.toNat) ∧ payload.length ≤ (maxPayOf sp.toNat).toNat ∧
    match q with
    | .s3 (.write i) => i < 3 + payload.length
    | _ => True

/-- The invariant of a sequencer. -/
def Sequencer.Inv (r : Sequencer) : Prop :=
  FlagsInv r ∧ RangeInv r ∧ FreshInv r ∧
  match r.seq with
  | .idle => True
  | .busy (.apply q) => ApplyInv q r
  | .busy (.receive q) => ReceiveInv q r
  | .busy (.send q) => SendInv q r

/-- The invariant of the machine. -/
def State.Inv (s : State) : Prop := 0 < s.seqs.length ∧ LockInv s ∧ ∀ r ∈ s.seqs, r.Inv

/-! ## The port's history (20_memory.md R65) -/

/-- The bytes written, in order. -/
def writesOf : List PortEvent → List Byte
  | [] => []
  | .wr _ b :: h => b :: writesOf h
  | .rd _ _ :: h => writesOf h
  | .arr _ :: h => writesOf h

/-- The bytes read, in order. -/
def readsOf : List PortEvent → List Byte
  | [] => []
  | .wr _ _ :: h => readsOf h
  | .rd _ b :: h => b :: readsOf h
  | .arr _ :: h => readsOf h

/-- The bytes that arrived, in order. -/
def arrivalsOf : List PortEvent → List Byte
  | [] => []
  | .wr _ _ :: h => arrivalsOf h
  | .rd _ _ :: h => arrivalsOf h
  | .arr b :: h => b :: arrivalsOf h

/-- Neither direction loses, repeats or reorders a byte (R65 items 1 to 3): what was written is on the wire or queued,
and what was on the line at launch or arrived is read or queued. -/
def PortHistoryInv (s : State) : Prop :=
  writesOf s.port.history = s.port.wireOut ++ s.port.txQ ∧
  s.params.rxQ0 ++ arrivalsOf s.port.history = readsOf s.port.history ++ s.port.rxQ

end Sys2Proof.Machine

namespace Sys2Proof

/-! ## Agents -/

/-- Whether a move is agent `a`'s own. -/
def Move.isOf (a : Agent) : Move → Bool
  | .advance k _ => decide (a = .sequencer k)
  | .env b _ => decide (a = .env b)
  | .present _ _ => false
  | .hostRead _ _ => false
  | .arrive _ => false
  | .transmit => false
  | .reset _ => false

/-- Whether a move is a reset. -/
def Move.isReset : Move → Bool
  | .reset _ => true
  | .advance _ _ => false
  | .env _ _ => false
  | .present _ _ => false
  | .hostRead _ _ => false
  | .arrive _ => false
  | .transmit => false

/-- Whether a move brings a byte to the line. -/
def Move.isArrival : Move → Bool
  | .arrive _ => true
  | .reset _ => false
  | .advance _ _ => false
  | .env _ _ => false
  | .present _ _ => false
  | .hostRead _ _ => false
  | .transmit => false

/-- An environment agent keeps the lock discipline in this move (R62, R217): it touches the queues only while it holds
the lock. -/
def Move.disciplined (s : Machine.State) : Move → Bool
  | .env a (.write _) => decide (s.port.lockOwner = some (.env a))
  | .env a .read => decide (s.port.lockOwner = some (.env a))
  | .env _ .acquire => true
  | .env _ .release => true
  | .advance _ _ => true
  | .present _ _ => true
  | .hostRead _ _ => true
  | .arrive _ => true
  | .transmit => true
  | .reset _ => true

end Sys2Proof

namespace Sys2Proof.Machine

/-! ## Schedules of one operation running alone -/

/-- `n` steps of sequencer `k`. -/
def advances (k n : Nat) : List Move := List.replicate n (.advance k .grant)

/-- The transmitter sends `n` bytes. -/
def transmits (n : Nat) : List Move := List.replicate n .transmit

/-- The line delivers bytes. -/
def arrivals (bs : List Byte) : List Move := bs.map .arrive

/-- How many steps a `DrainBurst` takes to its end when `n` bytes wait, the lock is free and no other agent moves
(R63). -/
def burstSteps (g : Granularity) (n : Nat) : Nat :=
  match g with
  | .perBurst => if n = 0 then 1 else 2 * n + 4
  | .perByte => 4 * n + 1

/-- A run of the machine through a list of moves: as many steps, with the moves first in the script. -/
def runMoves (ms : List Move) (s : State) : Answer :=
  Host.Core.run Sys2Proof.core ms.length { s with script := ms ++ s.script }

end Sys2Proof.Machine
end

