-- ==== Sys2Proof/Certificates/Slice0/Obligations.lean ====
section
/-! DEFINITION. The statements about the model, for the provers. Each cites the rule of spec/ it comes from; where one
rests on a choice of the model, its docstring names the log entry. -/

open Sys2Proof Sys2Proof.Machine

/-! ## Requests and encodings -/

/-- R81 and R82, on request images laid out as log 5 says: VALIDATE 31, the APPLY of P1 step 2, the SEND of P2 with
payload AA, RECEIVE, and a reserved op code. -/
def Obligations.SampleRequestsDecode : Prop :=
  decode [0xF8, 0, 0, 0, 0, 0, 0, 0, 0, 0, 0, 0] = .ok (.validate 31) ∧
  decode (leBytes 12 (2 + 2 ^ 11 * 0x000032147F30000FFFF1E)) =
    .ok (.apply { ownAddress := some 0, baudRate := some 3, airDataRate := some 4, subpacketSize := some 0,
                  rssiAmbientNoiseFlag := some 1, transmittingPower := some 1, ownChannel := some 31,
                  rssiByteFlag := some 1, transmissionMethodType := some 1, lbtFlag := some 0, worCycle := some 3,
                  encryptionKey := some 0, targetAddress := some 0xFFFF, targetChannel := some 30 }) ∧
  decode (leBytes 12 (4 + 2 ^ 11 * 0x000000600000000010205) ++ [0xAA]) =
    .ok (.send { ownAddress := some 0, baudRate := some 0, airDataRate := some 0, subpacketSize := some 3,
                 rssiAmbientNoiseFlag := some 0, transmittingPower := some 0, ownChannel := some 0,
                 rssiByteFlag := some 0, transmissionMethodType := some 0, lbtFlag := some 0, worCycle := some 0,
                 encryptionKey := some 0, targetAddress := some 0x0102, targetChannel := some 5 } [0xAA]) ∧
  decode [3, 0, 0, 0, 0, 0, 0, 0, 0, 0, 0, 0] = .ok .receive ∧
  decode [7, 0, 0, 0, 0, 0, 0, 0, 0, 0, 0, 0] = .ok (.illegal11x 1)

/-- Decoding the image of a well-formed instruction gives the instruction back, every operand at every value (the image
is log 5's). -/
def Obligations.DecodeOfEncodeIsInstr : Prop :=
  ∀ i : Instr, i.WellFormed = true → decode (encode i) = .ok i

/-- R82 (decision D4): where each field of the configuration record lies in the packed word, as numbers, every field
written; and packing and unpacking are inverse to each other, so that packing puts each field there. -/
def Obligations.ConfigPackingIsLossless : Prop :=
  (∀ w : BitVec 83, packConfig (unpackConfig w) = w) ∧
  (∀ c : ConfigurationRecord, c.allWritten = true → unpackConfig (packConfig c) = c) ∧
  ∀ w : BitVec 83,
    (unpackConfig w).ownAddress = some (BitVec.ofNat 16 (w.toNat / 2 ^ 67)) ∧
    (unpackConfig w).baudRate = some (BitVec.ofNat 3 (w.toNat / 2 ^ 64)) ∧
    (unpackConfig w).airDataRate = some (BitVec.ofNat 5 (w.toNat / 2 ^ 59)) ∧
    (unpackConfig w).subpacketSize = some (BitVec.ofNat 2 (w.toNat / 2 ^ 57)) ∧
    (unpackConfig w).rssiAmbientNoiseFlag = some (BitVec.ofNat 1 (w.toNat / 2 ^ 56)) ∧
    (unpackConfig w).transmittingPower = some (BitVec.ofNat 2 (w.toNat / 2 ^ 54)) ∧
    (unpackConfig w).ownChannel = some (BitVec.ofNat 8 (w.toNat / 2 ^ 46)) ∧
    (unpackConfig w).rssiByteFlag = some (BitVec.ofNat 1 (w.toNat / 2 ^ 45)) ∧
    (unpackConfig w).transmissionMethodType = some (BitVec.ofNat 1 (w.toNat / 2 ^ 44)) ∧
    (unpackConfig w).lbtFlag = some (BitVec.ofNat 1 (w.toNat / 2 ^ 43)) ∧
    (unpackConfig w).worCycle = some (BitVec.ofNat 3 (w.toNat / 2 ^ 40)) ∧
    (unpackConfig w).encryptionKey = some (BitVec.ofNat 16 (w.toNat / 2 ^ 24)) ∧
    (unpackConfig w).targetAddress = some (BitVec.ofNat 16 (w.toNat / 2 ^ 8)) ∧
    (unpackConfig w).targetChannel = some (BitVec.ofNat 8 w.toNat)

/-- R81: each op code selects its operation, and the decoder is total on the 3-bit field. -/
def Obligations.OpCodeSelectsOperation : Prop :=
  ∀ q : Request,
    (q.op = 0b000 → decodeRequest q = .validate q.v) ∧
    (q.op = 0b001 → decodeRequest q = .encode q.cfgIn) ∧
    (q.op = 0b010 → decodeRequest q = .apply q.cfgIn) ∧
    (q.op = 0b011 → decodeRequest q = .receive) ∧
    (q.op = 0b100 → decodeRequest q = .send q.cfgIn q.payload) ∧
    (q.op = 0b101 → decodeRequest q = .illegal101) ∧
    (q.op = 0b110 → decodeRequest q = .illegal11x 0) ∧
    (q.op = 0b111 → decodeRequest q = .illegal11x 1) ∧
    (decodeRequest q).opCode = q.op

/-- The byte decoder refuses by name, and only an image that is too short or has bits outside the fields (log 5). -/
def Obligations.DecoderRefusesByName : Prop :=
  ∀ bs : List Byte,
    (decode bs = .error .truncated ↔ bs.length < 12) ∧
    (decode bs = .error .padding ↔ ∃ b : Byte, bs[11]? = some b ∧ 64 ≤ b.toNat)

/-- R84 to R88: the eleven bytes of the command frame, each as a number, so that every field's place and the zero of the
reserved bits are said. -/
def Obligations.CommandFrameBytes : Prop :=
  ∀ e : EncodeFields,
    (commandFrame e).toList.map BitVec.toNat =
      [0xC0, 0x00, 0x08, e.ownAddress.toNat / 256, e.ownAddress.toNat % 256,
       32 * e.baudRate.toNat + e.airDataRate.toNat,
       64 * e.subpacketSize.toNat + 32 * e.rssiAmbientNoiseFlag.toNat + e.transmittingPower.toNat,
       e.ownChannel.toNat,
       128 * e.rssiByteFlag.toNat + 64 * e.transmissionMethodType.toNat + 16 * e.lbtFlag.toNat + e.worCycle.toNat,
       e.encryptionKey.toNat / 256, e.encryptionKey.toNat % 256]

/-- R90: `Encode` has a value for every whole configuration; what it reads of each field is that field's own value; it does
not read the target fields; and configurations with equal frames agree in every other field. -/
def Obligations.EncodeIsTotalAndInjective : Prop :=
  (∀ c : ConfigurationRecord, c.encodeWritten = true → (encodeFields c).isSome = true) ∧
  (∀ (c : ConfigurationRecord) (e : EncodeFields), encodeFields c = some e →
    c.ownAddress = some e.ownAddress ∧ c.baudRate = some e.baudRate ∧ c.airDataRate = some e.airDataRate ∧
    c.subpacketSize = some e.subpacketSize ∧ c.rssiAmbientNoiseFlag = some e.rssiAmbientNoiseFlag ∧
    c.transmittingPower = some e.transmittingPower ∧ c.ownChannel = some e.ownChannel ∧
    c.rssiByteFlag = some e.rssiByteFlag ∧ c.transmissionMethodType = some e.transmissionMethodType ∧
    c.lbtFlag = some e.lbtFlag ∧ c.worCycle = some e.worCycle ∧ c.encryptionKey = some e.encryptionKey) ∧
  (∀ (c : ConfigurationRecord) (a : Option Word16) (ch : Option Byte),
    encodeFields { c with targetAddress := a, targetChannel := ch } = encodeFields c) ∧
  (∀ e e' : EncodeFields, commandFrame e = commandFrame e' → e = e') ∧
  ∀ (c c' : ConfigurationRecord) (e e' : EncodeFields),
    encodeFields c = some e → encodeFields c' = some e' → commandFrame e = commandFrame e' →
    { c' with targetAddress := c.targetAddress, targetChannel := c.targetChannel } = c

/-- R89: a 16-bit value is split high byte first, without loss. -/
def Obligations.HighLowSplitIsLossless : Prop :=
  ∀ v : Word16,
    hiByte v = v.extractLsb 15 8 ∧ loByte v = v.extractLsb 7 0 ∧
    ((hiByte v).setWidth 16 <<< 8) ||| (loByte v).setWidth 16 = v

/-- R93. -/
def Obligations.MaxPayTable : Prop :=
  maxPayOf 0 = 200 ∧ maxPayOf 1 = 128 ∧ maxPayOf 2 = 64 ∧ maxPayOf 3 = 32 ∧ ∀ code, 3 < code → maxPayOf code = 200

/-- R95. -/
def Obligations.RssiDecode : Prop :=
  ∀ b : Byte,
    (rssiOf b).toInt = (b.toNat : Int) - 256 ∧ rssiOf b = 0xFF00 ||| b.setWidth 16 ∧
    -256 ≤ (rssiOf b).toInt ∧ (rssiOf b).toInt ≤ -1

/-- R39: the image a command frame writes covers the addresses 00h to 07h in order, with the fields' bytes. -/
def Obligations.RegisterImageOfFrame : Prop :=
  ∀ e : EncodeFields,
    registerImage (commandFrame e) =
      [(0, hiByte e.ownAddress), (1, loByte e.ownAddress), (2, reg2 e), (3, reg3 e), (4, e.ownChannel), (5, reg5 e),
       (6, hiByte e.encryptionKey), (7, loByte e.encryptionKey)]

/-! ## The operations: acceptance and completion -/

/-- R110: VALIDATE completes in the step that accepts it (R113, decision D30); `chan_ok`, `ok`, `err` and `seq` are
written. That `cfg` stays as it was is the model's reading of R24 (log 12, DEDUCED, unsafe), and `fresh` is the model's own
record (log 8). -/
def Obligations.ValidateResult : Prop :=
  ∀ (s : State) (r : Sequencer) (v : Byte),
    s.seqs[s.cur]? = some r → r.seq = .idle →
    exec (.validate v) s =
      .next (s.put s.cur
        { r with chanOk := some (decide (v.toNat ≤ 30)), ok := some true, err := some .none, seq := .idle,
                 fresh := [.ok, .chanOk] } s.port)

/-- R111: ENCODE completes in the step that accepts it (R113, decision D30) with the command frame of its configuration,
whatever own_channel is; a field left out that it reads is the model fault ReadUnwritten (R38, R98). That `cfg` is loaded is
R24's and log 12's, and `fresh` is the model's own record (log 8). -/
def Obligations.EncodeResult : Prop :=
  ∀ (s : State) (r : Sequencer) (cfg : ConfigurationRecord),
    s.seqs[s.cur]? = some r → r.seq = .idle →
    (∀ e, encodeFields cfg = some e →
      exec (.encode cfg) s =
        .next (s.put s.cur
          { r with cfg := cfg, cmd := some (commandFrame e), ok := some true, err := some .none, seq := .idle,
                   fresh := [.ok, .cmd] } s.port)) ∧
    (cfg.encodeWritten = false → exec (.encode cfg) s = .fault .readUnwritten)

/-- R120 A0 and A1: an APPLY of a whole configuration whose own_channel is at most 30 is accepted, with its command frame
in `cmd` (decision D29), and stands before the `Acquire` of A2, where the model lets other agents move (log 11); the port is
as it was. `fresh` is the model's own record (log 8). -/
def Obligations.ApplyStarts : Prop :=
  ∀ (s : State) (r : Sequencer) (cfg : ConfigurationRecord) (e : EncodeFields),
    s.seqs[s.cur]? = some r → r.seq = .idle → encodeFields cfg = some e → e.ownChannel.toNat ≤ 30 →
    exec (.apply cfg) s =
      .next (s.put s.cur
        { r with cfg := cfg, cmd := some (commandFrame e), seq := .busy (.apply (.a2 .acquire)), fresh := [.cmd] } s.port)

/-- R120, run alone from its acceptance to its end: the frame goes on the wire, `resp_cnt` counts what waited on the line
and what arrived during A3 (decision D14), and `ok` says whether that is 11 bytes. The other agents' moves in the schedule
are the transmitter's and the receive source's. The numbers of steps are the model's (log 11), as are the write and arrival
events of the history (log 7) and `fresh` (log 8). -/
def Obligations.ApplyRun : Prop :=
  ∀ (s : State) (r : Sequencer) (cfg : ConfigurationRecord) (e : EncodeFields) (echo : List Byte),
    s.seqs[s.cur]? = some r → r.seq = .idle → encodeFields cfg = some e → e.ownChannel.toNat ≤ 30 →
    s.port.lockOwner = none → s.port.txQ = [] →
    (∀ n, s.params.rxFifoCap = some n → s.port.rxQ.length + echo.length ≤ n) →
    ∃ t, exec (.apply cfg) s = .next t ∧
      t = s.put s.cur { r with cfg := cfg, cmd := some (commandFrame e), seq := .busy (.apply (.a2 .acquire)),
                               fresh := [.cmd] } s.port ∧
      runMoves
        (advances s.cur 12 ++ transmits 11 ++ advances s.cur 2 ++ arrivals echo ++
          advances s.cur (1 + burstSteps s.params.granularity (s.port.rxQ.length + echo.length))) t =
      .next (s.put s.cur
        { r with cfg := cfg, cmd := some (commandFrame e),
                 respCnt := some (BitVec.ofNat 8 (min (s.port.rxQ.length + echo.length) 255)),
                 ok := some (decide (s.port.rxQ.length + echo.length = 11)),
                 err := some (if s.port.rxQ.length + echo.length = 11 then .none else .echoMismatch),
                 seq := .idle, fresh := [.ok, .respCnt, .cmd] }
        { lockOwner := none, rxQ := [], txQ := [], wireOut := s.port.wireOut ++ (commandFrame e).toList,
          history := s.port.history ++ (commandFrame e).toList.map (PortEvent.wr (.sequencer s.cur)) ++
            echo.map PortEvent.arr ++ (s.port.rxQ ++ echo).map (PortEvent.rd (.sequencer s.cur)) })

/-- R121: an APPLY whose own_channel is above 30 finishes at once with InvalidConfig (`err`: decision D15) and leaves the
port and every register but `cfg`, `ok`, `err`, `seq` and `fresh` as they were. That `cfg` is loaded on a refusal is R24 as
the model reads it (log 12), that the other fields are not read is log 23, and `fresh` is the model's own record (log 8). -/
def Obligations.ApplyRefusesChannel : Prop :=
  ∀ (s : State) (r : Sequencer) (cfg : ConfigurationRecord) (ch : Byte),
    s.seqs[s.cur]? = some r → r.seq = .idle → cfg.ownChannel = some ch → 30 < ch.toNat →
    exec (.apply cfg) s =
      .next (s.put s.cur
        { r with cfg := cfg, ok := some false, err := some .invalidConfig, seq := .idle, fresh := [.ok] } s.port)

/-- R141: RECEIVE starts by clearing its buffer and count and by making its results unwritten (decision D32). That `cfg`
stays as it was is the model's reading of R24 (log 12, DEDUCED, unsafe), and `fresh`, which changes too, is the model's own
record (log 8). -/
def Obligations.ReceiveStartsClear : Prop :=
  ∀ (s : State) (r : Sequencer),
    s.seqs[s.cur]? = some r → r.seq = .idle →
    exec .receive s =
      .next (s.put s.cur
        { r with rxBuf := some (Vector.replicate 200 0), accLen := some 0, rxLen := none, rxRssi := none,
                 rxState := .idle, seq := .busy (.receive .x1Avail), fresh := [.rxBuf, .accLen, .rxState] } s.port)

/-- R140, R145, run alone from its acceptance to its end on 1 to 200 waiting bytes after which the line stays quiet:
all of them are consumed, `rx_len` is one less, the last byte gives `rx_rssi`, and `rx_buf` holds them and zeros (decision
D13). The numbers of steps are the model's (log 11), `fresh` is its own record (log 8), and that `cfg` stays as it was is log
12's. -/
def Obligations.ReceiveRun : Prop :=
  ∀ (s : State) (r : Sequencer),
    s.seqs[s.cur]? = some r → r.seq = .idle → s.port.lockOwner = none →
    ∀ (body : List Byte) (last : Byte), s.port.rxQ = body ++ [last] → body.length ≤ 199 →
    ∃ t, exec .receive s = .next t ∧
      ∃ buf : Vector Byte 200,
        buf.toList = body ++ [last] ++ List.replicate (199 - body.length) 0 ∧
        runMoves (advances s.cur (1 + burstSteps s.params.granularity (body.length + 1) + 2)) t =
        .next (s.put s.cur
          { r with rxState := .done, rxBuf := some buf, accLen := some (BitVec.ofNat 8 (body.length + 1)),
                   rxLen := some (BitVec.ofNat 8 body.length), rxRssi := some (rssiOf last),
                   ok := some true, err := some .none, seq := .idle,
                   fresh := [.ok, .rxLen, .rxRssi, .rxBuf, .accLen, .rxState] }
          { s.port with lockOwner := none, rxQ := [],
                        history := s.port.history ++ (body ++ [last]).map (PortEvent.rd (.sequencer s.cur)) })

/-- R143, run alone from its acceptance on more than 200 waiting bytes: the 201st byte is consumed and counted and not
stored (decision D12), the operation ends with FrameTooLarge with the lock free, and the later bytes stay on the line. The
numbers of steps are the model's (log 11), with a step of its own for the release after an overflow under `per_burst` (log
15); `fresh` is the model's own record (log 8), and that `cfg` stays as it was is log 12's. -/
def Obligations.ReceiveOverflowRun : Prop :=
  ∀ (s : State) (r : Sequencer),
    s.seqs[s.cur]? = some r → r.seq = .idle → s.port.lockOwner = none →
    ∀ (kept rest : List Byte) (last : Byte), s.port.rxQ = kept ++ [last] ++ rest → kept.length = 200 →
    ∃ t, exec .receive s = .next t ∧
      ∃ buf : Vector Byte 200,
        buf.toList = kept ∧
        runMoves (advances s.cur (1 + match s.params.granularity with | .perBurst => 405 | .perByte => 804)) t =
        .next (s.put s.cur
          { r with rxState := .overflow, rxBuf := some buf, accLen := some 201, rxLen := none, rxRssi := none,
                   ok := some false, err := some .frameTooLarge, seq := .idle,
                   fresh := [.ok, .rxBuf, .accLen, .rxState] }
          { s.port with lockOwner := none, rxQ := rest,
                        history := s.port.history ++ (kept ++ [last]).map (PortEvent.rd (.sequencer s.cur)) })

/-- R170 to R177, run alone from its acceptance to its end: the header and the payload go on the wire, whatever waited on
the line or arrived during S4 is discarded (decision D11), and the operation succeeds with the lock free. The order of
MAXPAY's codes is decision D24 and the empty payload D23. The numbers of steps are the model's (log 11), as are the write and
arrival events of the history (log 7) and `fresh` (log 8). -/
def Obligations.SendRun : Prop :=
  ∀ (s : State) (r : Sequencer) (cfg : ConfigurationRecord) (payload late : List Byte)
    (sp : BitVec 2) (addr : Word16) (ch : Byte),
    s.seqs[s.cur]? = some r → r.seq = .idle →
    cfg.subpacketSize = some sp → cfg.targetAddress = some addr → cfg.targetChannel = some ch →
    payload.length ≤ (maxPayOf sp.toNat).toNat → s.port.lockOwner = none → s.port.txQ = [] →
    (∀ n, s.params.rxFifoCap = some n → s.port.rxQ.length + late.length ≤ n) →
    ∃ t, exec (.send cfg payload) s = .next t ∧
      runMoves
        (advances s.cur (4 + payload.length) ++ transmits (3 + payload.length) ++ advances s.cur 1 ++ arrivals late ++
          advances s.cur (1 + if s.port.rxQ.length + late.length = 0 then 2
                              else 2 * (s.port.rxQ.length + late.length) + 5)) t =
      .next (s.put s.cur
        { r with cfg := cfg, maxPay := some (maxPayOf sp.toNat),
                 txFrame := some ([hiByte addr, loByte addr, ch] ++ payload),
                 ok := some true, err := some .none, seq := .idle, fresh := [.ok, .txFrame, .maxPay] }
        { lockOwner := none, rxQ := [], txQ := [],
          wireOut := s.port.wireOut ++ [hiByte addr, loByte addr, ch] ++ payload,
          history := s.port.history ++
            ([hiByte addr, loByte addr, ch] ++ payload).map (PortEvent.wr (.sequencer s.cur)) ++
            late.map PortEvent.arr ++ (s.port.rxQ ++ late).map (PortEvent.rd (.sequencer s.cur)) })

/-- R172: the size check bounds the payload alone and is strict. A payload of at most the maximum, an empty one too (R177,
decision D23), is accepted, and its frame is the header and the payload, 3 bytes more (R92, R173); a longer one is refused
with PayloadTooLarge, whatever the target fields are (log 23), with the port and `tx_frame` as they were. The order of
MAXPAY's codes is decision D24; that `cfg` is loaded on a refusal too is R24 as the model reads it (log 12), and `fresh` is
the model's own record (log 8). -/
def Obligations.SendSizeCheck : Prop :=
  ∀ (s : State) (r : Sequencer) (cfg : ConfigurationRecord) (payload : List Byte) (sp : BitVec 2),
    s.seqs[s.cur]? = some r → r.seq = .idle → cfg.subpacketSize = some sp →
    (payload.length ≤ (maxPayOf sp.toNat).toNat → ∀ addr ch, cfg.targetAddress = some addr →
      cfg.targetChannel = some ch →
      (outboundFrame addr ch payload).length = 3 + payload.length ∧
      outboundFrame addr ch payload = [addr.extractLsb 15 8, addr.extractLsb 7 0, ch] ++ payload ∧
      exec (.send cfg payload) s =
        .next (s.put s.cur
          { r with cfg := cfg, maxPay := some (maxPayOf sp.toNat), txFrame := some (outboundFrame addr ch payload),
                   seq := .busy (.send (.s3 .acquire)), fresh := [.txFrame, .maxPay] } s.port)) ∧
    ((maxPayOf sp.toNat).toNat < payload.length →
      exec (.send cfg payload) s =
        .next (s.put s.cur
          { r with cfg := cfg, maxPay := some (maxPayOf sp.toNat), ok := some false, err := some .payloadTooLarge,
                   seq := .idle, fresh := [.ok, .maxPay] } s.port))

/-- R206 (the spec's decision D5): a request with op code 101, 110 or 111 is illegal; accepted, it finishes at once with
IllegalOp, and nothing but `ok`, `err` and `seq` is written: `cfg` is not loaded (R206 against R24, log 12). `fresh` is the
model's own record (log 8). -/
def Obligations.IllegalOpResult : Prop :=
  (∀ q : Request, q.op = 0b101 ∨ q.op = 0b110 ∨ q.op = 0b111 →
    decodeRequest q = .illegal101 ∨ ∃ x, decodeRequest q = .illegal11x x) ∧
  ∀ (s : State) (r : Sequencer) (i : Instr),
    s.seqs[s.cur]? = some r → r.seq = .idle → (i = .illegal101 ∨ ∃ x, i = .illegal11x x) →
    exec i s =
      .next (s.put s.cur { r with ok := some false, err := some .illegalOp, seq := .idle, fresh := [.ok] } s.port)

/-- R38, R98 (decisions D32, D20): an operation whose request leaves out a field it reads is the model fault
ReadUnwritten. APPLY reads own_channel first and the others only when it is in range; SEND reads the target fields only when
the payload fits (log 23). -/
def Obligations.LeftOutFieldFaults : Prop :=
  ∀ (s : State) (r : Sequencer) (cfg : ConfigurationRecord) (payload : List Byte),
    s.seqs[s.cur]? = some r → r.seq = .idle →
    (cfg.ownChannel = none → exec (.apply cfg) s = .fault .readUnwritten) ∧
    (∀ ch, cfg.ownChannel = some ch → ch.toNat ≤ 30 → cfg.encodeWritten = false →
      exec (.apply cfg) s = .fault .readUnwritten) ∧
    (cfg.subpacketSize = none → exec (.send cfg payload) s = .fault .readUnwritten) ∧
    (∀ sp, cfg.subpacketSize = some sp → payload.length ≤ (maxPayOf sp.toNat).toNat →
      cfg.targetAddress = none ∨ cfg.targetChannel = none → exec (.send cfg payload) s = .fault .readUnwritten)

/-- `exec`, asked to run a request on a sequencer that is not IDLE, is the model fault Busy. That is the model's choice (log
14): R207 and decision D25 let a model refuse such a request so, and do not ask for it. -/
def Obligations.ExecOnBusySequencerFaults : Prop :=
  ∀ (s : State) (r : Sequencer) (q : Point) (i : Instr),
    s.seqs[s.cur]? = some r → r.seq = .busy q → exec i s = .fault .busy

/-! ## A running operation -/

/-- R60 (decision D7): the three answers of a first `Acquire`, and the two a waiting one may give. That a waiting one may
time out at a step at which the lock is free, too, is log 13's. -/
def Obligations.AcquireRule : Prop :=
  ∀ (a : Agent) (p : Port),
    (p.lockOwner = none → p.tryAcquire a = .ok (.granted, { p with lockOwner := some a })) ∧
    (p.lockOwner = some a → p.tryAcquire a = .error .reentrantAcquire) ∧
    (∀ b, p.lockOwner = some b → b ≠ a → p.tryAcquire a = .ok (.held, p)) ∧
    p.waitAcquire a .timeout = (.timeout, p) ∧
    (p.lockOwner = none → p.waitAcquire a .grant = (.granted, { p with lockOwner := some a })) ∧
    (p.lockOwner ≠ none → p.waitAcquire a .grant = (.held, p))

/-- R61. -/
def Obligations.ReleaseRule : Prop :=
  ∀ (a : Agent) (p : Port),
    (p.lockOwner = some a → p.release a = .ok { p with lockOwner := none }) ∧
    (p.lockOwner ≠ some a → p.release a = .error .releaseNotHeld)

/-- R53 to R55: the three byte primitives. The history's write event is log 7's. -/
def Obligations.PortPrimitives : Prop :=
  ∀ (a : Agent) (b : Byte) (p : Port),
    p.avail = p.rxQ.length ∧
    p.writeByte a b = { p with txQ := p.txQ ++ [b], history := p.history ++ [.wr a b] } ∧
    (p.rxQ = [] → p.readByte a = (none, p)) ∧
    (∀ rest, p.rxQ = b :: rest →
      p.readByte a = (some b, { p with rxQ := rest, history := p.history ++ [.rd a b] }))

/-- R58, R212: the delay points are five, and at each the operation goes on to the point the pseudocode names next
(R120 A4, R140 X1 and X3, R170 S5), and nothing but `seq` changes. -/
def Obligations.DelayChangesOnlySeq : Prop :=
  ∀ (s : State) (k : Nat) (c : LockChoice) (r : Sequencer) (q : Point) (d : DelayPoint),
    s.seqs[k]? = some r → r.seq = .busy q → delayAt q = some d →
    ∃ q',
      ((q = .apply .a3Delay ∧ d = .tCmdSettle ∧ q' = .apply (.a4 .first)) ∨
        (q = .receive .x1Delay ∧ d = .tPoll ∧ q' = .receive .x1Avail) ∨
        (q = .receive .x3Delay ∧ d = .tRxSettle ∧ q' = .receive .x3Avail) ∨
        (q = .send .s4Delay ∧ d = .tTxWait ∧ q' = .send .s5Avail) ∨
        (q = .send .s5Gap ∧ d = .tTxGap ∧ q' = .send .s5Avail)) ∧
      advance k c s = .next (s.put k { r with seq := .busy q' } s.port)

/-- R57: `Flush` holds while `tx_q` is not empty, and once the transmitter has sent what was queued the operation goes
on with all of it on the wire. -/
def Obligations.FlushHoldsUntilSent : Prop :=
  ∀ (s : State) (k : Nat) (r : Sequencer) (q q' : Point),
    s.seqs[k]? = some r → r.seq = .busy q →
    ((q = .apply (.a2 .flush) ∧ q' = .apply .a2Release) ∨ (q = .send (.s3 .flush) ∧ q' = .send .s4Delay)) →
    (s.port.txQ ≠ [] → ∀ c, advance k c s = .next s) ∧
    runMoves (transmits s.port.txQ.length ++ advances k 1) s =
      .next (s.put k { r with seq := .busy q' }
        { s.port with txQ := [], wireOut := s.port.wireOut ++ s.port.txQ })

/-- R200 (decision D8): a lock wait that times out ends the operation with ChannelBusy and touches no part of the port, at
each of the four places an operation can wait. That it may time out at a step at which the lock is free, too, is log 13's;
`fresh` is the model's own record (log 8). -/
def Obligations.LockTimeoutIsChannelBusy : Prop :=
  ∀ (s : State) (k : Nat) (r : Sequencer) (q : Point),
    s.seqs[k]? = some r → r.seq = .busy q → s.port.lockOwner ≠ some (.sequencer k) →
    (q = .apply (.a2 .wait) ∨ q = .apply (.a4 .wait) ∨ q = .receive (.x2 .wait) ∨ q = .send (.s3 .wait)) →
    advance k .timeout s =
      .next (s.put k { r with ok := some false, err := some .channelBusy, seq := .idle, fresh := .ok :: r.fresh } s.port)

/-- R60, R63: at each of the four places where an operation asks for the lock, `q₀` is its `Acquire`, `q₁` its wait, and
`q₂` the point after the grant: the first `WriteByte` of a transmit phase; in a burst the loop's test under `per_burst` and
the `ReadByte` under `per_byte`. A free lock is granted and `lock_owner` set; on one that another agent holds the first
attempt goes to the wait and a later one changes nothing. That the step at a wait is chosen by the move is log 13's, and that
each of these is a step is log 11's. -/
def Obligations.LockGrantGoesOn : Prop :=
  ∀ (s : State) (k : Nat) (r : Sequencer) (q₀ q₁ q₂ : Point) (b : Burst),
    s.seqs[k]? = some r →
    (s.params.granularity = .perBurst ∧ b = .more ∨ s.params.granularity = .perByte ∧ b = .read) →
    ((q₀ = .apply (.a2 .acquire) ∧ q₁ = .apply (.a2 .wait) ∧ q₂ = .apply (.a2 (.write 0))) ∨
      (q₀ = .send (.s3 .acquire) ∧ q₁ = .send (.s3 .wait) ∧ q₂ = .send (.s3 (.write 0))) ∨
      (q₀ = .apply (.a4 .acquire) ∧ q₁ = .apply (.a4 .wait) ∧ q₂ = .apply (.a4 b)) ∨
      (q₀ = .receive (.x2 .acquire) ∧ q₁ = .receive (.x2 .wait) ∧ q₂ = .receive (.x2 b))) →
    (s.port.lockOwner = none →
      (r.seq = .busy q₀ → ∀ c, advance k c s =
        .next (s.put k { r with seq := .busy q₂ } { s.port with lockOwner := some (.sequencer k) })) ∧
      (r.seq = .busy q₁ → advance k .grant s =
        .next (s.put k { r with seq := .busy q₂ } { s.port with lockOwner := some (.sequencer k) }))) ∧
    ∀ a, s.port.lockOwner = some a → a ≠ .sequencer k →
      (r.seq = .busy q₀ → ∀ c, advance k c s = .next (s.put k { r with seq := .busy q₁ } s.port)) ∧
      (r.seq = .busy q₁ → advance k .grant s = .next s)

/-- R144, R145: after the settle delay, bytes that arrived meanwhile take RECEIVE back to Draining; if none wait, the frame
has ended, and its last byte is the RSSI byte. `fresh` is the model's own record (log 8). -/
def Obligations.SettlingExtendsFrame : Prop :=
  ∀ (s : State) (k : Nat) (c : LockChoice) (r : Sequencer),
    s.seqs[k]? = some r → r.seq = .busy (.receive .x3Avail) →
    (s.port.rxQ ≠ [] →
      advance k c s =
        .next (s.put k { r with rxState := .draining, seq := .busy (.receive (.x2 .first)) } s.port)) ∧
    (s.port.rxQ = [] → ∀ (n : Byte) (buf : Vector Byte 200) (_ : 1 ≤ n.toNat) (_ : n.toNat ≤ 200),
      r.accLen = some n → r.rxBuf = some buf →
      advance k c s =
        .next (s.put k
          { r with rxState := .done, rxLen := some (n - 1), rxRssi := some (rssiOf buf[n.toNat - 1]), ok := some true,
                   err := some .none, seq := .idle, fresh := .ok :: .rxLen :: .rxRssi :: r.fresh } s.port))

/-- R55, R63, R120 A4 and A5, R124, R140 X2, R144: the steps of a burst that has its lock, and where it ends. A `ReadByte`
that answers none counts and stores nothing. One that answers a byte hands it on, at once under `per_burst` and after the
`Release` under `per_byte`: APPLY counts it, up to 255, and RECEIVE does `receiveByte` (see ReceiveStoresOneByte). The burst
ends at an availability test without the lock that finds `rx_q` empty, or at the `Release` of `per_burst`: RECEIVE goes on to
Settling if it has read a byte, and back to Idle at X1 if it has read none (P4 step 5); APPLY ends, well if it has counted
11 bytes and with EchoMismatch if not. That each of these is a step is log 11's, and `fresh` is the model's own record (log
8). -/
def Obligations.BurstEndGoesOn : Prop :=
  ∀ (s : State) (k : Nat) (c : LockChoice) (r : Sequencer),
    s.seqs[k]? = some r →
    (∀ at_ : Burst → Point, (at_ = fun b => .apply (.a4 b)) ∨ (at_ = fun b => .receive (.x2 b)) →
      (r.seq = .busy (at_ .read) → s.port.rxQ = [] →
        (s.params.granularity = .perBurst → advance k c s = .next (s.put k { r with seq := .busy (at_ .more) } s.port)) ∧
        (s.params.granularity = .perByte →
          advance k c s = .next (s.put k { r with seq := .busy (at_ (.releaseByte none)) } s.port))) ∧
      (r.seq = .busy (at_ .read) → s.params.granularity = .perByte → ∀ v rest, s.port.rxQ = v :: rest →
        advance k c s =
          .next (s.put k { r with seq := .busy (at_ (.releaseByte (some v))) }
            { s.port with rxQ := rest, history := s.port.history ++ [.rd (.sequencer k) v] })) ∧
      (r.seq = .busy (at_ (.releaseByte none)) → s.port.lockOwner = some (.sequencer k) →
        advance k c s =
          .next (s.put k { r with seq := .busy (at_ .first) } { s.port with lockOwner := none }))) ∧
    (∀ (v : Byte) (b : Burst) (p : Port),
      (s.params.granularity = .perBurst ∧ b = .read ∧
          (∃ rest, s.port.rxQ = v :: rest ∧
            p = { s.port with rxQ := rest, history := s.port.history ++ [.rd (.sequencer k) v] }) ∨
        b = .releaseByte (some v) ∧ s.port.lockOwner = some (.sequencer k) ∧ p = { s.port with lockOwner := none }) →
      (r.seq = .busy (.apply (.a4 b)) → ∀ n, r.respCnt = some n →
        advance k c s =
          .next (s.put k
            { r with respCnt := some (BitVec.ofNat 8 (min (n.toNat + 1) 255)),
                     seq := .busy (.apply (.a4 (if b = .read then .more else .first))) } p)) ∧
      (r.seq = .busy (.receive (.x2 b)) →
        advance k c s = receiveByte k v (if b = .read then .more else .first) r p s)) ∧
    ∀ (b : Burst) (p : Port) (n : Byte),
      (b = .first ∧ s.port.rxQ = [] ∧ p = s.port ∨
        b = .releaseAll ∧ s.port.lockOwner = some (.sequencer k) ∧ p = { s.port with lockOwner := none }) →
      (r.seq = .busy (.receive (.x2 b)) → r.accLen = some n →
        (n = 0 → advance k c s = .next (s.put k { r with rxState := .idle, seq := .busy (.receive .x1Avail) } p)) ∧
        (n ≠ 0 → advance k c s = .next (s.put k { r with rxState := .settling, seq := .busy (.receive .x3Delay) } p))) ∧
      (r.seq = .busy (.apply (.a4 b)) → r.respCnt = some n → (b = .first → s.port.lockOwner ≠ some (.sequencer k)) →
        advance k c s =
          .next (s.put k
            { r with ok := some (decide (n.toNat = 11)), err := some (if n.toNat = 11 then .none else .echoMismatch),
                     seq := .idle, fresh := .ok :: r.fresh } p))

/-- R140 X2, R143: a byte read in a burst goes to the next place of `rx_buf`, and every other byte of the buffer, every
other register and the port are unchanged. -/
def Obligations.ReceiveStoresOneByte : Prop :=
  ∀ (s : State) (k : Nat) (b : Byte) (next : Burst) (r : Sequencer) (p : Port) (n : Byte) (buf : Vector Byte 200),
    r.accLen = some n → r.rxBuf = some buf → n.toNat < 200 →
    ∃ buf' : Vector Byte 200,
      receiveByte k b next r p s =
        .next (s.put k { r with accLen := some (n + 1), rxBuf := some buf', seq := .busy (.receive (.x2 next)) } p) ∧
      ∀ (j : Nat) (h : j < 200), buf'[j] = if j = n.toNat then b else buf[j]

/-- R142, R149: while no byte arrives, no step of any agent takes RECEIVE out of X1. -/
def Obligations.ReceiveWaitsOnSilentLine : Prop :=
  ∀ (s t : State) (m : Move) (k : Nat) (r : Sequencer),
    s.seqs[k]? = some r → (r.seq = .busy (.receive .x1Avail) ∨ r.seq = .busy (.receive .x1Delay)) →
    s.port.rxQ = [] → m.isArrival = false → applyMove m s = .next t →
    t.port.rxQ = [] ∧
    ∃ r', t.seqs[k]? = some r' ∧ (r'.seq = .busy (.receive .x1Avail) ∨ r'.seq = .busy (.receive .x1Delay))

/-- R175, R176 (the loop's shape: decision D11): a pass of SEND's discard loop reads every byte that waits and passes the
gap; if bytes arrived during the gap SEND is where it was, the lock still held. A `ReadByte` that answers none (R55) discards
nothing. A test at the loop's head that finds no byte ends the loop, and the `Release` ends SEND with success. The numbers
of steps are the model's (log 11), as are the arrival events of the history (log 7) and `fresh` (log 8). -/
def Obligations.SendDiscardPass : Prop :=
  ∀ (s : State) (k : Nat) (r : Sequencer),
    s.seqs[k]? = some r →
    (∀ more : List Byte, r.seq = .busy (.send .s5Avail) → s.port.rxQ ≠ [] →
      (∀ n, s.params.rxFifoCap = some n → more.length ≤ n) →
      runMoves (advances k (2 * s.port.rxQ.length + 2) ++ arrivals more ++ advances k 1) s =
        .next (s.put k r
          { s.port with rxQ := more, history := s.port.history ++ s.port.rxQ.map (PortEvent.rd (.sequencer k)) ++
                                                more.map PortEvent.arr })) ∧
    ∀ c,
      (r.seq = .busy (.send .s5Read) → s.port.rxQ = [] →
        advance k c s = .next (s.put k { r with seq := .busy (.send .s5More) } s.port)) ∧
      (r.seq = .busy (.send .s5Avail) → s.port.rxQ = [] →
        advance k c s = .next (s.put k { r with seq := .busy (.send .s5Release) } s.port)) ∧
      (r.seq = .busy (.send .s5Release) → s.port.lockOwner = some (.sequencer k) →
        advance k c s =
          .next (s.put k { r with ok := some true, err := some .none, seq := .idle, fresh := .ok :: r.fresh }
            { s.port with lockOwner := none }))

/-- R28, R201: a running operation writes `ok` and `err` when it ends, both together, and not before. -/
def Obligations.OperationEndsByFinish : Prop :=
  ∀ (s t : State) (k : Nat) (c : LockChoice) (r r' : Sequencer) (q : Point),
    s.seqs[k]? = some r → r.seq = .busy q → advance k c s = .next t → t.seqs[k]? = some r' →
    (r'.seq = .idle →
      (r'.ok = some true ∧ r'.err = some .none) ∨ (r'.ok = some false ∧ ∃ e, r'.err = some e ∧ e ≠ .none)) ∧
    (r'.seq ≠ .idle → r'.ok = r.ok ∧ r'.err = r.err)

/-- R146: a RECEIVE that ends with `ok = 0` leaves `rx_len` and `rx_rssi` unwritten, and a host that reads them
faults. -/
def Obligations.FailedReceiveHasNoLength : Prop :=
  ∀ (s t : State) (k : Nat) (c : LockChoice) (r r' : Sequencer) (q : ReceivePoint),
    s.Inv → s.seqs[k]? = some r → r.seq = .busy (.receive q) → advance k c s = .next t → t.seqs[k]? = some r' →
    r'.seq = .idle → r'.ok = some false →
    r'.rxLen = none ∧ r'.rxRssi = none ∧
    hostRead k .rxLen t = .fault .readUnwritten ∧ hostRead k .rxRssi t = .fault .readUnwritten

/-! ## Frames -/

/-- R41, R113: accepting a request is no port event. For every instruction: the port, the parameters, every other
sequencer and the schedule are unchanged, and so are the requests held. -/
def Obligations.AcceptanceFrame : Prop :=
  ∀ (i : Instr) (s t : State), exec i s = .next t →
    t.port = s.port ∧ t.params = s.params ∧ t.cur = s.cur ∧ t.script = s.script ∧ t.turn = s.turn ∧
    t.seqs.length = s.seqs.length ∧ (∀ j, j ≠ s.cur → t.seqs[j]? = s.seqs[j]?) ∧
    ∃ r r', s.seqs[s.cur]? = some r ∧ t.seqs[s.cur]? = some r' ∧ r'.held = r.held

/-- R41, for the step that accepts a request: every register the operation's row does not list is as it was. -/
def Obligations.AcceptanceRegisterFrame : Prop :=
  ∀ (i : Instr) (s t : State) (r r' : Sequencer),
    exec i s = .next t → s.seqs[s.cur]? = some r → t.seqs[s.cur]? = some r' →
    (r'.chanOk = r.chanOk ∨ ∃ v, i = .validate v) ∧
    (r'.cmd = r.cmd ∨ (∃ cfg, i = .encode cfg) ∨ ∃ cfg, i = .apply cfg) ∧
    (r'.cfg = r.cfg ∨ (∃ cfg, i = .encode cfg ∧ r'.cfg = cfg) ∨ (∃ cfg, i = .apply cfg ∧ r'.cfg = cfg) ∨
      ∃ cfg p, i = .send cfg p ∧ r'.cfg = cfg) ∧
    ((r'.rxState = r.rxState ∧ r'.rxBuf = r.rxBuf ∧ r'.accLen = r.accLen ∧ r'.rxLen = r.rxLen ∧ r'.rxRssi = r.rxRssi) ∨
      i = .receive) ∧
    ((r'.maxPay = r.maxPay ∧ r'.txFrame = r.txFrame) ∨ ∃ cfg p, i = .send cfg p) ∧
    r'.respCnt = r.respCnt ∧
    (r'.seq = .idle ∨ (r'.ok = r.ok ∧ r'.err = r.err))

/-- R41, R52, for a step of a running operation: every other sequencer, the parameters, the schedule, `wire_out`, `cfg`,
`chan_ok`, `cmd` and the held requests are unchanged; `rx_q` loses its head at most; `tx_q` is unchanged but at a
`WriteByte` of a transmit phase, which appends byte `i` of the frame and goes on to the next byte, or to `Flush` after the
last; and the registers of the other operations are unchanged. That each `WriteByte` is a step is log 11's. -/
def Obligations.RunningOperationFrame : Prop :=
  ∀ (s t : State) (k : Nat) (c : LockChoice) (r : Sequencer) (q : Point),
    s.seqs[k]? = some r → r.seq = .busy q → advance k c s = .next t →
    t.params = s.params ∧ t.cur = s.cur ∧ t.script = s.script ∧ t.turn = s.turn ∧
    t.port.wireOut = s.port.wireOut ∧
    (t.port.rxQ = s.port.rxQ ∨ ∃ b, s.port.rxQ = b :: t.port.rxQ) ∧
    (t.port.txQ = s.port.txQ ∨
      (∃ i v, q = .apply (.a2 (.write i)) ∧ r.cmd = some v ∧ i < 11) ∨
      ∃ i f, q = .send (.s3 (.write i)) ∧ r.txFrame = some f ∧ i < f.length) ∧
    ∃ r', t.seqs = s.seqs.set k r' ∧
      r'.cfg = r.cfg ∧ r'.chanOk = r.chanOk ∧ r'.cmd = r.cmd ∧ r'.maxPay = r.maxPay ∧ r'.txFrame = r.txFrame ∧
      r'.held = r.held ∧
      ((∃ a, q = .apply a) ∨ r'.respCnt = r.respCnt) ∧
      ((∃ a, q = .receive a) ∨
        (r'.rxState = r.rxState ∧ r'.rxBuf = r.rxBuf ∧ r'.accLen = r.accLen ∧ r'.rxLen = r.rxLen ∧
          r'.rxRssi = r.rxRssi)) ∧
      (∀ (i : Nat) (v : Vector Byte 11) (h : i < 11), q = .apply (.a2 (.write i)) → r.cmd = some v →
        t.port.txQ = s.port.txQ ++ [v[i]] ∧
        r'.seq = .busy (.apply (.a2 (if i = 10 then .flush else .write (i + 1))))) ∧
      (∀ (i : Nat) (f : List Byte) (h : i < f.length), q = .send (.s3 (.write i)) → r.txFrame = some f →
        t.port.txQ = s.port.txQ ++ [f[i]] ∧
        r'.seq = .busy (.send (.s3 (if i + 1 = f.length then .flush else .write (i + 1)))))

/-- R24, R209, R210, R214: no move but its own changes a running sequencer, except that the host may add to the requests
it holds; so nothing cancels an operation and its configuration does not change under it. That what is added stands behind
those held already is the model's choice (log 4). -/
def Obligations.NothingElseMovesASequencer : Prop :=
  ∀ (s t : State) (m : Move) (k : Nat) (r : Sequencer) (q : Point),
    s.seqs[k]? = some r → r.seq = .busy q → m.isOf (.sequencer k) = false → applyMove m s = .next t →
    ∃ held, t.seqs[k]? = some { r with held := held } ∧ ∃ new, held = r.held ++ new

/-! ## Invariants of the whole machine -/

/-- R230: what reset leaves, for any number of sequencers and any launch parameters (State.reset is one of them,
log 3). A host that reads a result register then gets `rx_state`, which is Idle, code 0 (R23), and the model fault
ReadUnwritten for any other; that `rx_state` counts as written before any operation has run is log 8's. -/
def Obligations.LaunchValues : Prop :=
  ∀ (n : Nat) (p : Params),
    (State.launch n p).seqs.length = n ∧
    (∀ r ∈ (State.launch n p).seqs,
      r.seq = .idle ∧ r.rxState = .idle ∧ r.cfg = {} ∧ r.ok = none ∧ r.err = none ∧ r.chanOk = none ∧ r.cmd = none ∧
      r.respCnt = none ∧ r.rxBuf = none ∧ r.accLen = none ∧ r.rxLen = none ∧ r.rxRssi = none ∧ r.maxPay = none ∧
      r.txFrame = none ∧ r.readOut .rxState = some (.code 0)) ∧
    (∀ k o, k < n →
      (o = .rxState → hostRead k o (State.launch n p) = .next (State.launch n p)) ∧
      (o ≠ .rxState → hostRead k o (State.launch n p) = .fault .readUnwritten)) ∧
    (State.launch n p).port.lockOwner = none ∧ (State.launch n p).port.txQ = [] ∧
    (State.launch n p).port.rxQ = p.rxQ0 ∧ (State.launch n p).port.wireOut = []

/-- The invariants hold at power-on, for any launch parameters and at least one sequencer. -/
def Obligations.LaunchMeetsInvariants : Prop :=
  ∀ (n : Nat) (p : Params), 0 < n → (State.launch n p).Inv ∧ PortHistoryInv (State.launch n p)

/-- Every step of every agent keeps the invariant: the lock register agrees with where the sequencers stand, `ok` and
`err` agree, the registers keep their ranges, and each running operation holds what its point says. -/
def Obligations.StepKeepsInvariant : Prop :=
  ∀ s t : State, s.Inv → step s = .next t → t.Inv

/-- R65 items 1 to 3: every step keeps it that no byte is lost, repeated or reordered in either direction. -/
def Obligations.StepKeepsPortHistory : Prop :=
  ∀ s t : State, PortHistoryInv s → step s = .next t → PortHistoryInv t

/-- R60, R61, R207: where the invariant holds, a running operation's step never faults and is never refused; no block
sequence acquires a lock it holds, releases one it does not hold, or reads an unwritten register. -/
def Obligations.RunningOperationNeverStops : Prop :=
  ∀ (s : State) (k : Nat) (c : LockChoice) (r : Sequencer) (q : Point),
    s.Inv → s.seqs[k]? = some r → r.seq = .busy q → ∃ t, advance k c s = .next t

/-- R62: a sequencer writes and reads bytes, a `ReadByte` that answers none among them, and waits in `Flush`, only while it
holds the lock. That the history has an event for each byte written is log 7's. -/
def Obligations.BlockKeepsLockDiscipline : Prop :=
  ∀ (s t : State) (k : Nat) (c : LockChoice) (r : Sequencer) (q : Point),
    s.Inv → s.seqs[k]? = some r → r.seq = .busy q → advance k c s = .next t →
    (t.port.history ≠ s.port.history ∨
      (∃ i, q = .apply (.a2 (.write i)) ∨ q = .send (.s3 (.write i))) ∨
      q = .apply (.a2 .flush) ∨ q = .send (.s3 .flush) ∨
      q = .apply (.a4 .read) ∨ q = .receive (.x2 .read) ∨ q = .send .s5Read) →
    s.port.lockOwner = some (.sequencer k)

/-- R65 item 4: while an agent holds the lock, a move of another that keeps the discipline leaves the lock with it,
writes nothing and reads nothing; only arrivals add to `rx_q`. -/
def Obligations.LockExcludesOthers : Prop :=
  ∀ (s t : State) (m : Move) (a : Agent),
    s.Inv → s.port.lockOwner = some a → m.isOf a = false → m.isReset = false → m.disciplined s = true →
    applyMove m s = .next t →
    t.port.lockOwner = some a ∧ t.port.wireOut ++ t.port.txQ = s.port.wireOut ++ s.port.txQ ∧
    ∃ new, t.port.rxQ = s.port.rxQ ++ new

/-- R203: no operation ends holding the lock. -/
def Obligations.NoOperationEndsHoldingLock : Prop :=
  ∀ (s t : State) (k : Nat) (c : LockChoice) (r' : Sequencer),
    s.Inv → advance k c s = .next t → t.seqs[k]? = some r' → r'.seq = .idle →
    t.port.lockOwner ≠ some (.sequencer k)

/-! ## Steps, the host and the environment -/

/-- A request an IDLE sequencer holds, whose move is next: the step takes it from those held and is `exec` of the
instruction its op code selects (R81), whatever fields it leaves out (R98); and where the request is what a byte image
parses to, that is the instruction the image decodes to. That the oldest held request is the one taken is log 4's, that it runs with
the operands it was presented with is log 24's (DESIGN CHOICE, unsafe), the schedule log 1's and the image log 5's. -/
def Obligations.StepRunsHeldRequest : Prop :=
  ∀ (s : State) (k : Nat) (c : LockChoice) (rest : List Move) (r : Sequencer) (q : Request) (qs : List Request),
    s.script = .advance k c :: rest → s.seqs[k]? = some r → r.seq = .idle → r.held = q :: qs →
    step s = exec (decodeRequest q) { s with seqs := s.seqs.set k { r with held := qs }, cur := k, script := rest } ∧
    ∀ (bs : List Byte) (i : Instr), parseRequest bs = .ok q → decode bs = .ok i →
      step s = exec i { s with seqs := s.seqs.set k { r with held := qs }, cur := k, script := rest }

/-- A table word placed for the next step runs as the very next instruction (log 2). -/
def Obligations.TableWordRunsNext : Prop :=
  ∀ (s : State) (nbits w : Nat) (i : Instr) (r : Sequencer),
    decodeTableWord nbits w = some i → s.seqs[0]? = some r →
    step (s.withFetchWord nbits w) = exec i { s with seqs := s.seqs.set 0 { r with seq := .idle }, cur := 0 }

/-- A step takes the script's first move, or the free move when the script is used up (log 1). The statement holds for
every value of the free move. -/
def Obligations.StepTakesNextMove : Prop :=
  ∀ s : State,
    (∀ m rest, s.script = m :: rest → step s = applyMove m { s with script := rest }) ∧
    (s.script = [] → step s = applyMove (Config.freeMove s.turn) { s with turn := s.turn + 1 })

/-- R214, R217, D25: a request presented to a sequencer, IDLE or busy, is held, and nothing else changes. That one presented
to an IDLE sequencer waits there for that sequencer's next step, and that a request stands behind those held already, of
which there may be any number, is the model's choice (log 4), as is that its operands are fixed here (log 24). -/
def Obligations.BusySequencerHoldsRequest : Prop :=
  ∀ (s : State) (k : Nat) (q : Request) (r : Sequencer),
    s.seqs[k]? = some r →
    applyMove (.present k q) s = .next { s with seqs := s.seqs.set k { r with held := r.held ++ [q] } }

/-- R230, R231: a reset while every sequencer is IDLE gives the power-on state with the same sequencers and parameters
(log 9); while an operation is running it is refused. -/
def Obligations.ResetRule : Prop :=
  ∀ (s : State) (rxQ0 : List Byte),
    ((∀ r ∈ s.seqs, r.seq = .idle) →
      applyMove (.reset rxQ0) s =
        .next { State.launch s.seqs.length { s.params with rxQ0 := rxQ0 } with script := s.script, turn := s.turn }) ∧
    (∀ r ∈ s.seqs, r.seq ≠ .idle → applyMove (.reset rxQ0) s = .refused .resetDuringOperation)

/-- R38, R217: a host's read of a result register of an IDLE sequencer goes through where the last operation wrote the
register, and is the model fault ReadUnwritten where it did not (which registers those are is log 8's record); and what it
reads is that register's own value, `rx_state` by the codes of R23. -/
def Obligations.HostReadRule : Prop :=
  ∀ (s : State) (k : Nat) (r : Sequencer) (o : OutReg),
    s.Inv → s.seqs[k]? = some r → r.seq = .idle →
    (o ∈ r.fresh → hostRead k o s = .next s) ∧ (o ∉ r.fresh → hostRead k o s = .fault .readUnwritten) ∧
    (o ∈ r.fresh →
      match o with
      | .ok => ∃ b, r.ok = some b ∧ r.readOut .ok = some (.flag b)
      | .chanOk => ∃ b, r.chanOk = some b ∧ r.readOut .chanOk = some (.flag b)
      | .cmd => ∃ v, r.cmd = some v ∧ r.readOut .cmd = some (.bytes v.toList)
      | .respCnt => ∃ n, r.respCnt = some n ∧ r.readOut .respCnt = some (.count n)
      | .rxState =>
        ∃ code, r.readOut .rxState = some (.code code) ∧
          (r.rxState = .idle → code = 0) ∧ (r.rxState = .draining → code = 1) ∧ (r.rxState = .settling → code = 2) ∧
          (r.rxState = .done → code = 3) ∧ (r.rxState = .overflow → code = 4)
      | .rxBuf => ∃ v, r.rxBuf = some v ∧ r.readOut .rxBuf = some (.bytes v.toList)
      | .accLen => ∃ n, r.accLen = some n ∧ r.readOut .accLen = some (.count n)
      | .rxLen => ∃ n, r.rxLen = some n ∧ r.readOut .rxLen = some (.count n)
      | .rxRssi => ∃ w, r.rxRssi = some w ∧ r.readOut .rxRssi = some (.int16 w)
      | .maxPay => ∃ n, r.maxPay = some n ∧ r.readOut .maxPay = some (.count n)
      | .txFrame => ∃ f, r.txFrame = some f ∧ r.readOut .txFrame = some (.bytes f))

/-- R60, R61, R207, R214: an environment agent's `Acquire` and `Release`, and the two model faults it can raise by misusing
them. That its wait for a lock another agent holds leaves no trace is log 13's. -/
def Obligations.EnvironmentLockMisuseFaults : Prop :=
  ∀ (s : State) (a : Nat),
    (s.port.lockOwner = none →
      applyMove (.env a .acquire) s = .next { s with port := { s.port with lockOwner := some (.env a) } }) ∧
    (∀ b, s.port.lockOwner = some b → b ≠ .env a → applyMove (.env a .acquire) s = .next s) ∧
    (s.port.lockOwner = some (.env a) → applyMove (.env a .acquire) s = .fault .reentrantAcquire) ∧
    (s.port.lockOwner = some (.env a) →
      applyMove (.env a .release) s = .next { s with port := { s.port with lockOwner := none } }) ∧
    (s.port.lockOwner ≠ some (.env a) → applyMove (.env a .release) s = .fault .releaseNotHeld)

/-- R62, R240: an environment agent that ignores the lock still writes into `tx_q` and still takes bytes of `rx_q`, and
nothing else changes but the history. That the history has an event for the byte written is log 7's; the event for a byte
read is R37's. -/
def Obligations.UndisciplinedAgentInterleaves : Prop :=
  ∀ (s : State) (a : Nat) (b : Byte),
    applyMove (.env a (.write b)) s =
      .next { s with port := { s.port with txQ := s.port.txQ ++ [b], history := s.port.history ++ [.wr (.env a) b] } } ∧
    ∀ rest, s.port.rxQ = b :: rest →
      applyMove (.env a .read) s =
        .next { s with port := { s.port with rxQ := rest, history := s.port.history ++ [.rd (.env a) b] } }

/-- R36, R70, D33: a byte that arrives is appended unless the queue is at its capacity, and the transmitter moves one
byte from the head of `tx_q` to the end of `wire_out`. That an arrival is an event of the history is the model's (log 7), and
so is that one at the capacity leaves no event (log 22). -/
def Obligations.EnvironmentPortAgents : Prop :=
  ∀ (s : State) (b : Byte),
    ((∀ n, s.params.rxFifoCap = some n → s.port.rxQ.length < n) →
      applyMove (.arrive b) s =
        .next { s with port := { s.port with rxQ := s.port.rxQ ++ [b], history := s.port.history ++ [.arr b] } }) ∧
    (∀ n, s.params.rxFifoCap = some n → n ≤ s.port.rxQ.length → applyMove (.arrive b) s = .next s) ∧
    (∀ rest, s.port.txQ = b :: rest →
      applyMove .transmit s = .next { s with port := { s.port with txQ := rest, wireOut := s.port.wireOut ++ [b] } })

/-- R87: register 4, byte 7 of the frame, is `own_channel` unchanged. ENCODE copies any value, and ends in the step that
accepts it (decision D30); APPLY copies one of at most 30 (its frame is in `cmd`: decision D29), and refuses a larger one
before it encodes, so `cmd` stays as it was; SEND, the one other operation with a configuration, refuses none: a payload
within the maximum, an empty one too (decision D23; the order of MAXPAY's codes is D24), goes on whatever `own_channel` is.
That an accepted SEND stands before its `Acquire` is log 11's. -/
def Obligations.OwnChannelIsRegister4 : Prop :=
  ∀ (s : State) (r : Sequencer) (cfg : ConfigurationRecord) (e : EncodeFields),
    s.seqs[s.cur]? = some r → r.seq = .idle → encodeFields cfg = some e →
    (∃ t r' v, exec (.encode cfg) s = .next t ∧ t.seqs[s.cur]? = some r' ∧ r'.ok = some true ∧ r'.cmd = some v ∧
      v[7] = e.ownChannel) ∧
    (e.ownChannel.toNat ≤ 30 →
      ∃ t r' v, exec (.apply cfg) s = .next t ∧ t.seqs[s.cur]? = some r' ∧ r'.seq ≠ .idle ∧ r'.cmd = some v ∧
        v[7] = e.ownChannel) ∧
    (30 < e.ownChannel.toNat →
      ∃ t r', exec (.apply cfg) s = .next t ∧ t.seqs[s.cur]? = some r' ∧ r'.seq = .idle ∧ r'.ok = some false ∧
        r'.cmd = r.cmd) ∧
    (∀ payload : List Byte, payload.length ≤ (maxPayOf e.subpacketSize.toNat).toNat → cfg.targetAddress.isSome = true →
      cfg.targetChannel.isSome = true →
      ∃ t r', exec (.send cfg payload) s = .next t ∧ t.seqs[s.cur]? = some r' ∧ r'.seq = .busy (.send (.s3 .acquire)))
end

