-- ==== Sys2Proof/Laws/State.lean ====
section
/-! SUPPORT. One lemma per field per update of the state, each true by rfl, so that no proof unfolds an update. -/

namespace Sys2Proof.Machine

/-! ## `State.put` -/

@[simp] theorem put_seqs (k : Nat) (r : Sequencer) (p : Port) (s : State) :
    (s.put k r p).seqs = s.seqs.set k r := rfl

@[simp] theorem put_port (k : Nat) (r : Sequencer) (p : Port) (s : State) :
    (s.put k r p).port = p := rfl

@[simp] theorem put_params (k : Nat) (r : Sequencer) (p : Port) (s : State) :
    (s.put k r p).params = s.params := rfl

@[simp] theorem put_cur (k : Nat) (r : Sequencer) (p : Port) (s : State) :
    (s.put k r p).cur = s.cur := rfl

@[simp] theorem put_script (k : Nat) (r : Sequencer) (p : Port) (s : State) :
    (s.put k r p).script = s.script := rfl

@[simp] theorem put_turn (k : Nat) (r : Sequencer) (p : Port) (s : State) :
    (s.put k r p).turn = s.turn := rfl

/-! ## `Sequencer.finish` -/

@[simp] theorem finish_rxState (ok : Bool) (kind : ErrCode) (r : Sequencer) :
    (r.finish ok kind).rxState = r.rxState := rfl

@[simp] theorem finish_cfg (ok : Bool) (kind : ErrCode) (r : Sequencer) :
    (r.finish ok kind).cfg = r.cfg := rfl

@[simp] theorem finish_ok (ok : Bool) (kind : ErrCode) (r : Sequencer) :
    (r.finish ok kind).ok = some ok := rfl

@[simp] theorem finish_err (ok : Bool) (kind : ErrCode) (r : Sequencer) :
    (r.finish ok kind).err = some (if ok then .none else kind) := rfl

@[simp] theorem finish_chanOk (ok : Bool) (kind : ErrCode) (r : Sequencer) :
    (r.finish ok kind).chanOk = r.chanOk := rfl

@[simp] theorem finish_cmd (ok : Bool) (kind : ErrCode) (r : Sequencer) :
    (r.finish ok kind).cmd = r.cmd := rfl

@[simp] theorem finish_respCnt (ok : Bool) (kind : ErrCode) (r : Sequencer) :
    (r.finish ok kind).respCnt = r.respCnt := rfl

@[simp] theorem finish_rxBuf (ok : Bool) (kind : ErrCode) (r : Sequencer) :
    (r.finish ok kind).rxBuf = r.rxBuf := rfl

@[simp] theorem finish_accLen (ok : Bool) (kind : ErrCode) (r : Sequencer) :
    (r.finish ok kind).accLen = r.accLen := rfl

@[simp] theorem finish_rxLen (ok : Bool) (kind : ErrCode) (r : Sequencer) :
    (r.finish ok kind).rxLen = r.rxLen := rfl

@[simp] theorem finish_rxRssi (ok : Bool) (kind : ErrCode) (r : Sequencer) :
    (r.finish ok kind).rxRssi = r.rxRssi := rfl

@[simp] theorem finish_maxPay (ok : Bool) (kind : ErrCode) (r : Sequencer) :
    (r.finish ok kind).maxPay = r.maxPay := rfl

@[simp] theorem finish_txFrame (ok : Bool) (kind : ErrCode) (r : Sequencer) :
    (r.finish ok kind).txFrame = r.txFrame := rfl

@[simp] theorem finish_held (ok : Bool) (kind : ErrCode) (r : Sequencer) :
    (r.finish ok kind).held = r.held := rfl

@[simp] theorem finish_fresh (ok : Bool) (kind : ErrCode) (r : Sequencer) :
    (r.finish ok kind).fresh = .ok :: r.fresh := rfl

@[simp] theorem finish_seq (ok : Bool) (kind : ErrCode) (r : Sequencer) :
    (r.finish ok kind).seq = .idle := rfl

/-! ## `Sequencer.restAt` -/

@[simp] theorem restAt_rxState (q : Point) (r : Sequencer) :
    (r.restAt q).rxState = r.rxState := rfl

@[simp] theorem restAt_cfg (q : Point) (r : Sequencer) :
    (r.restAt q).cfg = r.cfg := rfl

@[simp] theorem restAt_ok (q : Point) (r : Sequencer) :
    (r.restAt q).ok = r.ok := rfl

@[simp] theorem restAt_err (q : Point) (r : Sequencer) :
    (r.restAt q).err = r.err := rfl

@[simp] theorem restAt_chanOk (q : Point) (r : Sequencer) :
    (r.restAt q).chanOk = r.chanOk := rfl

@[simp] theorem restAt_cmd (q : Point) (r : Sequencer) :
    (r.restAt q).cmd = r.cmd := rfl

@[simp] theorem restAt_respCnt (q : Point) (r : Sequencer) :
    (r.restAt q).respCnt = r.respCnt := rfl

@[simp] theorem restAt_rxBuf (q : Point) (r : Sequencer) :
    (r.restAt q).rxBuf = r.rxBuf := rfl

@[simp] theorem restAt_accLen (q : Point) (r : Sequencer) :
    (r.restAt q).accLen = r.accLen := rfl

@[simp] theorem restAt_rxLen (q : Point) (r : Sequencer) :
    (r.restAt q).rxLen = r.rxLen := rfl

@[simp] theorem restAt_rxRssi (q : Point) (r : Sequencer) :
    (r.restAt q).rxRssi = r.rxRssi := rfl

@[simp] theorem restAt_maxPay (q : Point) (r : Sequencer) :
    (r.restAt q).maxPay = r.maxPay := rfl

@[simp] theorem restAt_txFrame (q : Point) (r : Sequencer) :
    (r.restAt q).txFrame = r.txFrame := rfl

@[simp] theorem restAt_held (q : Point) (r : Sequencer) :
    (r.restAt q).held = r.held := rfl

@[simp] theorem restAt_fresh (q : Point) (r : Sequencer) :
    (r.restAt q).fresh = r.fresh := rfl

@[simp] theorem restAt_seq (q : Point) (r : Sequencer) :
    (r.restAt q).seq = .busy q := rfl

/-! ## The port -/

@[simp] theorem writeByte_lockOwner (a : Agent) (b : Byte) (p : Port) :
    (p.writeByte a b).lockOwner = p.lockOwner := rfl

@[simp] theorem writeByte_rxQ (a : Agent) (b : Byte) (p : Port) :
    (p.writeByte a b).rxQ = p.rxQ := rfl

@[simp] theorem writeByte_txQ (a : Agent) (b : Byte) (p : Port) :
    (p.writeByte a b).txQ = p.txQ ++ [b] := rfl

@[simp] theorem writeByte_wireOut (a : Agent) (b : Byte) (p : Port) :
    (p.writeByte a b).wireOut = p.wireOut := rfl

@[simp] theorem writeByte_history (a : Agent) (b : Byte) (p : Port) :
    (p.writeByte a b).history = p.history ++ [.wr a b] := rfl

theorem readByte_empty (a : Agent) (p : Port) (h : p.rxQ = []) : p.readByte a = (none, p) := by
  simp [Port.readByte, h]

theorem readByte_cons (a : Agent) (p : Port) (b : Byte) (rest : List Byte) (h : p.rxQ = b :: rest) :
    p.readByte a = (some b, { p with rxQ := rest, history := p.history ++ [.rd a b] }) := by
  simp [Port.readByte, h]

theorem transmit_cons (p : Port) (b : Byte) (rest : List Byte) (h : p.txQ = b :: rest) :
    p.transmit = { p with txQ := rest, wireOut := p.wireOut ++ [b] } := by
  simp [Port.transmit, h]

theorem transmit_empty (p : Port) (h : p.txQ = []) : p.transmit = p := by
  simp [Port.transmit, h]

theorem arrive_room (cap : Option Nat) (b : Byte) (p : Port) (h : ∀ n, cap = some n → p.rxQ.length < n) :
    p.arrive cap b = { p with rxQ := p.rxQ ++ [b], history := p.history ++ [.arr b] } := by
  cases cap with
  | none => rfl
  | some n => simp [Port.arrive, h n rfl]

theorem arrive_full (n : Nat) (b : Byte) (p : Port) (h : n ≤ p.rxQ.length) : p.arrive (some n) b = p := by
  simp [Port.arrive, Nat.not_lt.mpr h]

end Sys2Proof.Machine
end

