-- ==== Sys2Proof/Laws/Ops.lean ====
section
/-! SUPPORT. For each shared operation, once, everything it can do; the provers cite these instead of unfolding it. -/

namespace Sys2Proof.Machine

/-! ## The lock -/

/-- A first `Acquire` that answers has granted a free lock or is held by another agent's. -/
theorem tryAcquire_ok {a : Agent} {p p' : Port} {g : Grant} (h : p.tryAcquire a = .ok (g, p')) :
    (g = .granted ∧ p.lockOwner = none ∧ p' = { p with lockOwner := some a }) ∨
    (g = .held ∧ p' = p ∧ ∃ b, p.lockOwner = some b ∧ b ≠ a) := by
  unfold Port.tryAcquire at h
  split at h
  · cases h
  · rename_i hne
    split at h
    · rename_i hfree; cases h; exact .inl ⟨rfl, hfree, rfl⟩
    · rename_i hfree
      cases h
      obtain ⟨b, hb⟩ := Option.ne_none_iff_exists'.mp hfree
      exact .inr ⟨rfl, rfl, b, hb, fun e => hne (by rw [hb, e])⟩

/-- A first `Acquire` faults only for the lock's holder. -/
theorem tryAcquire_error {a : Agent} {p : Port} {f : Fault} (h : p.tryAcquire a = .error f) :
    f = .reentrantAcquire ∧ p.lockOwner = some a := by
  unfold Port.tryAcquire at h
  split at h
  · rename_i ho; cases h; exact ⟨rfl, ho⟩
  · split at h <;> cases h

/-- A waiting `Acquire` is granted a free lock, goes on waiting, or times out. -/
theorem waitAcquire_cases (a : Agent) (c : LockChoice) (p : Port) :
    (p.waitAcquire a c = (.granted, { p with lockOwner := some a }) ∧ p.lockOwner = none) ∨
    p.waitAcquire a c = (.held, p) ∨ p.waitAcquire a c = (.timeout, p) := by
  cases c with
  | timeout => exact .inr (.inr rfl)
  | grant =>
    by_cases h : p.lockOwner = none
    · exact .inl ⟨by simp [Port.waitAcquire, h], h⟩
    · exact .inr (.inl (by simp [Port.waitAcquire, h]))

theorem release_ok {a : Agent} {p p' : Port} (h : p.release a = .ok p') :
    p.lockOwner = some a ∧ p' = { p with lockOwner := none } := by
  unfold Port.release at h
  split at h
  · rename_i ho; cases h; exact ⟨ho, rfl⟩
  · cases h

theorem release_error {a : Agent} {p : Port} {f : Fault} (h : p.release a = .error f) :
    f = .releaseNotHeld ∧ p.lockOwner ≠ some a := by
  unfold Port.release at h
  split at h
  · cases h
  · rename_i ho; cases h; exact ⟨rfl, ho⟩

theorem release_owner {a : Agent} {p : Port} (h : p.lockOwner = some a) :
    p.release a = .ok { p with lockOwner := none } := by
  simp [Port.release, h]

/-! ## The transmit phase -/

/-- Everything a step of a transmit phase can do. -/
theorem txStep_ok {a : Agent} {c : LockChoice} {frame : Option (List Byte)} {t : Tx} {p p' : Port} {n : TxNext}
    (h : txStep a c frame t p = .ok (n, p')) :
    ((t = .acquire ∨ t = .wait) ∧ p.lockOwner = none ∧ n = .goto (.write 0) ∧ p' = { p with lockOwner := some a }) ∨
    ((t = .acquire ∨ t = .wait) ∧ n = .goto .wait ∧ p' = p ∧ (t = .acquire → p.lockOwner ≠ some a)) ∨
    (t = .wait ∧ n = .timeout ∧ p' = p) ∨
    (∃ i bs b, t = .write i ∧ frame = some bs ∧ bs[i]? = some b ∧ p' = p.writeByte a b ∧
      n = .goto (if i + 1 < bs.length then .write (i + 1) else .flush)) ∨
    (∃ i bs, t = .write i ∧ frame = some bs ∧ bs.length ≤ i ∧ n = .goto .flush ∧ p' = p) ∨
    (t = .flush ∧ p.txQ = [] ∧ n = .sent ∧ p' = p) ∨
    (t = .flush ∧ p.txQ ≠ [] ∧ n = .goto .flush ∧ p' = p) := by
  cases t with
  | acquire =>
    simp only [txStep] at h
    rcases hq : p.tryAcquire a with f | ⟨g, p1⟩ <;> rw [hq] at h
    · cases h
    · obtain ⟨rfl, hfree, rfl⟩ | ⟨rfl, rfl, b, hb, hne⟩ := tryAcquire_ok hq <;> cases h
      · exact .inl ⟨.inl rfl, hfree, rfl, rfl⟩
      · exact .inr (.inl ⟨.inl rfl, rfl, rfl, fun _ e => hne (by rw [hb] at e; exact Option.some.inj e)⟩)
  | wait =>
    simp only [txStep] at h
    obtain ⟨e, hfree⟩ | e | e := waitAcquire_cases a c p <;> rw [e] at h <;> cases h
    · exact .inl ⟨.inr rfl, hfree, rfl, rfl⟩
    · exact .inr (.inl ⟨.inr rfl, rfl, rfl, fun e => by cases e⟩)
    · exact .inr (.inr (.inl ⟨rfl, rfl, rfl⟩))
  | write i =>
    simp only [txStep] at h
    cases frame with
    | none => cases h
    | some bs =>
      simp only at h
      cases hb : bs[i]? with
      | none =>
        rw [hb] at h; cases h
        exact .inr (.inr (.inr (.inr (.inl ⟨i, bs, rfl, rfl, List.getElem?_eq_none_iff.mp hb, rfl, rfl⟩))))
      | some b =>
        rw [hb] at h; cases h
        exact .inr (.inr (.inr (.inl ⟨i, bs, b, rfl, rfl, hb, rfl, rfl⟩)))
  | flush =>
    simp only [txStep] at h
    split at h <;> rename_i hq <;> cases h
    · exact .inr (.inr (.inr (.inr (.inr (.inl ⟨rfl, hq, rfl, rfl⟩)))))
    · exact .inr (.inr (.inr (.inr (.inr (.inr ⟨rfl, hq, rfl, rfl⟩)))))

/-- A transmit phase faults only on an `Acquire` by the holder or on an unwritten frame. -/
theorem txStep_error {a : Agent} {c : LockChoice} {frame : Option (List Byte)} {t : Tx} {p : Port} {f : Fault}
    (h : txStep a c frame t p = .error f) :
    (t = .acquire ∧ f = .reentrantAcquire ∧ p.lockOwner = some a) ∨
    (∃ i, t = .write i ∧ f = .readUnwritten ∧ frame = none) := by
  cases t with
  | acquire =>
    simp only [txStep] at h
    rcases hq : p.tryAcquire a with f' | ⟨g, p1⟩ <;> rw [hq] at h
    · cases h; exact .inl ⟨rfl, tryAcquire_error hq⟩
    · obtain ⟨rfl, -⟩ | ⟨rfl, -⟩ := tryAcquire_ok hq <;> cases h
  | wait =>
    simp only [txStep] at h
    obtain ⟨e, -⟩ | e | e := waitAcquire_cases a c p <;> rw [e] at h <;> cases h
  | write i =>
    simp only [txStep] at h
    cases frame with
    | none => cases h; exact .inr ⟨i, rfl, rfl, rfl⟩
    | some bs => simp only at h; split at h <;> cases h
  | flush =>
    simp only [txStep] at h
    split at h <;> cases h

/-! ## DrainBurst -/

/-- Everything a step of a burst can do. -/
theorem burstStep_ok {g : Granularity} {a : Agent} {c : LockChoice} {b : Burst} {p p' : Port} {n : BurstNext}
    (h : burstStep g a c b p = .ok (n, p')) :
    (b = .first ∧ p.rxQ = [] ∧ n = .done ∧ p' = p) ∨
    (b = .first ∧ p.rxQ ≠ [] ∧ n = .goto .acquire ∧ p' = p) ∨
    ((b = .acquire ∨ b = .wait) ∧ p.lockOwner = none ∧ n = .goto (afterGrant g) ∧ p' = { p with lockOwner := some a }) ∨
    ((b = .acquire ∨ b = .wait) ∧ n = .goto .wait ∧ p' = p ∧ (b = .acquire → p.lockOwner ≠ some a)) ∨
    (b = .wait ∧ n = .timeout ∧ p' = p) ∨
    (b = .more ∧ p.rxQ = [] ∧ n = .goto .releaseAll ∧ p' = p) ∨
    (b = .more ∧ p.rxQ ≠ [] ∧ n = .goto .read ∧ p' = p) ∨
    (b = .read ∧ p.rxQ = [] ∧ p' = p ∧
      ((g = .perBurst ∧ n = .goto .more) ∨ (g = .perByte ∧ n = .goto (.releaseByte none)))) ∨
    (∃ v rest, b = .read ∧ p.rxQ = v :: rest ∧ p' = { p with rxQ := rest, history := p.history ++ [.rd a v] } ∧
      ((g = .perBurst ∧ n = .byte v .more) ∨ (g = .perByte ∧ n = .goto (.releaseByte (some v))))) ∨
    (b = .releaseByte none ∧ p.lockOwner = some a ∧ n = .goto .first ∧ p' = { p with lockOwner := none }) ∨
    (∃ v, b = .releaseByte (some v) ∧ p.lockOwner = some a ∧ n = .byte v .first ∧ p' = { p with lockOwner := none }) ∨
    (b = .releaseAll ∧ p.lockOwner = some a ∧ n = .done ∧ p' = { p with lockOwner := none }) := by
  cases b with
  | first =>
    simp only [burstStep, Port.avail, List.length_eq_zero_iff] at h
    split at h <;> rename_i hq <;> cases h
    · exact .inl ⟨rfl, hq, rfl, rfl⟩
    · exact .inr (.inl ⟨rfl, hq, rfl, rfl⟩)
  | acquire =>
    simp only [burstStep] at h
    rcases hq : p.tryAcquire a with f | ⟨g', p1⟩ <;> rw [hq] at h
    · cases h
    · obtain ⟨rfl, hfree, hp⟩ | ⟨rfl, hp, b, hb, hne⟩ := tryAcquire_ok hq <;> cases h <;> cases hp
      · exact .inr (.inr (.inl ⟨.inl rfl, hfree, rfl, rfl⟩))
      · exact .inr (.inr (.inr (.inl ⟨.inl rfl, rfl, rfl, fun _ e => hne (by rw [hb] at e; exact Option.some.inj e)⟩)))
  | wait =>
    simp only [burstStep] at h
    obtain ⟨e, hfree⟩ | e | e := waitAcquire_cases a c p <;> rw [e] at h <;> cases h
    · exact .inr (.inr (.inl ⟨.inr rfl, hfree, rfl, rfl⟩))
    · exact .inr (.inr (.inr (.inl ⟨.inr rfl, rfl, rfl, fun e => by cases e⟩)))
    · exact .inr (.inr (.inr (.inr (.inl ⟨rfl, rfl, rfl⟩))))
  | more =>
    simp only [burstStep, Port.avail, List.length_eq_zero_iff] at h
    split at h <;> rename_i hq <;> cases h <;> simp [hq]
  | read =>
    cases hq : p.rxQ with
    | nil =>
      simp only [burstStep, readByte_empty a p hq] at h
      cases g <;> cases h <;> simp
    | cons v rest =>
      simp only [burstStep, readByte_cons a p v rest hq] at h
      cases g <;> cases h <;> simp
  | releaseByte r =>
    simp only [burstStep] at h
    rcases hq : p.release a with f | p1 <;> rw [hq] at h
    · cases h
    · obtain ⟨ho, rfl⟩ := release_ok hq
      cases r <;> cases h <;> simp [ho]
  | releaseAll =>
    simp only [burstStep] at h
    rcases hq : p.release a with f | p1 <;> rw [hq] at h
    · cases h
    · obtain ⟨ho, rfl⟩ := release_ok hq
      cases h
      simp [ho]

/-- A burst faults only on an `Acquire` by the holder or a `Release` by another agent. -/
theorem burstStep_error {g : Granularity} {a : Agent} {c : LockChoice} {b : Burst} {p : Port} {f : Fault}
    (h : burstStep g a c b p = .error f) :
    (b = .acquire ∧ p.lockOwner = some a) ∨ (b.holdsLock = true ∧ p.lockOwner ≠ some a) := by
  cases b with
  | first => simp only [burstStep] at h; split at h <;> cases h
  | acquire =>
    simp only [burstStep] at h
    rcases hq : p.tryAcquire a with f' | ⟨g', p1⟩ <;> rw [hq] at h
    · exact .inl ⟨rfl, (tryAcquire_error hq).2⟩
    · obtain ⟨rfl, -⟩ | ⟨rfl, -⟩ := tryAcquire_ok hq <;> cases h
  | wait =>
    simp only [burstStep] at h
    obtain ⟨e, -⟩ | e | e := waitAcquire_cases a c p <;> rw [e] at h <;> cases h
  | more => simp only [burstStep] at h; split at h <;> cases h
  | read =>
    simp only [burstStep] at h
    cases hq : p.readByte a with
    | mk r p1 => rw [hq] at h; cases g <;> cases r <;> cases h
  | releaseByte r =>
    simp only [burstStep] at h
    rcases hq : p.release a with f' | p1 <;> rw [hq] at h
    · exact .inr ⟨rfl, (release_error hq).2⟩
    · cases r <;> cases h
  | releaseAll =>
    simp only [burstStep] at h
    rcases hq : p.release a with f' | p1 <;> rw [hq] at h
    · exact .inr ⟨rfl, (release_error hq).2⟩
    · cases h

/-! ## Failing and accepting -/

/-- `raise` finishes the operation with `ok = 0` and leaves the port but for the sequencer's own lock. -/
theorem raise_eq (k : Nat) (e : ErrCode) (r : Sequencer) (p : Port) (s : State) :
    s.raise k e r p = .next (s.put k (r.finish false e)
      { p with lockOwner := if p.lockOwner = some (.sequencer k) then none else p.lockOwner }) := by
  unfold State.raise
  split <;> rfl

/-- A read goes on only with the register's value (R38). -/
theorem readWritten_next {α : Type} {v : Option α} {use : α → Answer} {t : State} (h : readWritten v use = .next t) :
    ∃ a, v = some a ∧ use a = .next t := by
  cases v with
  | none => cases h
  | some a => exact ⟨a, rfl, h⟩

@[simp] theorem readWritten_some {α : Type} (a : α) (use : α → Answer) : readWritten (some a) use = use a := rfl

@[simp] theorem readWritten_none {α : Type} (use : α → Answer) : readWritten none use = .fault .readUnwritten := rfl

/-- A request is accepted only on an IDLE sequencer, which then has no fresh result register. -/
theorem accept_idle {s : State} {r : Sequencer} (run : Nat → Sequencer → Answer) (hr : s.seqs[s.cur]? = some r)
    (hi : r.seq = .idle) : s.accept run = run s.cur { r with fresh := [] } := by
  simp [State.accept, hr, hi]

theorem accept_next {s t : State} {run : Nat → Sequencer → Answer} (h : s.accept run = .next t) :
    ∃ r, s.seqs[s.cur]? = some r ∧ r.seq = .idle ∧ run s.cur { r with fresh := [] } = .next t := by
  unfold State.accept at h
  split at h
  · cases h
  · rename_i r hr
    split at h
    · cases h
    · rename_i hi; exact ⟨r, hr, hi, h⟩

/-! ## Operand reads -/

theorem inRange_iff (lo hi x : Nat) : inRange lo hi x = true ↔ lo ≤ x ∧ x ≤ hi := by
  simp [inRange]

/-- The channel check (R112, R120). -/
theorem channel_inRange_iff (ch : Byte) : inRange 0 chanMax ch.toNat = true ↔ ch.toNat ≤ 30 := by
  simp [inRange_iff, chanMax]

/-- `Encode` has its operands exactly where the fields it reads are written. -/
theorem encodeFields_isSome (c : ConfigurationRecord) : (encodeFields c).isSome = c.encodeWritten := by
  rcases c with ⟨o1, o2, o3, o4, o5, o6, o7, o8, o9, o10, o11, o12, -, -⟩
  cases o1 <;> try rfl
  cases o2 <;> try rfl
  cases o3 <;> try rfl
  cases o4 <;> try rfl
  cases o5 <;> try rfl
  cases o6 <;> try rfl
  cases o7 <;> try rfl
  cases o8 <;> try rfl
  cases o9 <;> try rfl
  cases o10 <;> try rfl
  cases o11 <;> try rfl
  cases o12 <;> rfl

/-- The channel `Encode` packs is the record's own_channel. -/
theorem encodeFields_ownChannel {c : ConfigurationRecord} {e : EncodeFields} (h : encodeFields c = some e) :
    c.ownChannel = some e.ownChannel := by
  simp only [encodeFields, Option.bind_eq_bind, Option.bind_eq_some_iff] at h
  obtain ⟨_, -, _, -, _, -, _, -, _, -, _, -, ch, hch, _, -, _, -, _, -, _, -, _, -, h⟩ := h
  cases h
  exact hch

/-! ## Steps and scripts -/

/-- A step with a move in the script is that move. -/
theorem step_script {s : State} {m : Move} {rest : List Move} (h : s.script = m :: rest) :
    step s = applyMove m { s with script := rest } := by
  simp [step, State.nextMove, h]

/-- One move of a run: a step whose script begins with `m` goes on from what `m` does. -/
theorem run_move {s t : State} {m : Move} {rest : List Move} (n : Nat) (hs : s.script = m :: rest)
    (h : applyMove m { s with script := rest } = .next t) :
    Host.Core.run Sys2Proof.core (n + 1) s = Host.Core.run Sys2Proof.core n t := by
  have hstep : Sys2Proof.core.step s = .next t := (step_script hs).trans h
  simp only [Host.Core.run, hstep]

end Sys2Proof.Machine
end

