-- ==== Sys2Proof/Laws/PerInstr.lean ====
section
/-! SUPPORT. One statement about every instruction as syntax: its op code of R81, and the request that asks for it. -/

namespace Sys2Proof.Laws.OpField

/-- The payload bytes an instruction carries after the fixed fields. -/
def payloadOf : Instr → List Byte
  | .validate _ => []
  | .encode _ => []
  | .apply _ => []
  | .receive => []
  | .send _ payload => payload
  | .illegal101 => []
  | .illegal11x _ => []

/-- The request of an instruction carries its op code and decodes to the instruction, and its image is the 12 bytes of
the fixed fields and the payload. -/
def Statement (i : Instr) : Prop :=
  (requestOf i).op = i.opCode ∧ decodeRequest (requestOf i) = i ∧ (encode i).length = 12 + (payloadOf i).length

theorem leBytes_length (n w : Nat) : (leBytes n w).length = n := by
  induction n generalizing w with
  | zero => rfl
  | succ n ih => simp [leBytes, ih]

theorem requestBytes_length (q : Request) : (requestBytes q).length = 12 + q.payload.length := by
  simp [requestBytes, leBytes_length]

theorem validate (v : Byte) : Statement (.validate v) := ⟨rfl, rfl, requestBytes_length _⟩

theorem encode (cfg : ConfigurationRecord) : Statement (.encode cfg) := ⟨rfl, rfl, requestBytes_length _⟩

theorem apply (cfg : ConfigurationRecord) : Statement (.apply cfg) := ⟨rfl, rfl, requestBytes_length _⟩

theorem receive : Statement .receive := ⟨rfl, rfl, requestBytes_length _⟩

theorem send (cfg : ConfigurationRecord) (payload : List Byte) : Statement (.send cfg payload) :=
  ⟨rfl, rfl, requestBytes_length _⟩

theorem illegal101 : Statement .illegal101 := ⟨rfl, rfl, requestBytes_length _⟩

theorem illegal11x (x : BitVec 1) : Statement (.illegal11x x) := by
  refine ⟨rfl, ?_, requestBytes_length _⟩
  revert x
  decide

end Sys2Proof.Laws.OpField
end

