-- ==== Sys2Proof/Laws/Resume.lean ====
section
/-! SUPPORT. Everything a step of a running operation can do, once for each operation, and everything the step that
accepts a request can do. Frames and invariants are read off these. -/

namespace Sys2Proof.Machine

/-- The port without sequencer `k`'s lock, as `raise` leaves it. -/
abbrev unlockedBy (k : Nat) (p : Port) : Port :=
  { p with lockOwner := if p.lockOwner = some (.sequencer k) then none else p.lockOwner }

/-- What a step of a running APPLY leaves in its registers and in the port. -/
theorem applyResume_next {k : Nat} {c : LockChoice} {q : ApplyPoint} {r : Sequencer} {s t : State}
    (h : applyResume k c q r s = .next t) :
    ∃ r' p', t = s.put k r' p' ∧
      ((∃ x x', q = .a2 x ∧ txStep (.sequencer k) c (r.cmd.map Vector.toList) x s.port = .ok (.goto x', p') ∧
          r' = r.restAt (.apply (.a2 x'))) ∨
       (∃ x, q = .a2 x ∧ txStep (.sequencer k) c (r.cmd.map Vector.toList) x s.port = .ok (.sent, p') ∧
          r' = r.restAt (.apply .a2Release)) ∨
       (∃ x p1, q = .a2 x ∧ txStep (.sequencer k) c (r.cmd.map Vector.toList) x s.port = .ok (.timeout, p1) ∧
          p' = unlockedBy k p1 ∧ r' = r.finish false .channelBusy) ∨
       (q = .a2Release ∧ s.port.lockOwner = some (.sequencer k) ∧ p' = { s.port with lockOwner := none } ∧
          r' = { r with respCnt := some 0, fresh := .respCnt :: r.fresh }.restAt (.apply .a3Delay)) ∨
       (q = .a3Delay ∧ p' = s.port ∧ r' = r.restAt (.apply (.a4 .first))) ∨
       (∃ b b', q = .a4 b ∧ burstStep s.params.granularity (.sequencer k) c b s.port = .ok (.goto b', p') ∧
          r' = r.restAt (.apply (.a4 b'))) ∨
       (∃ b v b' n, q = .a4 b ∧ burstStep s.params.granularity (.sequencer k) c b s.port = .ok (.byte v b', p') ∧
          r.respCnt = some n ∧ r' = { r with respCnt := some (satSucc n) }.restAt (.apply (.a4 b'))) ∨
       (∃ b n, q = .a4 b ∧ burstStep s.params.granularity (.sequencer k) c b s.port = .ok (.done, p') ∧
          r.respCnt = some n ∧ n.toNat = cmdLen ∧ r' = r.finish true .none) ∨
       (∃ b n p1, q = .a4 b ∧ burstStep s.params.granularity (.sequencer k) c b s.port = .ok (.done, p1) ∧
          r.respCnt = some n ∧ n.toNat ≠ cmdLen ∧ p' = unlockedBy k p1 ∧ r' = r.finish false .echoMismatch) ∨
       (∃ b p1, q = .a4 b ∧ burstStep s.params.granularity (.sequencer k) c b s.port = .ok (.timeout, p1) ∧
          p' = unlockedBy k p1 ∧ r' = r.finish false .channelBusy)) := by
  cases q with
  | a2 x =>
    simp only [applyResume] at h
    split at h <;> rename_i e
    · cases h
    · cases h; exact ⟨_, _, rfl, .inl ⟨x, _, rfl, e, rfl⟩⟩
    · cases h; exact ⟨_, _, rfl, .inr (.inl ⟨x, rfl, e, rfl⟩)⟩
    · rw [raise_eq] at h; cases h; exact ⟨_, _, rfl, .inr (.inr (.inl ⟨x, _, rfl, e, rfl, rfl⟩))⟩
  | a2Release =>
    simp only [applyResume] at h
    split at h <;> rename_i e
    · cases h
    · obtain ⟨ho, rfl⟩ := release_ok e
      cases h
      exact ⟨_, _, rfl, .inr (.inr (.inr (.inl ⟨rfl, ho, rfl, rfl⟩)))⟩
  | a3Delay => cases h; exact ⟨_, _, rfl, .inr (.inr (.inr (.inr (.inl ⟨rfl, rfl, rfl⟩))))⟩
  | a4 b =>
    simp only [applyResume] at h
    split at h <;> rename_i e
    · cases h
    · cases h; exact ⟨_, _, rfl, .inr (.inr (.inr (.inr (.inr (.inl ⟨b, _, rfl, e, rfl⟩)))))⟩
    · obtain ⟨n, hn, h⟩ := readWritten_next h
      cases h
      exact ⟨_, _, rfl, .inr (.inr (.inr (.inr (.inr (.inr (.inl ⟨b, _, _, _, rfl, e, hn, rfl⟩))))))⟩
    · obtain ⟨n, hn, h⟩ := readWritten_next h
      split at h <;> rename_i hc
      · cases h
        exact ⟨_, _, rfl, .inr (.inr (.inr (.inr (.inr (.inr (.inr (.inl ⟨b, _, rfl, e, hn, hc, rfl⟩)))))))⟩
      · rw [raise_eq] at h; cases h
        exact ⟨_, _, rfl,
          .inr (.inr (.inr (.inr (.inr (.inr (.inr (.inr (.inl ⟨b, _, _, rfl, e, hn, hc, rfl, rfl⟩))))))))⟩
    · rw [raise_eq] at h; cases h
      exact ⟨_, _, rfl, .inr (.inr (.inr (.inr (.inr (.inr (.inr (.inr (.inr ⟨b, _, rfl, e, rfl, rfl⟩))))))))⟩

/-- What `on_byte` of X2 leaves (R143). -/
theorem receiveByte_next {k : Nat} {b : Byte} {nxt : Burst} {r : Sequencer} {p : Port} {s t : State}
    (h : receiveByte k b nxt r p s = .next t) :
    ∃ n r' p', r.accLen = some n ∧ t = s.put k r' p' ∧
      ((200 ≤ n.toNat ∧ p.lockOwner = some (.sequencer k) ∧ p' = p ∧
          r' = { r with accLen := some (n + 1), rxState := .overflow }.restAt (.receive .x2Overflow)) ∨
       (200 ≤ n.toNat ∧ p.lockOwner ≠ some (.sequencer k) ∧ p' = p ∧
          r' = { r with accLen := some (n + 1), rxState := .overflow }.finish false .frameTooLarge) ∨
       (∃ (hn : n.toNat < 200) (buf : Vector Byte 200), r.rxBuf = some buf ∧ p' = p ∧
          r' = { r with accLen := some (n + 1), rxBuf := some (buf.set n.toNat b hn) }.restAt (.receive (.x2 nxt)))) := by
  obtain ⟨n, hn, h⟩ := readWritten_next h
  split at h <;> rename_i hlt <;> simp only [rxMax] at hlt
  · split at h <;> rename_i ho
    · cases h
      exact ⟨n, _, _, hn, rfl, .inl ⟨by omega, ho, rfl, rfl⟩⟩
    · rw [raise_eq] at h; cases h
      exact ⟨n, _, _, hn, rfl, .inr (.inl ⟨by omega, ho, by simp [ho], rfl⟩)⟩
  · obtain ⟨buf, hb, h⟩ := readWritten_next h
    cases h
    exact ⟨n, _, _, hn, rfl, .inr (.inr ⟨by omega, buf, hb, rfl, rfl⟩)⟩

/-- What a step of a running RECEIVE leaves in its registers and in the port. -/
theorem receiveResume_next {k : Nat} {c : LockChoice} {q : ReceivePoint} {r : Sequencer} {s t : State}
    (h : receiveResume k c q r s = .next t) :
    ∃ r' p', t = s.put k r' p' ∧
      ((q = .x1Avail ∧ s.port.rxQ = [] ∧ p' = s.port ∧ r' = r.restAt (.receive .x1Delay)) ∨
       ((q = .x1Avail ∨ q = .x3Avail) ∧ s.port.rxQ ≠ [] ∧ p' = s.port ∧
          r' = { r with rxState := .draining }.restAt (.receive (.x2 .first))) ∨
       (q = .x1Delay ∧ p' = s.port ∧ r' = r.restAt (.receive .x1Avail)) ∨
       (∃ b b', q = .x2 b ∧ burstStep s.params.granularity (.sequencer k) c b s.port = .ok (.goto b', p') ∧
          r' = r.restAt (.receive (.x2 b'))) ∨
       (∃ b v b' p1, q = .x2 b ∧ burstStep s.params.granularity (.sequencer k) c b s.port = .ok (.byte v b', p1) ∧
          receiveByte k v b' r p1 s = .next (s.put k r' p')) ∨
       (∃ b, q = .x2 b ∧ burstStep s.params.granularity (.sequencer k) c b s.port = .ok (.done, p') ∧
          r.accLen = some 0 ∧ r' = { r with rxState := .idle }.restAt (.receive .x1Avail)) ∨
       (∃ b n, q = .x2 b ∧ burstStep s.params.granularity (.sequencer k) c b s.port = .ok (.done, p') ∧
          r.accLen = some n ∧ n ≠ 0 ∧ r' = { r with rxState := .settling }.restAt (.receive .x3Delay)) ∨
       (∃ b p1, q = .x2 b ∧ burstStep s.params.granularity (.sequencer k) c b s.port = .ok (.timeout, p1) ∧
          p' = unlockedBy k p1 ∧ r' = r.finish false .channelBusy) ∨
       (q = .x2Overflow ∧ p' = unlockedBy k s.port ∧ r' = r.finish false .frameTooLarge) ∨
       (q = .x3Delay ∧ p' = s.port ∧ r' = r.restAt (.receive .x3Avail)) ∨
       (q = .x3Avail ∧ s.port.rxQ = [] ∧ p' = s.port ∧ ∃ n buf b, r.accLen = some n ∧ r.rxBuf = some buf ∧
          buf[(n - 1).toNat]? = some b ∧
          r' = { r with rxState := .done, rxLen := some (n - 1), rxRssi := some (rssiOf b),
                        fresh := .rxLen :: .rxRssi :: r.fresh }.finish true .none)) := by
  cases q with
  | x1Avail =>
    simp only [receiveResume, Port.avail, List.length_eq_zero_iff] at h
    split at h <;> rename_i hq <;> cases h
    · exact ⟨_, _, rfl, .inl ⟨rfl, hq, rfl, rfl⟩⟩
    · exact ⟨_, _, rfl, .inr (.inl ⟨.inl rfl, hq, rfl, rfl⟩)⟩
  | x1Delay => cases h; exact ⟨_, _, rfl, .inr (.inr (.inl ⟨rfl, rfl, rfl⟩))⟩
  | x2 b =>
    simp only [receiveResume] at h
    split at h <;> rename_i e
    · cases h
    · cases h; exact ⟨_, _, rfl, .inr (.inr (.inr (.inl ⟨b, _, rfl, e, rfl⟩)))⟩
    · obtain ⟨_, r', p', -, rfl, -⟩ := receiveByte_next h
      exact ⟨r', p', rfl, .inr (.inr (.inr (.inr (.inl ⟨b, _, _, _, rfl, e, h⟩))))⟩
    · obtain ⟨n, hn, h⟩ := readWritten_next h
      split at h <;> rename_i hz <;> cases h
      · exact ⟨_, _, rfl, .inr (.inr (.inr (.inr (.inr (.inl ⟨b, rfl, e, hz ▸ hn, rfl⟩)))))⟩
      · exact ⟨_, _, rfl, .inr (.inr (.inr (.inr (.inr (.inr (.inl ⟨b, _, rfl, e, hn, hz, rfl⟩))))))⟩
    · rw [raise_eq] at h; cases h
      exact ⟨_, _, rfl, .inr (.inr (.inr (.inr (.inr (.inr (.inr (.inl ⟨b, _, rfl, e, rfl, rfl⟩)))))))⟩
  | x2Overflow =>
    simp only [receiveResume, raise_eq] at h
    cases h
    exact ⟨_, _, rfl, .inr (.inr (.inr (.inr (.inr (.inr (.inr (.inr (.inl ⟨rfl, rfl, rfl⟩))))))))⟩
  | x3Delay =>
    cases h
    exact ⟨_, _, rfl, .inr (.inr (.inr (.inr (.inr (.inr (.inr (.inr (.inr (.inl ⟨rfl, rfl, rfl⟩)))))))))⟩
  | x3Avail =>
    simp only [receiveResume, Port.avail, List.length_eq_zero_iff] at h
    split at h <;> rename_i hq
    · obtain ⟨n, hn, h⟩ := readWritten_next h
      obtain ⟨buf, hb, h⟩ := readWritten_next h
      obtain ⟨b, e, h⟩ := readWritten_next h
      cases h
      exact ⟨_, _, rfl, .inr (.inr (.inr (.inr (.inr (.inr (.inr (.inr (.inr (.inr
        ⟨rfl, hq, rfl, n, buf, _, hn, hb, e, rfl⟩)))))))))⟩
    · cases h
      exact ⟨_, _, rfl, .inr (.inl ⟨.inr rfl, hq, rfl, rfl⟩)⟩

/-- What a step of a running SEND leaves in its registers and in the port. -/
theorem sendResume_next {k : Nat} {c : LockChoice} {q : SendPoint} {r : Sequencer} {s t : State}
    (h : sendResume k c q r s = .next t) :
    ∃ r' p', t = s.put k r' p' ∧
      ((∃ x x', q = .s3 x ∧ txStep (.sequencer k) c r.txFrame x s.port = .ok (.goto x', p') ∧
          r' = r.restAt (.send (.s3 x'))) ∨
       (∃ x, q = .s3 x ∧ txStep (.sequencer k) c r.txFrame x s.port = .ok (.sent, p') ∧
          r' = r.restAt (.send .s4Delay)) ∨
       (∃ x p1, q = .s3 x ∧ txStep (.sequencer k) c r.txFrame x s.port = .ok (.timeout, p1) ∧
          p' = unlockedBy k p1 ∧ r' = r.finish false .channelBusy) ∨
       (∃ q', q ≠ .s5Read ∧ q ≠ .s5Release ∧ (∀ x, q ≠ .s3 x) ∧ (∀ x, q' ≠ .s3 x) ∧ p' = s.port ∧
          r' = r.restAt (.send q')) ∨
       (q = .s5Read ∧ s.port.rxQ = [] ∧ p' = s.port ∧ r' = r.restAt (.send .s5More)) ∨
       (∃ b rest, q = .s5Read ∧ s.port.rxQ = b :: rest ∧
          p' = { s.port with rxQ := rest, history := s.port.history ++ [.rd (.sequencer k) b] } ∧
          r' = r.restAt (.send .s5More)) ∨
       (q = .s5Release ∧ s.port.lockOwner = some (.sequencer k) ∧ p' = { s.port with lockOwner := none } ∧
          r' = r.finish true .none)) := by
  cases q with
  | s3 x =>
    simp only [sendResume] at h
    split at h <;> rename_i e
    · cases h
    · cases h; exact ⟨_, _, rfl, .inl ⟨x, _, rfl, e, rfl⟩⟩
    · cases h; exact ⟨_, _, rfl, .inr (.inl ⟨x, rfl, e, rfl⟩)⟩
    · rw [raise_eq] at h; cases h; exact ⟨_, _, rfl, .inr (.inr (.inl ⟨x, _, rfl, e, rfl, rfl⟩))⟩
  | s4Delay => cases h; exact ⟨_, _, rfl, .inr (.inr (.inr (.inl ⟨_, by simp, by simp, by simp, by simp, rfl, rfl⟩)))⟩
  | s5Avail =>
    simp only [sendResume] at h
    split at h <;> cases h <;>
      exact ⟨_, _, rfl, .inr (.inr (.inr (.inl ⟨_, by simp, by simp, by simp, by simp, rfl, rfl⟩)))⟩
  | s5More =>
    simp only [sendResume] at h
    split at h <;> cases h <;>
      exact ⟨_, _, rfl, .inr (.inr (.inr (.inl ⟨_, by simp, by simp, by simp, by simp, rfl, rfl⟩)))⟩
  | s5Gap => cases h; exact ⟨_, _, rfl, .inr (.inr (.inr (.inl ⟨_, by simp, by simp, by simp, by simp, rfl, rfl⟩)))⟩
  | s5Read =>
    cases hq : s.port.rxQ with
    | nil =>
      simp only [sendResume, readByte_empty _ _ hq] at h
      cases h
      exact ⟨_, _, rfl, .inr (.inr (.inr (.inr (.inl ⟨rfl, rfl, rfl, rfl⟩))))⟩
    | cons b rest =>
      simp only [sendResume, readByte_cons _ _ _ _ hq] at h
      cases h
      exact ⟨_, _, rfl, .inr (.inr (.inr (.inr (.inr (.inl ⟨b, rest, rfl, rfl, rfl, rfl⟩)))))⟩
  | s5Release =>
    simp only [sendResume] at h
    split at h <;> rename_i e
    · cases h
    · obtain ⟨ho, rfl⟩ := release_ok e
      cases h
      exact ⟨_, _, rfl, .inr (.inr (.inr (.inr (.inr (.inr ⟨rfl, ho, rfl, rfl⟩)))))⟩

/-- What the step that accepts a request leaves: new registers in the sequencer `s.cur`, and the port as it was. -/
theorem exec_next {i : Instr} {s t : State} (h : exec i s = .next t) :
    ∃ r r', s.seqs[s.cur]? = some r ∧ r.seq = .idle ∧ t = s.put s.cur r' s.port ∧
      ((∃ v, i = .validate v ∧
          r' = { r with chanOk := some (inRange 0 chanMax v.toNat), fresh := [.chanOk] }.finish true .none) ∨
       (∃ cfg e, i = .encode cfg ∧ encodeFields cfg = some e ∧
          r' = { r with cfg := cfg, cmd := some (commandFrame e), fresh := [.cmd] }.finish true .none) ∨
       (∃ cfg e, i = .apply cfg ∧ encodeFields cfg = some e ∧ e.ownChannel.toNat ≤ 30 ∧
          r' = { r with cfg := cfg, cmd := some (commandFrame e), fresh := [.cmd] }.restAt (.apply (.a2 .acquire))) ∨
       (∃ cfg ch, i = .apply cfg ∧ cfg.ownChannel = some ch ∧ 30 < ch.toNat ∧
          r' = { r with cfg := cfg, fresh := [] }.finish false .invalidConfig) ∨
       (i = .receive ∧
          r' = { r with rxBuf := some (Vector.replicate 200 0), accLen := some 0, rxLen := none, rxRssi := none,
                        rxState := .idle, fresh := [.rxBuf, .accLen, .rxState] }.restAt (.receive .x1Avail)) ∨
       (∃ cfg payload sp, i = .send cfg payload ∧ cfg.subpacketSize = some sp ∧
          (maxPayOf sp.toNat).toNat < payload.length ∧
          r' = { r with cfg := cfg, maxPay := some (maxPayOf sp.toNat), fresh := [.maxPay] }.finish false
                 .payloadTooLarge) ∨
       (∃ cfg payload sp addr ch, i = .send cfg payload ∧ cfg.subpacketSize = some sp ∧
          cfg.targetAddress = some addr ∧ cfg.targetChannel = some ch ∧
          payload.length ≤ (maxPayOf sp.toNat).toNat ∧
          r' = { r with cfg := cfg, maxPay := some (maxPayOf sp.toNat),
                        txFrame := some (outboundFrame addr ch payload), fresh := [.txFrame, .maxPay] }.restAt
                 (.send (.s3 .acquire))) ∨
       ((i = .illegal101 ∨ ∃ x, i = .illegal11x x) ∧ r' = { r with fresh := [] }.finish false .illegalOp)) := by
  cases i with
  | validate v =>
    simp only [exec, execValidate] at h
    obtain ⟨r, hr, hi, h⟩ := accept_next h
    simp only at h
    cases h
    exact ⟨r, _, hr, hi, rfl, .inl ⟨v, rfl, rfl⟩⟩
  | encode cfg =>
    simp only [exec, execEncode] at h
    obtain ⟨r, hr, hi, h⟩ := accept_next h
    simp only at h
    obtain ⟨e, he, h⟩ := readWritten_next h
    cases h
    exact ⟨r, _, hr, hi, rfl, .inr (.inl ⟨cfg, _, rfl, he, rfl⟩)⟩
  | apply cfg =>
    simp only [exec, execApply] at h
    obtain ⟨r, hr, hi, h⟩ := accept_next h
    simp only at h
    obtain ⟨ch, hch, h⟩ := readWritten_next h
    split at h <;> rename_i hrange
    · rw [channel_inRange_iff] at hrange
      obtain ⟨e, he, h⟩ := readWritten_next h
      cases h
      have := encodeFields_ownChannel he
      rw [hch] at this
      cases this
      exact ⟨r, _, hr, hi, rfl, .inr (.inr (.inl ⟨cfg, _, rfl, he, hrange, rfl⟩))⟩
    · rw [channel_inRange_iff, Nat.not_le] at hrange
      cases h
      exact ⟨r, _, hr, hi, rfl, .inr (.inr (.inr (.inl ⟨cfg, _, rfl, hch, hrange, rfl⟩)))⟩
  | receive =>
    simp only [exec, execReceive] at h
    obtain ⟨r, hr, hi, h⟩ := accept_next h
    simp only at h
    cases h
    exact ⟨r, _, hr, hi, rfl, .inr (.inr (.inr (.inr (.inl ⟨rfl, rfl⟩))))⟩
  | send cfg payload =>
    simp only [exec, execSend] at h
    obtain ⟨r, hr, hi, h⟩ := accept_next h
    simp only at h
    obtain ⟨sp, hsp, h⟩ := readWritten_next h
    split at h <;> rename_i hl
    · cases h
      exact ⟨r, _, hr, hi, rfl, .inr (.inr (.inr (.inr (.inr (.inl ⟨cfg, payload, _, rfl, hsp, hl, rfl⟩)))))⟩
    · obtain ⟨addr, ha, h⟩ := readWritten_next h
      obtain ⟨ch, hc, h⟩ := readWritten_next h
      cases h
      exact ⟨r, _, hr, hi, rfl, .inr (.inr (.inr (.inr (.inr (.inr (.inl
        ⟨cfg, payload, _, _, _, rfl, hsp, ha, hc, Nat.not_lt.mp hl, rfl⟩))))))⟩
  | illegal101 =>
    simp only [exec, execIllegal101] at h
    obtain ⟨r, hr, hi, h⟩ := accept_next h
    cases h
    exact ⟨r, _, hr, hi, rfl, .inr (.inr (.inr (.inr (.inr (.inr (.inr ⟨.inl rfl, rfl⟩))))))⟩
  | illegal11x x =>
    simp only [exec, execIllegal11x] at h
    obtain ⟨r, hr, hi, h⟩ := accept_next h
    cases h
    exact ⟨r, _, hr, hi, rfl, .inr (.inr (.inr (.inr (.inr (.inr (.inr ⟨.inr ⟨x, rfl⟩, rfl⟩))))))⟩

/-- Sequencer `k`'s step: it is absent, or has nothing to do, or accepts the oldest request it holds, or goes on with its
operation. -/
theorem advance_next {k : Nat} {c : LockChoice} {s t : State} (h : advance k c s = .next t) :
    t = s ∨
    (∃ r q qs, s.seqs[k]? = some r ∧ r.seq = .idle ∧ r.held = q :: qs ∧
      exec (decodeRequest q) { s with seqs := s.seqs.set k { r with held := qs }, cur := k } = .next t) ∨
    (∃ r q, s.seqs[k]? = some r ∧ r.seq = .busy q ∧ resume k c q r s = .next t) := by
  unfold advance at h
  split at h
  · cases h; exact .inl rfl
  · rename_i r hr
    split at h
    · rename_i q hq; exact .inr (.inr ⟨r, q, hr, hq, h⟩)
    · rename_i hi
      split at h
      · cases h; exact .inl rfl
      · rename_i q qs hh; exact .inr (.inl ⟨r, q, qs, hr, hi, hh, h⟩)

/-- A running operation's step is its `resume`. -/
theorem advance_busy {k : Nat} {s : State} {r : Sequencer} {q : Point} (c : LockChoice) (hr : s.seqs[k]? = some r)
    (hq : r.seq = .busy q) : advance k c s = resume k c q r s := by
  simp [advance, hr, hq]

end Sys2Proof.Machine
end

