-- ==== Sys2Proof/Laws/Runs.lean ====
section
/-! SUPPORT. Runs through a list of moves: no move looks at the script, so a run through one list and then another is
the run through their concatenation. -/

namespace Sys2Proof.Machine

/-- An answer with its state's script replaced. -/
def withScript (x : List Move) (a : Answer) : Answer :=
  match a with
  | .next t => .next { t with script := x }
  | .fault f => .fault f
  | .refused f => .refused f

/-- `exec` neither reads nor writes the script. -/
theorem exec_script (i : Instr) (s : State) (x : List Move) :
    exec i { s with script := x } = withScript x (exec i s) := by
  cases i <;>
    simp only [exec, execValidate, execEncode, execApply, execReceive, execSend, execIllegal101, execIllegal11x,
      State.accept, readWritten] <;>
    cases s.seqs[s.cur]? with
    | none => rfl
    | some r =>
      cases hr : r.seq <;> simp only [hr] <;> (repeat' split) <;> rfl

/-- Ending an operation neither reads nor writes the script. -/
theorem raise_script (k : Nat) (e : ErrCode) (r : Sequencer) (p : Port) (s : State) (x : List Move) :
    State.raise k e r p { s with script := x } = withScript x (s.raise k e r p) := by
  unfold State.raise; split <;> rfl

/-- A running operation neither reads nor writes the script. -/
theorem resume_script (k : Nat) (c : LockChoice) (q : Point) (r : Sequencer) (s : State) (x : List Move) :
    resume k c q r { s with script := x } = withScript x (resume k c q r s) := by
  rcases q with q | q | q
  · simp only [resume]
    cases q <;> simp only [applyResume, applyCheck, readWritten] <;> (repeat' split) <;>
      first | rfl | exact raise_script ..
  · simp only [resume]
    cases q <;> simp only [receiveResume, receiveByte, receiveBurstDone, receiveDone, readWritten] <;>
      (repeat' split) <;> first | rfl | exact raise_script ..
  · simp only [resume]
    cases q <;> simp only [sendResume] <;> (repeat' split) <;> first | rfl | exact raise_script ..

/-- A sequencer's next step neither reads nor writes the script. -/
theorem advance_script (k : Nat) (c : LockChoice) (s : State) (x : List Move) :
    advance k c { s with script := x } = withScript x (advance k c s) := by
  simp only [advance]
  cases s.seqs[k]? with
  | none => rfl
  | some r =>
    obtain ⟨seq, _, _, _, _, _, _, _, _, _, _, _, _, _, held, _⟩ := r
    cases seq with
    | busy q => exact resume_script k c q _ s x
    | idle =>
      cases held with
      | nil => rfl
      | cons q rest => exact exec_script (decodeRequest q) { s with seqs := _, cur := k } x

/-- No move but a reset reads or writes the script, and a reset hands it on. -/
theorem applyMove_script (m : Move) (s : State) (x : List Move) :
    applyMove m { s with script := x } = withScript x (applyMove m s) := by
  cases m with
  | advance k c => exact advance_script k c s x
  | present k q => simp only [applyMove, present]; split <;> rfl
  | hostRead k o => simp only [applyMove, hostRead, readWritten]; (repeat' split) <;> rfl
  | arrive b => rfl
  | transmit => rfl
  | env a act => cases act <;> simp only [applyMove, envAct] <;> (repeat' split) <;> rfl
  | reset rx =>
    simp only [applyMove, resetMove]
    by_cases h : s.allIdle = true
    · have h' : State.allIdle { s with script := x } = true := h
      rw [if_pos h, if_pos h']; rfl
    · have h' : ¬ State.allIdle { s with script := x } = true := h
      rw [if_neg h, if_neg h']; rfl

/-- A run through no moves. -/
theorem runMoves_nil (s : State) : runMoves [] s = .next s := rfl

/-- A run goes on from what its first move does. -/
theorem runMoves_cons {m : Move} {s t : State} (ms : List Move) (h : applyMove m s = .next t) :
    runMoves (m :: ms) s = runMoves ms { t with script := s.script } := by
  have h' : applyMove m { s with script := ms ++ s.script } = .next { t with script := ms ++ s.script } := by
    rw [applyMove_script, h]; rfl
  exact run_move (s := { s with script := m :: ms ++ s.script }) ms.length rfl h'

/-- A run that reaches a state through one list of moves goes on from it through the next list. -/
theorem runMoves_append {ms ms' : List Move} {s t : State} (h : runMoves ms s = .next t) :
    runMoves (ms ++ ms') s = runMoves ms' { t with script := s.script } := by
  induction ms generalizing s with
  | nil => cases h; rfl
  | cons m ms ih =>
    cases ha : applyMove m s with
    | next u =>
      rw [runMoves_cons ms ha] at h
      rw [List.cons_append, runMoves_cons _ ha]
      exact ih h
    | fault f =>
      have h' : Sys2Proof.core.step { s with script := m :: ms ++ s.script } = .fault f := by
        refine (step_script rfl).trans ?_
        show applyMove m { s with script := ms ++ s.script } = _
        rw [applyMove_script, ha]; rfl
      simp only [runMoves, List.length_cons, Host.Core.run, h'] at h
      cases h
    | refused f =>
      have h' : Sys2Proof.core.step { s with script := m :: ms ++ s.script } = .refused f := by
        refine (step_script rfl).trans ?_
        show applyMove m { s with script := ms ++ s.script } = _
        rw [applyMove_script, ha]; rfl
      simp only [runMoves, List.length_cons, Host.Core.run, h'] at h
      cases h

/-- Two runs, one after the other. -/
theorem runMoves_trans {ms ms' : List Move} {s t : State} (h : runMoves ms s = .next t)
    (hs : t.script = s.script) : runMoves (ms ++ ms') s = runMoves ms' t := by
  rw [runMoves_append h, ← hs]

/-- The transmitter sends what is queued (R70). -/
theorem runMoves_transmits {n : Nat} {s : State} (h : s.port.txQ.length = n) :
    runMoves (transmits n) s =
      .next { s with port := { s.port with txQ := [], wireOut := s.port.wireOut ++ s.port.txQ } } := by
  induction n generalizing s with
  | zero =>
    have h0 : s.port.txQ = [] := List.length_eq_zero_iff.mp h
    obtain ⟨_, ⟨_, _, q, w, _⟩, _⟩ := s
    simp only at h0
    subst h0
    simp [transmits, runMoves_nil]
  | succ n ih =>
    obtain ⟨seqs, ⟨l, rx, q, w, hi⟩, pa, cu, sc, tu⟩ := s
    cases q with
    | nil => cases h
    | cons b rest =>
      have h1 : applyMove .transmit ⟨seqs, ⟨l, rx, b :: rest, w, hi⟩, pa, cu, sc, tu⟩ =
          .next ⟨seqs, ⟨l, rx, rest, w ++ [b], hi⟩, pa, cu, sc, tu⟩ := rfl
      rw [transmits, List.replicate_succ, runMoves_cons _ h1]
      refine (ih (s := ⟨seqs, ⟨l, rx, rest, w ++ [b], hi⟩, pa, cu, sc, tu⟩) (Nat.succ.inj h)).trans ?_
      simp

/-- Bytes arrive while there is room for all of them (R70, D33). -/
theorem runMoves_arrivals {bs : List Byte} {s : State}
    (h : ∀ n, s.params.rxFifoCap = some n → s.port.rxQ.length + bs.length ≤ n) :
    runMoves (arrivals bs) s =
      .next { s with port := { s.port with rxQ := s.port.rxQ ++ bs,
                                           history := s.port.history ++ bs.map .arr } } := by
  induction bs generalizing s with
  | nil => simp [arrivals, runMoves_nil]
  | cons b bs ih =>
    have h1 : applyMove (.arrive b) s =
        .next { s with port := { s.port with rxQ := s.port.rxQ ++ [b], history := s.port.history ++ [.arr b] } } := by
      simp only [applyMove, Port.arrive]
      split
      · rename_i n hn
        have := h n hn
        rw [if_pos (by simp at this; omega)]
      · rfl
    rw [arrivals, List.map_cons, runMoves_cons _ h1]
    refine (ih ?_).trans ?_
    · intro n hn
      have := h n hn
      simp at this ⊢
      omega
    · simp

/-- A run of a sequencer goes on from what the sequencer's step does. -/
theorem runMoves_advance {k n : Nat} {s t : State} (h : advance k .grant s = .next t)
    (hs : t.script = s.script) : runMoves (advances k (n + 1)) s = runMoves (advances k n) t := by
  rw [advances, List.replicate_succ, runMoves_cons _ (show applyMove (.advance k .grant) s = .next t from h), ← hs]; rfl

/-- Two runs of a sequencer. -/
theorem advances_add (k m n : Nat) : advances k (m + n) = advances k m ++ advances k n := by
  simp [advances]

/-- A step of the running operation of a sequencer just put in the state. -/
theorem advance_put {k : Nat} {s : State} {r : Sequencer} {p : Port} {q : Point} (hk : k < s.seqs.length)
    (hq : r.seq = .busy q) : advance k .grant (s.put k r p) = resume k .grant q r (s.put k r p) :=
  advance_busy .grant (by simp [hk]) hq

/-- A run of the operation of a sequencer just put in the state. -/
theorem runMoves_put {k n : Nat} {s : State} {r r' : Sequencer} {p p' : Port} {q : Point} (hk : k < s.seqs.length)
    (hq : r.seq = .busy q) (h : resume k .grant q r (s.put k r p) = .next (s.put k r' p')) :
    runMoves (advances k (n + 1)) (s.put k r p) = runMoves (advances k n) (s.put k r' p') :=
  runMoves_advance ((advance_put hk hq).trans h) rfl

/-- What is put last stays. -/
theorem put_put (k : Nat) (r r' : Sequencer) (p p' : Port) (s : State) :
    (s.put k r p).put k r' p' = s.put k r' p' := by
  simp [State.put]

/-- The writes of a transmit phase, from byte `i` on, with no other move between them (R52). `C` says where the
operation stands for each place in the phase. -/
theorem runMoves_writes {k : Nat} {s : State} {r : Sequencer} {bs : List Byte} (C : Tx → Point) (hk : k < s.seqs.length)
    (hC : ∀ t t' p p', txStep (.sequencer k) .grant (some bs) t p = .ok (.goto t', p') →
      resume k .grant (C t) (r.restAt (C t)) (s.put k (r.restAt (C t)) p) = .next (s.put k (r.restAt (C t')) p'))
    (m i : Nat) (p : Port) (hi : i + (m + 1) = bs.length) :
    runMoves (advances k (m + 1)) (s.put k (r.restAt (C (.write i))) p) =
      .next (s.put k (r.restAt (C .flush))
        { p with txQ := p.txQ ++ bs.drop i, history := p.history ++ (bs.drop i).map (PortEvent.wr (.sequencer k)) }) := by
  induction m generalizing i p with
  | zero =>
    have hd : bs.drop i = [bs[i]] := by
      rw [List.drop_eq_getElem_cons (by omega), List.drop_eq_nil_of_le (by omega)]
    have h1 : txStep (.sequencer k) .grant (some bs) (.write i) p =
        .ok (.goto .flush, p.writeByte (.sequencer k) bs[i]) := by
      simp [txStep, List.getElem?_eq_getElem (show i < bs.length by omega), show ¬ i + 1 < bs.length by omega]
    rw [runMoves_put hk rfl (hC _ _ _ _ h1), hd]
    rfl
  | succ m ih =>
    have hd : bs.drop i = bs[i] :: bs.drop (i + 1) := List.drop_eq_getElem_cons (by omega)
    have h1 : txStep (.sequencer k) .grant (some bs) (.write i) p =
        .ok (.goto (.write (i + 1)), p.writeByte (.sequencer k) bs[i]) := by
      simp [txStep, List.getElem?_eq_getElem (show i < bs.length by omega), show i + 1 < bs.length by omega]
    rw [runMoves_put hk rfl (hC _ _ _ _ h1), ih (i + 1) _ (by omega), hd]
    simp only [Port.writeByte, List.map_cons, List.append_assoc, List.cons_append, List.nil_append]

/-- The reads of a burst that holds the lock, with no other move between them (`per_burst`, R63): every byte of `l` is
handed over in order, and the burst stands where it stood. `B` says where the operation stands for each place in the
burst, and `rs j` what its registers are after `j` bytes. -/
theorem runMoves_reads_perBurst {k : Nat} {s : State} {l rest : List Byte} (B : Burst → Point) (rs : Nat → Sequencer)
    (hk : k < s.seqs.length)
    (hgoto : ∀ j b b' p p', burstStep .perBurst (.sequencer k) .grant b p = .ok (.goto b', p') →
      resume k .grant (B b) ((rs j).restAt (B b)) (s.put k ((rs j).restAt (B b)) p) =
        .next (s.put k ((rs j).restAt (B b')) p'))
    (hbyte : ∀ j (h : j < l.length) b b' p p', burstStep .perBurst (.sequencer k) .grant b p = .ok (.byte l[j] b', p') →
      resume k .grant (B b) ((rs j).restAt (B b)) (s.put k ((rs j).restAt (B b)) p) =
        .next (s.put k ((rs (j + 1)).restAt (B b')) p'))
    (m j : Nat) (p : Port) (hj : j + m = l.length) (hp : p.rxQ = l.drop j ++ rest) :
    runMoves (advances k (2 * m)) (s.put k ((rs j).restAt (B .more)) p) =
      .next (s.put k ((rs l.length).restAt (B .more))
        { p with rxQ := rest, history := p.history ++ (l.drop j).map (PortEvent.rd (.sequencer k)) }) := by
  induction m generalizing j p with
  | zero =>
    have hjl : j = l.length := by omega
    subst hjl
    simp only [List.drop_length, List.nil_append] at hp
    subst hp
    simp [advances, runMoves_nil]
  | succ m ih =>
    have hlt : j < l.length := by omega
    have hd : l.drop j = l[j] :: l.drop (j + 1) := List.drop_eq_getElem_cons hlt
    rw [hd, List.cons_append] at hp
    have h1 : burstStep .perBurst (.sequencer k) .grant .more p = .ok (.goto .read, p) := by
      simp [burstStep, Port.avail, hp]
    have h2 : burstStep .perBurst (.sequencer k) .grant .read p =
        .ok (.byte l[j] .more, { p with rxQ := l.drop (j + 1) ++ rest,
                                        history := p.history ++ [.rd (.sequencer k) l[j]] }) := by
      simp [burstStep, Port.readByte, hp]
    rw [show 2 * (m + 1) = 2 * m + 1 + 1 by omega, runMoves_put hk rfl (hgoto j _ _ _ _ h1),
      runMoves_put hk rfl (hbyte j hlt _ _ _ _ h2), ih (j + 1) _ (by omega) rfl, hd]
    simp only [List.map_cons, List.append_assoc, List.cons_append, List.nil_append]

/-- The passes of a burst that takes the lock for each byte, with no other move between them (`per_byte`, R63). -/
theorem runMoves_reads_perByte {k : Nat} {s : State} {l rest : List Byte} (B : Burst → Point) (rs : Nat → Sequencer)
    (hk : k < s.seqs.length)
    (hgoto : ∀ j b b' p p', burstStep .perByte (.sequencer k) .grant b p = .ok (.goto b', p') →
      resume k .grant (B b) ((rs j).restAt (B b)) (s.put k ((rs j).restAt (B b)) p) =
        .next (s.put k ((rs j).restAt (B b')) p'))
    (hbyte : ∀ j (h : j < l.length) b b' p p', burstStep .perByte (.sequencer k) .grant b p = .ok (.byte l[j] b', p') →
      resume k .grant (B b) ((rs j).restAt (B b)) (s.put k ((rs j).restAt (B b)) p) =
        .next (s.put k ((rs (j + 1)).restAt (B b')) p'))
    (m j : Nat) (p : Port) (hj : j + m = l.length) (hp : p.rxQ = l.drop j ++ rest) (hl : p.lockOwner = none) :
    runMoves (advances k (4 * m)) (s.put k ((rs j).restAt (B .first)) p) =
      .next (s.put k ((rs l.length).restAt (B .first))
        { p with rxQ := rest, history := p.history ++ (l.drop j).map (PortEvent.rd (.sequencer k)) }) := by
  induction m generalizing j p with
  | zero =>
    have hjl : j = l.length := by omega
    subst hjl
    simp only [List.drop_length, List.nil_append] at hp
    subst hp
    simp [advances, runMoves_nil]
  | succ m ih =>
    have hlt : j < l.length := by omega
    have hd : l.drop j = l[j] :: l.drop (j + 1) := List.drop_eq_getElem_cons hlt
    rw [hd, List.cons_append] at hp
    have h1 : burstStep .perByte (.sequencer k) .grant .first p = .ok (.goto .acquire, p) := by
      simp [burstStep, Port.avail, hp]
    have h2 : burstStep .perByte (.sequencer k) .grant .acquire p =
        .ok (.goto .read, { p with lockOwner := some (.sequencer k) }) := by
      simp [burstStep, Port.tryAcquire, hl, afterGrant]
    have h3 : burstStep .perByte (.sequencer k) .grant .read { p with lockOwner := some (.sequencer k) } =
        .ok (.goto (.releaseByte (some l[j])),
          { p with lockOwner := some (.sequencer k), rxQ := l.drop (j + 1) ++ rest,
                   history := p.history ++ [.rd (.sequencer k) l[j]] }) := by
      simp [burstStep, Port.readByte, hp]
    have h4 : burstStep .perByte (.sequencer k) .grant (.releaseByte (some l[j]))
        { p with lockOwner := some (.sequencer k), rxQ := l.drop (j + 1) ++ rest,
                 history := p.history ++ [.rd (.sequencer k) l[j]] } =
        .ok (.byte l[j] .first,
          { p with rxQ := l.drop (j + 1) ++ rest, history := p.history ++ [.rd (.sequencer k) l[j]] }) := by
      obtain ⟨o, _, _, _, _⟩ := p
      simp only at hl
      subst hl
      simp [burstStep, Port.release]
    rw [show 4 * (m + 1) = 4 * m + 1 + 1 + 1 + 1 by omega, runMoves_put hk rfl (hgoto j _ _ _ _ h1),
      runMoves_put hk rfl (hgoto j _ _ _ _ h2), runMoves_put hk rfl (hgoto j _ _ _ _ h3),
      runMoves_put hk rfl (hbyte j hlt _ _ _ _ h4),
      ih (j + 1)
        { p with rxQ := l.drop (j + 1) ++ rest, history := p.history ++ [.rd (.sequencer k) l[j]] } (by omega) rfl hl, hd]
    simp only [List.map_cons, List.append_assoc, List.cons_append, List.nil_append]

/-- A whole burst up to its last step, with the lock free and no other move in it (R63, both forms): the last step ends
the burst with the queue empty and the lock free. -/
theorem runMoves_burst {g : Granularity} {k : Nat} {s : State} (B : Burst → Point) (rs : Nat → Sequencer) (p : Port)
    (hk : k < s.seqs.length) (hl : p.lockOwner = none)
    (hgoto : ∀ j b b' p p', burstStep g (.sequencer k) .grant b p = .ok (.goto b', p') →
      resume k .grant (B b) ((rs j).restAt (B b)) (s.put k ((rs j).restAt (B b)) p) =
        .next (s.put k ((rs j).restAt (B b')) p'))
    (hbyte : ∀ j (h : j < p.rxQ.length) b b' p₁ p₂,
      burstStep g (.sequencer k) .grant b p₁ = .ok (.byte p.rxQ[j] b', p₂) →
      resume k .grant (B b) ((rs j).restAt (B b)) (s.put k ((rs j).restAt (B b)) p₁) =
        .next (s.put k ((rs (j + 1)).restAt (B b')) p₂)) :
    ∃ b p', burstStep g (.sequencer k) .grant b p' =
        .ok (.done, { p with rxQ := [], history := p.history ++ p.rxQ.map (PortEvent.rd (.sequencer k)) }) ∧
      ∀ n, runMoves (advances k (burstSteps g p.rxQ.length + n)) (s.put k ((rs 0).restAt (B .first)) p) =
        runMoves (advances k (n + 1)) (s.put k ((rs p.rxQ.length).restAt (B b)) p') := by
  cases g with
  | perByte =>
    refine ⟨.first, { p with rxQ := [], history := p.history ++ p.rxQ.map (PortEvent.rd (.sequencer k)) },
      by simp [burstStep, Port.avail], fun n => ?_⟩
    have h := runMoves_reads_perByte (l := p.rxQ) (rest := []) B rs hk hgoto hbyte p.rxQ.length 0 p (by omega)
      (by simp) hl
    rw [show burstSteps .perByte p.rxQ.length + n = 4 * p.rxQ.length + (n + 1) by simp [burstSteps]; omega,
      advances_add, runMoves_trans h rfl, List.drop_zero]
  | perBurst =>
    by_cases h0 : p.rxQ = []
    · refine ⟨.first, p, by simp [burstStep, Port.avail, h0]; simp [← h0], fun n => ?_⟩
      simp [h0, burstSteps, Nat.add_comm]
    · have hlen : p.rxQ.length ≠ 0 := fun h => h0 (List.length_eq_zero_iff.mp h)
      refine ⟨.releaseAll,
        { p with lockOwner := some (.sequencer k), rxQ := [],
                 history := p.history ++ p.rxQ.map (PortEvent.rd (.sequencer k)) }, ?_, fun n => ?_⟩
      · obtain ⟨o, _, _, _, _⟩ := p
        simp only at hl
        subst hl
        simp [burstStep, Port.release]
      · have h1 : burstStep .perBurst (.sequencer k) .grant .first p = .ok (.goto .acquire, p) := by
          simp [burstStep, Port.avail, h0]
        have h2 : burstStep .perBurst (.sequencer k) .grant .acquire p =
            .ok (.goto .more, { p with lockOwner := some (.sequencer k) }) := by
          simp [burstStep, Port.tryAcquire, hl, afterGrant]
        have h3 := runMoves_reads_perBurst (l := p.rxQ) (rest := []) B rs hk hgoto hbyte p.rxQ.length 0
          { p with lockOwner := some (.sequencer k) } (by omega) (by simp)
        have h4 : burstStep .perBurst (.sequencer k) .grant .more
            { p with lockOwner := some (.sequencer k), rxQ := [],
                     history := p.history ++ p.rxQ.map (PortEvent.rd (.sequencer k)) } =
            .ok (.goto .releaseAll,
              { p with lockOwner := some (.sequencer k), rxQ := [],
                       history := p.history ++ p.rxQ.map (PortEvent.rd (.sequencer k)) }) := by
          simp [burstStep, Port.avail]
        rw [show burstSteps .perBurst p.rxQ.length + n = 2 * p.rxQ.length + (n + 1 + 1) + 1 + 1 by
            simp [burstSteps, hlen]; omega,
          runMoves_put hk rfl (hgoto 0 _ _ _ _ h1), runMoves_put hk rfl (hgoto 0 _ _ _ _ h2), advances_add,
          runMoves_trans h3 rfl, List.drop_zero]
        exact runMoves_put hk rfl (hgoto _ _ _ _ _ h4)

end Sys2Proof.Machine
end

