-- ==== Sys2Proof/Tests/Slice0.lean ====
section
/-! SUPPORT. The model's own tests: well-formedness, decoding, one step at a time, and for every statement with
hypotheses a concrete case that meets them. Expected values are those of 95_test_vectors.md or are worked out by hand
from the rule cited. -/

namespace Sys2Proof.Tests

open Sys2Proof Sys2Proof.Machine

/-! ## Small machines -/

/-- One sequencer with registers `r`, the port `p`, and the default parameters. -/
def machine (r : Sequencer) (p : Port) : State := { seqs := [r], port := p, params := {} }

/-- The state an answer goes on in. -/
def stateOf (a : Answer) : Option State :=
  match a with
  | .next t => some t
  | .fault _ => none
  | .refused _ => none

/-- Something of sequencer 0 after an answer. -/
def seqAfter {α : Type} (a : Answer) (f : Sequencer → α) : Option α :=
  (stateOf a).bind fun t => t.seqs[0]?.map f

/-- Something of the port after an answer. -/
def portAfter {α : Type} (a : Answer) (f : Port → α) : Option α := (stateOf a).map fun t => f t.port

/-- V7: every field zero. -/
def zeroConfig : ConfigurationRecord := unpackConfig 0

/-- V8, from its cfg_in. -/
def v8Config : ConfigurationRecord := unpackConfig 0x091A32143F3ABCD000000

/-- P1 step 3, from its cfg_in. -/
def p1Config : ConfigurationRecord := unpackConfig 0x000032147B30000FFFF1E

/-- P2's configuration, which leaves out what SEND does not read (R98). -/
def p2Config : ConfigurationRecord :=
  { subpacketSize := some 3, targetAddress := some 0x0102, targetChannel := some 5 }

/-- V8's fields, written out. -/
def v8Fields : EncodeFields :=
  { ownAddress := 0x1234, baudRate := 3, airDataRate := 4, subpacketSize := 0, rssiAmbientNoiseFlag := 1,
    transmittingPower := 1, ownChannel := 15, rssiByteFlag := 1, transmissionMethodType := 1, lbtFlag := 0,
    worCycle := 3, encryptionKey := 0xABCD }

/-! ## Well-formedness -/

/-- A configuration that leaves one field out. -/
theorem test_wellFormed_encode : (Instr.encode { v8Config with targetChannel := none }).WellFormed = false := by decide

theorem test_wellFormed_apply : (Instr.apply { v8Config with ownAddress := none }).WellFormed = false := by decide

theorem test_wellFormed_send : (Instr.send p2Config [1]).WellFormed = false := by decide

/-- R41, R98: what each operation reads. -/
theorem test_operands_encode : (Instr.encode { v8Config with worCycle := none }).operandsWritten = false := by decide

theorem test_operands_apply : (Instr.apply { v8Config with encryptionKey := none }).operandsWritten = false := by decide

theorem test_operands_send :
    (Instr.send p2Config [1]).operandsWritten = true ∧
      (Instr.send { p2Config with targetAddress := none } [1]).operandsWritten = false := by decide

/-! ## Decoding (R80 to R82; the byte image is log 5's) -/

/-- `op = 000` and v = 255 in bits 10:3. -/
theorem test_decode_validate : decode [0xF8, 0x07, 0, 0, 0, 0, 0, 0, 0, 0, 0, 0] = .ok (.validate 255) := by rfl

/-- `op = 001` and, above bit 11, cfg_in of V8 as R82 packs it, with a target 0x0102, 5 (V22). -/
theorem test_decode_encode :
    decode (leBytes 12 (1 + 2 ^ 11 * 0x091A32143F3ABCD010205)) =
      .ok (.encode { ownAddress := some 0x1234, baudRate := some 3, airDataRate := some 4, subpacketSize := some 0,
                     rssiAmbientNoiseFlag := some 1, transmittingPower := some 1, ownChannel := some 15,
                     rssiByteFlag := some 1, transmissionMethodType := some 1, lbtFlag := some 0, worCycle := some 3,
                     encryptionKey := some 0xABCD, targetAddress := some 0x0102, targetChannel := some 5 }) := by rfl

/-- `op = 010`; own_address at bits 82:67 and target_channel at bits 7:0 of cfg_in are all ones, the rest zero, so bits
93:78 and 18:11 of the image are ones. -/
theorem test_decode_apply :
    decode [0x02, 0xF8, 0x07, 0, 0, 0, 0, 0, 0, 0xC0, 0xFF, 0x3F] =
      .ok (.apply { zeroConfig with ownAddress := some 0xFFFF, targetChannel := some 0xFF }) := by rfl

/-- `op = 011`. -/
theorem test_decode_receive : decode [3, 0, 0, 0, 0, 0, 0, 0, 0, 0, 0, 0] = .ok .receive := by rfl

/-- `op = 100`, subpacket_size (bits 58:57 of cfg_in, bits 69:68 of the image) 3, and a payload of two bytes. -/
theorem test_decode_send :
    decode [0x04, 0, 0, 0, 0, 0, 0, 0, 0x30, 0, 0, 0, 0xAA, 0xBB] =
      .ok (.send { zeroConfig with subpacketSize := some 3 } [0xAA, 0xBB]) := by rfl

/-- `op = 101`. -/
theorem test_decode_illegal101 : decode [5, 0, 0, 0, 0, 0, 0, 0, 0, 0, 0, 0] = .ok .illegal101 := by rfl

/-- `op = 110`. -/
theorem test_decode_illegal11x : decode [6, 0, 0, 0, 0, 0, 0, 0, 0, 0, 0, 0] = .ok (.illegal11x 0) := by rfl

/-- A table word: bits 2:0 of the first byte. -/
theorem test_decode_table_word : decodeTableWord 8 0b011 = some .receive ∧ decodeTableWord 3 0b111 = some (.illegal11x 1) :=
  ⟨rfl, rfl⟩

/-- The encoder's image of VALIDATE 31 (P1 step 1), by hand. -/
theorem test_encode_validate : encode (.validate 31) = [0xF8, 0, 0, 0, 0, 0, 0, 0, 0, 0, 0, 0] := by decide

/-! ## Operands -/

/-- V8 and V9. -/
theorem test_commandFrame_V8 :
    commandFrame v8Fields = #v[0xC0, 0x00, 0x08, 0x12, 0x34, 0x64, 0x21, 0x0F, 0xC3, 0xAB, 0xCD] := by decide

/-- V17 and V18: the two neighbouring flags of register 5, one at a time. -/
theorem test_flags_V17_V18 :
    (encodeFields { zeroConfig with rssiByteFlag := some 1 }).map (fun e => (commandFrame e)[8]) = some 0x80 ∧
    (encodeFields { zeroConfig with transmissionMethodType := some 1 }).map (fun e => (commandFrame e)[8]) = some 0x40 := by
  decide

/-- The same flags in the packed word (R82). -/
theorem test_flags_R82 :
    unpackConfig (BitVec.ofNat 83 (2 ^ 45)) = { zeroConfig with rssiByteFlag := some 1 } ∧
    unpackConfig (BitVec.ofNat 83 (2 ^ 44)) = { zeroConfig with transmissionMethodType := some 1 } := by decide

/-- V27, V31, V34. -/
theorem test_rssi_V27_V31_V34 :
    (rssiOf 0x00).toInt = -256 ∧ (rssiOf 0x9C).toInt = -100 ∧ (rssiOf 0xFF).toInt = -1 := by decide

/-! ## One step -/

/-- V3 and V4. -/
theorem test_validate_V3 :
    seqAfter (exec (.validate 30) State.reset) (fun r => (r.chanOk, r.ok, r.seq)) = some (some true, some true, .idle) := by
  decide

theorem test_validate_V4 :
    seqAfter (exec (.validate 31) State.reset) (fun r => (r.chanOk, r.ok, r.seq)) = some (some false, some true, .idle) := by
  decide

/-- V9: every field at its maximum. -/
theorem test_encode_V9 :
    seqAfter (exec (.encode (unpackConfig (BitVec.allOnes 83))) State.reset) (fun r => (r.cmd, r.ok)) =
      some (some #v[0xC0, 0x00, 0x08, 0xFF, 0xFF, 0xFF, 0xE3, 0xFF, 0xD7, 0xFF, 0xFF], some true) := by decide

/-- V22: the target fields are ignored, even when they are left out. -/
theorem test_encode_V22 :
    seqAfter (exec (.encode { v8Config with targetAddress := none, targetChannel := none }) State.reset) (fun r => r.cmd) =
      some (some #v[0xC0, 0x00, 0x08, 0x12, 0x34, 0x64, 0x21, 0x0F, 0xC3, 0xAB, 0xCD]) := by decide

/-- V35: own_channel 31, cmd unwritten. -/
theorem test_apply_V35 :
    seqAfter (exec (.apply { p1Config with ownChannel := some 31 }) State.reset) (fun r => (r.ok, r.err, r.cmd, r.seq)) =
      some (some false, some .invalidConfig, none, .idle) := by decide

/-- V36, its last step: an empty availability test with resp_cnt = 11. -/
theorem test_apply_V36_check :
    seqAfter (advance 0 .grant (machine { seq := .busy (.apply (.a4 .first)), respCnt := some 11 } {}))
      (fun r => (r.ok, r.err, r.seq)) = some (some true, some .none, .idle) := by decide

/-- X1 with a byte waiting goes to Draining. -/
theorem test_receive_x1 :
    seqAfter (advance 0 .grant (machine { seq := .busy (.receive .x1Avail) } { rxQ := [0x9C] }))
      (fun r => (r.rxState, r.seq)) = some (.draining, .busy (.receive (.x2 .first))) := by decide

/-- V48: the 201st byte is counted and ends the operation. -/
theorem test_receive_V48_overflow :
    (fun a => (seqAfter a (fun r => (r.accLen, r.rxState, r.seq)), portAfter a (fun p => p.rxQ)))
      (advance 0 .grant
        (machine { seq := .busy (.receive (.x2 .read)), accLen := some 200, rxState := .draining }
          { rxQ := [0xC8, 0xC9], lockOwner := some (.sequencer 0) })) =
      (some (some 201, .overflow, .busy (.receive .x2Overflow)), some [0xC9]) := by decide

/-- V54: 33 bytes at a maximum of 32. -/
theorem test_send_V54 :
    seqAfter (exec (.send p2Config (List.replicate 33 0)) State.reset) (fun r => (r.ok, r.err, r.maxPay, r.seq)) =
      some (some false, some .payloadTooLarge, some 32, .idle) := by decide

/-- V62: a target channel above 30 is not checked, and the header goes high byte first. -/
theorem test_send_V62 :
    seqAfter (exec (.send { p2Config with targetChannel := some 200 } [0xAA]) State.reset) (fun r => (r.txFrame, r.seq)) =
      some (some [0x01, 0x02, 0xC8, 0xAA], .busy (.send (.s3 .acquire))) := by decide

/-- V65. -/
theorem test_illegal101_V65 :
    seqAfter (exec .illegal101 State.reset) (fun r => (r.ok, r.err)) = some (some false, some .illegalOp) := by decide

/-- V67. -/
theorem test_illegal11x_V67 :
    seqAfter (exec (.illegal11x 1) State.reset) (fun r => (r.ok, r.err)) = some (some false, some .illegalOp) := by decide

/-- A word placed for the next step runs in it. -/
theorem test_step_word : seqAfter (step (State.reset.withFetchWord 8 0b101)) (fun r => r.err) = some (some .illegalOp) := by
  decide

/-! ## Cases that meet the hypotheses of the statements, one theorem for each statement -/

/-- P1 step 3's fields, written out. -/
def p1Fields : EncodeFields :=
  { ownAddress := 0, baudRate := 3, airDataRate := 4, subpacketSize := 0, rssiAmbientNoiseFlag := 1,
    transmittingPower := 1, ownChannel := 30, rssiByteFlag := 1, transmissionMethodType := 1, lbtFlag := 0,
    worCycle := 3, encryptionKey := 0 }

theorem witness_DecodeOfEncodeIsInstr :
    (Instr.validate 255).WellFormed = true ∧ (Instr.encode v8Config).WellFormed = true ∧
    (Instr.apply v8Config).WellFormed = true ∧ Instr.receive.WellFormed = true ∧
    (Instr.send v8Config [0xAA]).WellFormed = true ∧ Instr.illegal101.WellFormed = true ∧
    (Instr.illegal11x 1).WellFormed = true := by decide

theorem witness_ConfigPackingIsLossless : v8Config.allWritten = true := by decide

theorem witness_OpCodeSelectsOperation :
    ∀ op : BitVec 3, ({ op := op, v := 9, cfgIn := v8Config, payload := [1] } : Request).op = op := fun _ => rfl

/-- The lengths and the last byte where the clauses meet. -/
theorem witness_DecoderRefusesByName :
    decode (List.replicate 11 0xFF) = .error .truncated ∧
    decode (List.replicate 11 0 ++ [64]) = .error .padding ∧
    decode (List.replicate 11 0 ++ [63]) ≠ .error .padding := by decide

/-- Two configurations that differ in the target fields alone. -/
theorem witness_EncodeIsTotalAndInjective :
    ({ v8Config with targetAddress := none, targetChannel := none } : ConfigurationRecord).encodeWritten = true ∧
    encodeFields v8Config = some v8Fields ∧
    encodeFields { v8Config with targetAddress := none, targetChannel := none } = some v8Fields ∧
    commandFrame v8Fields = commandFrame v8Fields := by decide

theorem witness_MaxPayTable : 3 < 4 := by decide

/-- An IDLE sequencer at reset; the channels on both sides of the bound. -/
theorem witness_ValidateResult :
    State.reset.seqs[State.reset.cur]? = some {} ∧ ({} : Sequencer).seq = .idle ∧ (30 : Byte).toNat ≤ 30 ∧
    ¬ (31 : Byte).toNat ≤ 30 := by decide

theorem witness_EncodeResult :
    State.reset.seqs[State.reset.cur]? = some {} ∧ ({} : Sequencer).seq = .idle ∧
    encodeFields v8Config = some v8Fields ∧
    ({ v8Config with baudRate := none } : ConfigurationRecord).encodeWritten = false := by decide

theorem witness_ApplyStarts :
    State.reset.seqs[State.reset.cur]? = some {} ∧ ({} : Sequencer).seq = .idle ∧
    encodeFields p1Config = some p1Fields ∧ p1Fields.ownChannel.toNat ≤ 30 := by decide

/-- One sequencer with one stale byte on the line and room for eleven more. -/
def cappedMachine : State := { seqs := [{}], port := { rxQ := [0xAA] }, params := { rxFifoCap := some 12 } }

theorem witness_ApplyRun :
    cappedMachine.seqs[cappedMachine.cur]? = some {} ∧ ({} : Sequencer).seq = .idle ∧
    encodeFields p1Config = some p1Fields ∧ p1Fields.ownChannel.toNat ≤ 30 ∧ cappedMachine.port.lockOwner = none ∧
    cappedMachine.port.txQ = [] ∧
    (∀ n, cappedMachine.params.rxFifoCap = some n →
      cappedMachine.port.rxQ.length + (List.replicate 11 (0 : Byte)).length ≤ n) := by
  refine ⟨rfl, rfl, by decide, by decide, rfl, rfl, ?_⟩
  intro n h
  cases h
  decide

theorem witness_ApplyRefusesChannel :
    State.reset.seqs[State.reset.cur]? = some {} ∧ ({} : Sequencer).seq = .idle ∧
    ({ ownChannel := some 31 } : ConfigurationRecord).ownChannel = some 31 ∧ 30 < (31 : Byte).toNat := by decide

theorem witness_ReceiveStartsClear :
    State.reset.seqs[State.reset.cur]? = some {} ∧ ({} : Sequencer).seq = .idle := by decide

/-- One byte, and the 200 that are the most. -/
theorem witness_ReceiveRun :
    ((machine {} { rxQ := [0x9C] }).seqs[0]? = some ({} : Sequencer) ∧ (machine {} { rxQ := [0x9C] }).port.lockOwner = none ∧
      (machine {} { rxQ := [0x9C] }).port.rxQ = [] ++ [0x9C] ∧ ([] : List Byte).length ≤ 199) ∧
    (machine {} { rxQ := List.replicate 199 7 ++ [1] }).port.rxQ = List.replicate 199 7 ++ [1] ∧
    (List.replicate 199 (7 : Byte)).length ≤ 199 := by
  exact ⟨⟨rfl, rfl, rfl, by decide⟩, rfl, (List.length_replicate ..).le⟩

theorem witness_ReceiveOverflowRun :
    (machine {} { rxQ := List.replicate 200 7 ++ [1] ++ [2] }).seqs[0]? = some ({} : Sequencer) ∧
    (machine {} { rxQ := List.replicate 200 7 ++ [1] ++ [2] }).port.lockOwner = none ∧
    (machine {} { rxQ := List.replicate 200 7 ++ [1] ++ [2] }).port.rxQ = List.replicate 200 7 ++ [1] ++ [2] ∧
    (List.replicate 200 (7 : Byte)).length = 200 :=
  ⟨rfl, rfl, rfl, List.length_replicate ..⟩

/-- A payload of 32 bytes at a maximum of 32. -/
theorem witness_SendRun :
    cappedMachine.seqs[cappedMachine.cur]? = some {} ∧ ({} : Sequencer).seq = .idle ∧
    p2Config.subpacketSize = some 3 ∧ p2Config.targetAddress = some 0x0102 ∧ p2Config.targetChannel = some 5 ∧
    (List.replicate 32 (0 : Byte)).length ≤ (maxPayOf (3 : BitVec 2).toNat).toNat ∧
    cappedMachine.port.lockOwner = none ∧ cappedMachine.port.txQ = [] ∧
    (∀ n, cappedMachine.params.rxFifoCap = some n →
      cappedMachine.port.rxQ.length + (List.replicate 11 (0 : Byte)).length ≤ n) := by
  refine ⟨rfl, rfl, rfl, rfl, rfl, by decide, rfl, rfl, ?_⟩
  intro n h
  cases h
  decide

theorem witness_SendSizeCheck :
    State.reset.seqs[State.reset.cur]? = some {} ∧ ({} : Sequencer).seq = .idle ∧ p2Config.subpacketSize = some 3 ∧
    p2Config.targetAddress = some 0x0102 ∧ p2Config.targetChannel = some 5 ∧
    ([] : List Byte).length ≤ (maxPayOf (3 : BitVec 2).toNat).toNat ∧
    (List.replicate 32 (0 : Byte)).length ≤ (maxPayOf (3 : BitVec 2).toNat).toNat ∧
    (maxPayOf (3 : BitVec 2).toNat).toNat < (List.replicate 33 (0 : Byte)).length := by decide

theorem witness_IllegalOpResult :
    ({ op := 0b101 } : Request).op = 0b101 ∧ ({ op := 0b110 } : Request).op = 0b110 ∧
    ({ op := 0b111 } : Request).op = 0b111 ∧
    State.reset.seqs[State.reset.cur]? = some {} ∧ ({} : Sequencer).seq = .idle ∧
    (Instr.illegal101 = .illegal101 ∨ ∃ x, Instr.illegal101 = .illegal11x x) ∧
    (Instr.illegal11x 1 = .illegal101 ∨ ∃ x, Instr.illegal11x 1 = .illegal11x x) :=
  ⟨rfl, rfl, rfl, rfl, rfl, .inl rfl, .inr ⟨1, rfl⟩⟩

theorem witness_LeftOutFieldFaults :
    State.reset.seqs[State.reset.cur]? = some {} ∧ ({} : Sequencer).seq = .idle ∧
    ({} : ConfigurationRecord).ownChannel = none ∧
    ({ ownChannel := some 30 } : ConfigurationRecord).ownChannel = some 30 ∧ (30 : Byte).toNat ≤ 30 ∧
    ({ ownChannel := some 30 } : ConfigurationRecord).encodeWritten = false ∧
    ({} : ConfigurationRecord).subpacketSize = none ∧
    ({ subpacketSize := some 3 } : ConfigurationRecord).subpacketSize = some 3 ∧
    (List.replicate 32 (0 : Byte)).length ≤ (maxPayOf (3 : BitVec 2).toNat).toNat ∧
    ({ subpacketSize := some 3, targetChannel := some 5 } : ConfigurationRecord).targetAddress = none ∧
    ({ subpacketSize := some 3, targetAddress := some 5 } : ConfigurationRecord).targetChannel = none := by decide

/-- A sequencer at a point, with nothing else of note. -/
def at_ (q : Point) : Sequencer := { seq := .busy q }

theorem witness_ExecOnBusySequencerFaults :
    (machine (at_ (.send .s4Delay)) {}).seqs[(machine (at_ (.send .s4Delay)) {}).cur]? = some (at_ (.send .s4Delay)) ∧
    (at_ (.send .s4Delay)).seq = .busy (.send .s4Delay) := ⟨rfl, rfl⟩

theorem witness_AcquireRule :
    ({} : Port).lockOwner = none ∧ ({ lockOwner := some (.env 0) } : Port).lockOwner = some (.env 0) ∧
    Agent.env 0 ≠ .sequencer 0 := by decide

theorem witness_ReleaseRule :
    ({ lockOwner := some (.env 0) } : Port).lockOwner = some (.env 0) ∧
    ({} : Port).lockOwner ≠ some (.env 0) := by decide

theorem witness_PortPrimitives :
    ({} : Port).rxQ = [] ∧ ({ rxQ := [7, 8] } : Port).rxQ = 7 :: [8] := ⟨rfl, rfl⟩

/-- The five delay points. -/
theorem witness_DelayChangesOnlySeq :
    (∀ q, (machine (at_ q) {}).seqs[0]? = some (at_ q) ∧ (at_ q).seq = .busy q) ∧
    delayAt (.apply .a3Delay) = some .tCmdSettle ∧ delayAt (.receive .x1Delay) = some .tPoll ∧
    delayAt (.receive .x3Delay) = some .tRxSettle ∧ delayAt (.send .s4Delay) = some .tTxWait ∧
    delayAt (.send .s5Gap) = some .tTxGap := ⟨fun _ => ⟨rfl, rfl⟩, rfl, rfl, rfl, rfl, rfl⟩

theorem witness_FlushHoldsUntilSent :
    ((machine (at_ (.apply (.a2 .flush))) { txQ := [1] }).seqs[0]? = some (at_ (.apply (.a2 .flush))) ∧
      (machine (at_ (.apply (.a2 .flush))) { txQ := [1] }).port.txQ ≠ []) ∧
    (machine (at_ (.send (.s3 .flush))) { txQ := [1] }).seqs[0]? = some (at_ (.send (.s3 .flush))) ∧
    (machine (at_ (.send (.s3 .flush))) { txQ := [1] }).port.txQ ≠ [] := by decide

theorem witness_LockTimeoutIsChannelBusy :
    ∀ q, (machine (at_ q) { lockOwner := some (.env 0) }).seqs[0]? = some (at_ q) ∧ (at_ q).seq = .busy q ∧
      (machine (at_ q) { lockOwner := some (.env 0) }).port.lockOwner ≠ some (.sequencer 0) :=
  fun _ => ⟨rfl, rfl, by simp [machine]⟩

/-- The points at which an operation asks for the lock, waits for it, and stands once it has it, under a granularity. -/
def lockPoints (g : Granularity) : List (Point × Point × Point) :=
  [(.apply (.a2 .acquire), .apply (.a2 .wait), .apply (.a2 (.write 0))),
   (.send (.s3 .acquire), .send (.s3 .wait), .send (.s3 (.write 0))),
   (.apply (.a4 .acquire), .apply (.a4 .wait), .apply (.a4 (afterGrant g))),
   (.receive (.x2 .acquire), .receive (.x2 .wait), .receive (.x2 (afterGrant g)))]

/-- Each of the four places, its lock free and held by another agent, under both granularities. -/
theorem witness_LockGrantGoesOn :
    (∀ g q, q ∈ lockPoints g → ∀ a ∈ [q.1, q.2.1],
      ({ machine (at_ a) {} with params := { granularity := g } } : State).seqs[0]? = some (at_ a) ∧
      (at_ a).seq = .busy a ∧
      ({ machine (at_ a) {} with params := { granularity := g } } : State).port.lockOwner = none ∧
      ({ machine (at_ a) {} with params := { granularity := g } } : State).params.granularity = g) ∧
    (machine (at_ (.send (.s3 .wait))) { lockOwner := some (.env 0) }).port.lockOwner = some (.env 0) ∧
    Agent.env 0 ≠ .sequencer 0 :=
  ⟨fun _ _ _ _ _ => ⟨rfl, rfl, rfl, rfl⟩, rfl, by decide⟩

/-- A RECEIVE with `n` bytes read, at a point. -/
def drained (n : Byte) (b : Burst) : Sequencer := { seq := .busy (.receive (.x2 b)), rxState := .draining, accLen := some n }

/-- The lock its own, and `q` on the line, under a granularity. -/
def burst (g : Granularity) (r : Sequencer) (q : List Byte) : State :=
  { machine r { rxQ := q, lockOwner := some (.sequencer 0) } with params := { granularity := g } }

/-- Both ends of a burst, with no byte read, with 200, and for APPLY on both sides of 11; a `ReadByte` that answers none and
one that answers a byte, under both granularities; the release after each answer; and the count at its greatest. -/
theorem witness_BurstEndGoesOn :
    (∀ n ∈ [0, 1, (200 : Byte)],
      ((machine (drained n .first) {}).seqs[0]? = some (drained n .first) ∧
        (drained n .first).seq = .busy (.receive (.x2 .first)) ∧ (drained n .first).accLen = some n ∧
        (machine (drained n .first) {}).port.rxQ = []) ∧
      (burst .perBurst (drained n .releaseAll) []).seqs[0]? = some (drained n .releaseAll) ∧
      (drained n .releaseAll).seq = .busy (.receive (.x2 .releaseAll)) ∧ (drained n .releaseAll).accLen = some n ∧
      (burst .perBurst (drained n .releaseAll) []).port.lockOwner = some (.sequencer 0)) ∧
    (∀ n ∈ [10, 11, (12 : Byte)], ∀ b ∈ [Burst.first, .releaseAll],
      (machine { at_ (.apply (.a4 b)) with respCnt := some n } {}).seqs[0]? =
        some { at_ (.apply (.a4 b)) with respCnt := some n } ∧
      (machine { at_ (.apply (.a4 b)) with respCnt := some n } {}).port.rxQ = [] ∧
      (machine { at_ (.apply (.a4 b)) with respCnt := some n } {}).port.lockOwner ≠ some (.sequencer 0)) ∧
    (∀ g, ∀ q ∈ [[], [7, (8 : Byte)]], ∀ p ∈ [Point.apply (.a4 .read), .receive (.x2 .read)],
      (burst g (at_ p) q).seqs[0]? = some (at_ p) ∧ (at_ p).seq = .busy p ∧ (burst g (at_ p) q).params.granularity = g ∧
      (burst g (at_ p) q).port.rxQ = q) ∧
    (∀ v ∈ [none, some (7 : Byte)], ∀ p ∈ [Point.apply (.a4 (.releaseByte v)), .receive (.x2 (.releaseByte v))],
      (burst .perByte (at_ p) []).seqs[0]? = some (at_ p) ∧ (at_ p).seq = .busy p ∧
      (burst .perByte (at_ p) []).port.lockOwner = some (.sequencer 0)) ∧
    ({ at_ (.apply (.a4 .read)) with respCnt := some 255 } : Sequencer).respCnt = some 255 :=
  ⟨fun _ _ => ⟨⟨rfl, rfl, rfl, rfl⟩, rfl, rfl, rfl, rfl⟩, fun _ _ _ _ => ⟨rfl, rfl, by simp [machine]⟩,
    fun _ _ _ _ _ => ⟨rfl, rfl, rfl, rfl⟩, fun _ _ _ _ => ⟨rfl, rfl, rfl⟩, rfl⟩

/-- A byte that waits; and none, with one byte read and with 200. -/
theorem witness_SettlingExtendsFrame :
    ((machine (at_ (.receive .x3Avail)) { rxQ := [3] }).seqs[0]? = some (at_ (.receive .x3Avail)) ∧
      (machine (at_ (.receive .x3Avail)) { rxQ := [3] }).port.rxQ ≠ []) ∧
    (∀ n ∈ [1, (200 : Byte)], 1 ≤ n.toNat ∧ n.toNat ≤ 200) ∧
    (machine { at_ (.receive .x3Avail) with accLen := some 200, rxBuf := some (Vector.replicate 200 7) } {}).seqs[0]? =
      some { at_ (.receive .x3Avail) with accLen := some 200, rxBuf := some (Vector.replicate 200 7) } ∧
    (machine { at_ (.receive .x3Avail) with accLen := some 200, rxBuf := some (Vector.replicate 200 7) } {}).port.rxQ = [] :=
  ⟨⟨rfl, by decide⟩, by decide, rfl, rfl⟩

/-- The first place of the buffer and the last. -/
theorem witness_ReceiveStoresOneByte :
    (0 : Byte).toNat < 200 ∧ (199 : Byte).toNat < 200 ∧
    ({ accLen := some 199, rxBuf := some (Vector.replicate 200 0) } : Sequencer).accLen = some 199 ∧
    ({ accLen := some 199, rxBuf := some (Vector.replicate 200 0) } : Sequencer).rxBuf =
      some (Vector.replicate 200 0) := ⟨by decide, by decide, rfl, rfl⟩

/-- Both points of X1, each with a move that is no arrival. -/
theorem witness_ReceiveWaitsOnSilentLine :
    (machine (at_ (.receive .x1Avail)) {}).port.rxQ = [] ∧ (Move.advance 0 .grant).isArrival = false ∧
    applyMove (.advance 0 .grant) (machine (at_ (.receive .x1Avail)) {}) =
      .next (machine (at_ (.receive .x1Delay)) {}) ∧
    applyMove (.advance 0 .grant) (machine (at_ (.receive .x1Delay)) {}) =
      .next (machine (at_ (.receive .x1Avail)) {}) := ⟨rfl, rfl, rfl, rfl⟩

/-- A pass with two bytes; a read of none and the test that ends the loop, nothing waiting; and the last release. -/
theorem witness_SendDiscardPass :
    ((machine (at_ (.send .s5Avail)) { rxQ := [0x55, 0xAA] }).seqs[0]? = some (at_ (.send .s5Avail)) ∧
      (machine (at_ (.send .s5Avail)) { rxQ := [0x55, 0xAA] }).port.rxQ ≠ [] ∧
      (∀ n, (machine (at_ (.send .s5Avail)) { rxQ := [0x55, 0xAA] }).params.rxFifoCap = some n →
        ([0x11] : List Byte).length ≤ n)) ∧
    ∀ q ∈ [SendPoint.s5Read, .s5Avail, .s5Release],
      (burst .perBurst (at_ (.send q)) []).seqs[0]? = some (at_ (.send q)) ∧ (at_ (.send q)).seq = .busy (.send q) ∧
      (burst .perBurst (at_ (.send q)) []).port.rxQ = [] ∧
      (burst .perBurst (at_ (.send q)) []).port.lockOwner = some (.sequencer 0) :=
  ⟨⟨rfl, by decide, by intro n h; cases h⟩, fun _ _ => ⟨rfl, rfl, rfl, rfl⟩⟩

/-- One step that ends an operation and one that does not. -/
theorem witness_OperationEndsByFinish :
    (seqAfter (advance 0 .timeout (machine (at_ (.receive (.x2 .wait))) {})) (fun r => r.seq) = some .idle) ∧
    seqAfter (advance 0 .grant (machine (at_ (.receive .x1Avail)) {})) (fun r => r.seq) =
      some (.busy (.receive .x1Delay)) := by decide

theorem witness_AcceptanceFrame :
    (stateOf (exec (.validate 1) State.reset)).isSome = true ∧ (stateOf (exec (.encode v8Config) State.reset)).isSome = true ∧
    (stateOf (exec (.apply p1Config) State.reset)).isSome = true ∧ (stateOf (exec .receive State.reset)).isSome = true ∧
    (stateOf (exec (.send p2Config []) State.reset)).isSome = true ∧ (stateOf (exec .illegal101 State.reset)).isSome = true ∧
    (stateOf (exec (.illegal11x 0) State.reset)).isSome = true := by decide

theorem witness_AcceptanceRegisterFrame :
    State.reset.seqs[State.reset.cur]? = some {} ∧
    (seqAfter (exec (.apply p1Config) State.reset) (fun r => r.cfg)) = some p1Config := by decide

/-- A read; and a write of each transmit phase, at the first byte of the frame and at the last. -/
theorem witness_RunningOperationFrame :
    ((machine (at_ (.send .s5Read)) { rxQ := [0x55] }).seqs[0]? = some (at_ (.send .s5Read)) ∧
      portAfter (advance 0 .grant (machine (at_ (.send .s5Read)) { rxQ := [0x55] })) (fun p => p.rxQ) = some []) ∧
    (∀ i ∈ [0, 10],
      (machine { at_ (.apply (.a2 (.write i))) with cmd := some (commandFrame v8Fields) } {}).seqs[0]? =
        some { at_ (.apply (.a2 (.write i))) with cmd := some (commandFrame v8Fields) } ∧ i < 11 ∧
      (stateOf (advance 0 .grant
        (machine { at_ (.apply (.a2 (.write i))) with cmd := some (commandFrame v8Fields) } {}))).isSome = true) ∧
    ∀ i ∈ [0, 3],
      (machine { at_ (.send (.s3 (.write i))) with txFrame := some [1, 2, 5, 0xAA] } {}).seqs[0]? =
        some { at_ (.send (.s3 (.write i))) with txFrame := some [1, 2, 5, 0xAA] } ∧
      i < ([1, 2, 5, 0xAA] : List Byte).length ∧
      (stateOf (advance 0 .grant
        (machine { at_ (.send (.s3 (.write i))) with txFrame := some [1, 2, 5, 0xAA] } {}))).isSome = true := by decide

/-- The bytes are those of V8: 0xC0 first and 0xCD last. -/
theorem test_write_V8 :
    [0, 10].map (fun i => portAfter (advance 0 .grant
      (machine { at_ (.apply (.a2 (.write i))) with cmd := some (commandFrame v8Fields) } {})) (fun p => p.txQ)) =
      [some [0xC0], some [0xCD]] := by decide

theorem witness_NothingElseMovesASequencer :
    (machine (at_ (.send .s4Delay)) {}).seqs[0]? = some (at_ (.send .s4Delay)) ∧
    (Move.present 0 { op := 3 }).isOf (.sequencer 0) = false ∧
    seqAfter (applyMove (.present 0 { op := 3 }) (machine (at_ (.send .s4Delay)) {})) (fun r => (r.seq, r.held)) =
      some (.busy (.send .s4Delay), [{ op := 3 }]) := by decide

/-- A sequencer the machine has, the one register a host may read, and one it may not. -/
theorem witness_LaunchValues : 0 < 1 ∧ OutReg.rxState = .rxState ∧ OutReg.ok ≠ .rxState := by decide

theorem witness_LaunchMeetsInvariants : 0 < 1 := by decide

/-! ### Machines that meet the invariant -/

/-- A machine of one sequencer meets the invariant when the sequencer does and the lock agrees with it. -/
theorem machine_inv {r : Sequencer} {p : Port} (hr : r.Inv)
    (hp : ∀ k, p.lockOwner = some (.sequencer k) ↔ k = 0 ∧ r.holdsLock = true) : (machine r p).Inv := by
  refine ⟨Nat.zero_lt_one, ?_, ?_⟩
  · intro k
    rw [show (machine r p).port = p from rfl, hp k]
    cases k with
    | zero => simp [machine]
    | succ k => simp [machine]
  · intro x hx
    rw [List.mem_singleton.mp hx]
    exact hr

/-- A RECEIVE in its burst: waiting for the lock, or before a `ReadByte`. -/
def receiver (b : Burst) : Sequencer :=
  { seq := .busy (.receive (.x2 b)), rxState := .draining, accLen := some 0, rxBuf := some (Vector.replicate 200 0) }

theorem receiver_inv (b : Burst) : (receiver b).Inv := by
  refine ⟨.inl ⟨rfl, rfl⟩, ⟨?_, .inl ⟨rfl, rfl⟩, ?_, ?_⟩, ?_, ⟨0, Vector.replicate 200 0, rfl, rfl, ?_, by decide, rfl⟩, rfl, rfl⟩
  · intro n h; cases h; decide
  · intro n h; cases h
  · intro n h; cases h
  · intro o h; cases List.mem_singleton.mp h; rfl
  · intro j h _; simp

/-- A SEND of an empty payload. -/
def sender (q : SendPoint) : Sequencer :=
  { seq := .busy (.send q), cfg := p2Config, maxPay := some 32, txFrame := some [1, 2, 5] }

/-- The points of SEND the cases use: its first `WriteByte`, `Flush`, a discarded `ReadByte` and the last `Release`. -/
def senderPoints : List SendPoint := [.s3 (.write 0), .s3 .flush, .s5Read, .s5Release]

theorem sender_inv {q : SendPoint} (hq : q ∈ senderPoints) : (sender q).Inv := by
  refine ⟨.inl ⟨rfl, rfl⟩, ⟨?_, .inl ⟨rfl, rfl⟩, ?_, ?_⟩, ?_, 3, 0x0102, 5, [], rfl, rfl, rfl, rfl, rfl, by decide, ?_⟩
  · intro n h; cases h
  · intro n h; cases h; decide
  · intro n h; cases h; decide
  · intro o h; cases List.mem_singleton.mp h; rfl
  · simp only [senderPoints, List.mem_cons, List.not_mem_nil, or_false] at hq
    rcases hq with rfl | rfl | rfl | rfl <;> simp

/-- An APPLY that holds the lock. -/
def applier (q : ApplyPoint) : Sequencer :=
  { seq := .busy (.apply q), cfg := p1Config, cmd := some (commandFrame p1Fields), respCnt := some 0 }

/-- The points of APPLY the cases use: its first `WriteByte`, `Flush` and a `ReadByte` of its drain. -/
def applierPoints : List ApplyPoint := [.a2 (.write 0), .a2 .flush, .a4 .read]

theorem applier_inv {q : ApplyPoint} (hq : q ∈ applierPoints) : (applier q).Inv := by
  refine ⟨.inl ⟨rfl, rfl⟩, ⟨?_, .inl ⟨rfl, rfl⟩, ?_, ?_⟩, ?_, ⟨p1Fields, (by decide : encodeFields p1Config = some p1Fields), by decide, rfl⟩, ?_⟩
  · intro n h; cases h
  · intro n h; cases h
  · intro n h; cases h
  · intro o h; cases List.mem_singleton.mp h; rfl
  · simp only [applierPoints, List.mem_cons, List.not_mem_nil, or_false] at hq
    rcases hq with rfl | rfl | rfl <;> simp [applier]

/-- A sequencer after VALIDATE. -/
def validated : Sequencer := { chanOk := some true, ok := some true, err := some .none, fresh := [.ok, .chanOk] }

theorem validated_inv : validated.Inv := by
  refine ⟨.inr (.inl ⟨rfl, rfl⟩), ⟨?_, .inl ⟨rfl, rfl⟩, ?_, ?_⟩, ?_, trivial⟩
  · intro n h; cases h
  · intro n h; cases h
  · intro n h; cases h
  · intro o h
    revert h
    cases o <;> decide

/-- A sequencer that has written every result register, each at an end of its range. -/
def written (x : RxState) : Sequencer :=
  { rxState := x, ok := some false, err := some .channelBusy, chanOk := some false, cmd := some (commandFrame p1Fields),
    respCnt := some 255, rxBuf := some (Vector.replicate 200 7), accLen := some 201, rxLen := some 199,
    rxRssi := some 0xFFFF, maxPay := some 32, txFrame := some [1, 2, 5],
    fresh := [.ok, .chanOk, .cmd, .respCnt, .rxState, .rxBuf, .accLen, .rxLen, .rxRssi, .maxPay, .txFrame] }

theorem written_inv (x : RxState) : (written x).Inv := by
  refine ⟨.inr (.inr ⟨rfl, .channelBusy, rfl, by decide⟩),
    ⟨?_, .inr ⟨199, 0xFFFF, rfl, rfl, by decide, by decide, by decide⟩, ?_, ?_⟩, ?_, trivial⟩
  · intro n h; cases h; decide
  · intro n h; cases h; decide
  · intro n h; cases h; decide
  · intro o _
    cases o <;> rfl

theorem receiver_machine : (machine (receiver .wait) { lockOwner := some (.env 0) }).Inv :=
  machine_inv (receiver_inv _) (fun k => by simp [receiver, Sequencer.holdsLock, Point.holdsLock, Burst.holdsLock])

theorem receiver_reads : (machine (receiver .read) { lockOwner := some (.sequencer 0) }).Inv :=
  machine_inv (receiver_inv _)
    (fun k => by simp [receiver, Sequencer.holdsLock, Point.holdsLock, Burst.holdsLock, eq_comm])

theorem sender_machine {q : SendPoint} (hq : q ∈ senderPoints) :
    (machine (sender q) { lockOwner := some (.sequencer 0) }).Inv :=
  machine_inv (sender_inv hq) (fun k => by
    simp only [senderPoints, List.mem_cons, List.not_mem_nil, or_false] at hq
    rcases hq with rfl | rfl | rfl | rfl <;> simp [sender, Sequencer.holdsLock, Point.holdsLock, Tx.holdsLock, eq_comm])

theorem applier_machine {q : ApplyPoint} (hq : q ∈ applierPoints) :
    (machine (applier q) { lockOwner := some (.sequencer 0) }).Inv :=
  machine_inv (applier_inv hq) (fun k => by
    simp only [applierPoints, List.mem_cons, List.not_mem_nil, or_false] at hq
    rcases hq with rfl | rfl | rfl <;>
      simp [applier, Sequencer.holdsLock, Point.holdsLock, Tx.holdsLock, Burst.holdsLock, eq_comm])

theorem written_machine (x : RxState) : (machine (written x) {}).Inv :=
  machine_inv (written_inv x) (fun k => by simp [written, Sequencer.holdsLock])

theorem validated_machine : (machine validated {}).Inv :=
  machine_inv validated_inv (fun k => by simp [validated, Sequencer.holdsLock])

/-- A wait that times out. -/
theorem witness_FailedReceiveHasNoLength :
    (machine (receiver .wait) { lockOwner := some (.env 0) }).Inv ∧
    seqAfter (advance 0 .timeout (machine (receiver .wait) { lockOwner := some (.env 0) })) (fun r => (r.seq, r.ok)) =
      some (.idle, some false) := ⟨receiver_machine, by decide⟩

theorem witness_StepKeepsInvariant :
    (machine validated {}).Inv ∧
    (stateOf (step ((machine validated {}).withFetchWord 8 0b101))).isSome = true := ⟨validated_machine, by decide⟩

theorem witness_StepKeepsPortHistory :
    PortHistoryInv (machine validated {}) ∧
    (stateOf (step ((machine validated {}).withFetchWord 8 0b101))).isSome = true := ⟨⟨rfl, rfl⟩, by decide⟩

/-- One running operation of each kind. -/
theorem witness_RunningOperationNeverStops :
    (machine (applier (.a2 (.write 0))) { lockOwner := some (.sequencer 0) }).Inv ∧
    (machine (receiver .wait) { lockOwner := some (.env 0) }).Inv ∧
    (machine (sender .s5Release) { lockOwner := some (.sequencer 0) }).Inv :=
  ⟨applier_machine (by decide), receiver_machine, sender_machine (by decide)⟩

/-- Every kind of point the statement names, with a step that answers a next state: the first writes, the two flushes,
and the three reads, which answer none here. -/
theorem witness_BlockKeepsLockDiscipline :
    (∀ q ∈ applierPoints, (machine (applier q) { lockOwner := some (.sequencer 0) }).Inv ∧
      (stateOf (advance 0 .grant (machine (applier q) { lockOwner := some (.sequencer 0) }))).isSome = true) ∧
    ((machine (receiver .read) { lockOwner := some (.sequencer 0) }).Inv ∧
      (stateOf (advance 0 .grant (machine (receiver .read) { lockOwner := some (.sequencer 0) }))).isSome = true) ∧
    (∀ q ∈ senderPoints, (machine (sender q) { lockOwner := some (.sequencer 0) }).Inv ∧
      (stateOf (advance 0 .grant (machine (sender q) { lockOwner := some (.sequencer 0) }))).isSome = true) ∧
    portAfter (advance 0 .grant (machine (applier (.a2 (.write 0))) { lockOwner := some (.sequencer 0) }))
      (fun p => p.history) = some [.wr (.sequencer 0) 0xC0] := by
  refine ⟨fun q hq => ⟨applier_machine hq, ?_⟩, ⟨receiver_reads, by decide⟩, fun q hq => ⟨sender_machine hq, ?_⟩, by decide⟩
  · revert q; decide
  · revert q; decide

/-- A sequencer that holds the lock while an environment agent asks for it, and an environment agent that holds it while
a sequencer waits. -/
theorem witness_LockExcludesOthers :
    ((machine (applier (.a2 .flush)) { lockOwner := some (.sequencer 0) }).Inv ∧
      (Move.env 0 .acquire).isOf (.sequencer 0) = false ∧ (Move.env 0 .acquire).isReset = false ∧
      (Move.env 0 .acquire).disciplined (machine (applier (.a2 .flush)) { lockOwner := some (.sequencer 0) }) = true ∧
      (stateOf (applyMove (.env 0 .acquire)
        (machine (applier (.a2 .flush)) { lockOwner := some (.sequencer 0) }))).isSome = true) ∧
    (machine (receiver .wait) { lockOwner := some (.env 0) }).Inv ∧ (Move.advance 0 .grant).isOf (.env 0) = false ∧
    (stateOf (applyMove (.advance 0 .grant) (machine (receiver .wait) { lockOwner := some (.env 0) }))).isSome = true :=
  ⟨⟨applier_machine (by decide), rfl, rfl, rfl, by decide⟩, receiver_machine, rfl, by decide⟩

theorem witness_NoOperationEndsHoldingLock :
    (machine (sender .s5Release) { lockOwner := some (.sequencer 0) }).Inv ∧
    seqAfter (advance 0 .grant (machine (sender .s5Release) { lockOwner := some (.sequencer 0) })) (fun r => r.seq) =
      some .idle := ⟨sender_machine (by decide), by decide⟩

/-- Every result register fresh, with each `rx_state`; and one register the last operation did not write. -/
theorem witness_HostReadRule :
    (∀ x o, (machine (written x) {}).Inv ∧ (machine (written x) {}).seqs[0]? = some (written x) ∧
      (written x).seq = .idle ∧ o ∈ (written x).fresh) ∧
    (machine validated {}).Inv ∧ (machine validated {}).seqs[0]? = some validated ∧ validated.seq = .idle ∧
    OutReg.cmd ∉ validated.fresh :=
  ⟨fun x o => ⟨written_machine x, rfl, rfl, by cases o <;> simp [written]⟩, validated_machine, rfl, rfl, by decide⟩

/-! ### Steps, the host and the environment -/

/-- One sequencer that holds `q`, its step the next move. -/
def holding (q : Request) : State := { machine { held := [q] } {} with script := [.advance 0 .grant] }

/-- A held SEND in the text form, with fields left out; and a held RECEIVE that a byte image parses to. -/
theorem witness_StepRunsHeldRequest :
    ((holding { op := 4, cfgIn := p2Config }).script = .advance 0 .grant :: [] ∧
      (holding { op := 4, cfgIn := p2Config }).seqs[0]? = some { held := { op := 4, cfgIn := p2Config } :: [] }) ∧
    ((holding { op := 3, cfgIn := zeroConfig }).script = .advance 0 .grant :: [] ∧
      (holding { op := 3, cfgIn := zeroConfig }).seqs[0]? = some { held := { op := 3, cfgIn := zeroConfig } :: [] } ∧
      parseRequest [3, 0, 0, 0, 0, 0, 0, 0, 0, 0, 0, 0] = .ok { op := 3, cfgIn := zeroConfig } ∧
      decode [3, 0, 0, 0, 0, 0, 0, 0, 0, 0, 0, 0] = .ok .receive) := ⟨⟨rfl, rfl⟩, rfl, rfl, rfl, rfl⟩

theorem witness_TableWordRunsNext :
    decodeTableWord 8 0b101 = some .illegal101 ∧ State.reset.seqs[0]? = some ({} : Sequencer) := ⟨rfl, rfl⟩

theorem witness_StepTakesNextMove :
    ({ State.reset with script := [.transmit] } : State).script = .transmit :: [] ∧ State.reset.script = [] := ⟨rfl, rfl⟩

/-- A busy sequencer, and an IDLE one that holds a request already. -/
theorem witness_BusySequencerHoldsRequest :
    (machine (at_ (.receive .x1Avail)) {}).seqs[0]? = some (at_ (.receive .x1Avail)) ∧
    (machine { held := [{ op := 3 }] } {}).seqs[0]? = some { held := [{ op := 3 }] } := ⟨rfl, rfl⟩

theorem witness_ResetRule :
    (∀ r ∈ (machine validated {}).seqs, r.seq = .idle) ∧
    at_ (.receive .x1Avail) ∈ (machine (at_ (.receive .x1Avail)) {}).seqs ∧ (at_ (.receive .x1Avail)).seq ≠ .idle := by
  decide

/-- The lock free, held by the agent, and held by another: an agent and a sequencer. -/
theorem witness_EnvironmentLockMisuseFaults :
    (machine {} {}).port.lockOwner = none ∧
    (machine {} { lockOwner := some (.env 3) }).port.lockOwner = some (.env 3) ∧
    (machine {} { lockOwner := some (.env 4) }).port.lockOwner = some (.env 4) ∧ Agent.env 4 ≠ .env 3 ∧
    (machine {} { lockOwner := some (.sequencer 0) }).port.lockOwner = some (.sequencer 0) ∧
    Agent.sequencer 0 ≠ .env 3 ∧
    (machine {} {}).port.lockOwner ≠ some (.env 3) ∧
    (machine {} { lockOwner := some (.env 4) }).port.lockOwner ≠ some (.env 3) := by decide

theorem witness_UndisciplinedAgentInterleaves : (machine {} { rxQ := [1, 2] }).port.rxQ = 1 :: [2] := rfl

/-- Room for one more byte, no room, and a byte to send. -/
theorem witness_EnvironmentPortAgents :
    (∀ n, cappedMachine.params.rxFifoCap = some n → cappedMachine.port.rxQ.length < n) ∧
    (({ rxFifoCap := some 0 } : Params).rxFifoCap = some 0 ∧ 0 ≤ (machine {} {}).port.rxQ.length) ∧
    (machine {} { txQ := [5] }).port.txQ = 5 :: [] := by
  refine ⟨?_, ⟨rfl, Nat.zero_le _⟩, rfl⟩
  intro n h
  cases h
  decide

/-- The channels on both sides of the bound, and the empty and the longest payload. -/
theorem witness_OwnChannelIsRegister4 :
    State.reset.seqs[State.reset.cur]? = some {} ∧ ({} : Sequencer).seq = .idle ∧
    encodeFields p1Config = some p1Fields ∧ p1Fields.ownChannel.toNat ≤ 30 ∧
    encodeFields { p1Config with ownChannel := some 31 } = some { p1Fields with ownChannel := 31 } ∧
    30 < ({ p1Fields with ownChannel := 31 } : EncodeFields).ownChannel.toNat ∧
    ([] : List Byte).length ≤ (maxPayOf p1Fields.subpacketSize.toNat).toNat ∧
    (List.replicate 200 (7 : Byte)).length ≤ (maxPayOf p1Fields.subpacketSize.toNat).toNat ∧
    p1Config.targetAddress.isSome = true ∧ p1Config.targetChannel.isSome = true :=
  ⟨rfl, rfl, by decide, by decide, by decide, by decide, by decide, (List.length_replicate ..).le, rfl, rfl⟩

end Sys2Proof.Tests
end

section
/-! SUPPORT. The machine invariant and the frames of 10_state.md: what one step of a sequencer does to the port and to its
own registers is said once (`PortMove`, `RegisterWrite`, `OpStep`), and the invariant, the frames and the rule for `ok` and
`err` are read off it. -/

namespace Sys2Proof.Machine

/-! ## What a host reads of a result register -/

/-- A result register's own value as a host would read it had the last operation written it. -/
def Sequencer.outValue (r : Sequencer) (o : OutReg) : Option OutValue :=
  ({ r with fresh := [o] } : Sequencer).readOut o

theorem readOut_of_fresh {r : Sequencer} {o : OutReg} (h : o ∈ r.fresh) : r.readOut o = r.outValue o := by
  cases o <;> simp [Sequencer.outValue, Sequencer.readOut, h]

theorem readOut_of_not_fresh {r : Sequencer} {o : OutReg} (h : o ∉ r.fresh) : r.readOut o = none := by
  simp [Sequencer.readOut, h]

/-- A read that goes through gives the value of the register it reads. -/
theorem readOut_eq_some {α : Type} {r : Sequencer} {o : OutReg} {v : Option α} {f : α → OutValue}
    (h : r.readOut o = v.map f) (hs : (r.readOut o).isSome) : ∃ x, v = some x ∧ r.readOut o = some (f x) := by
  cases v with
  | none => simp [h] at hs
  | some x => exact ⟨x, rfl, h⟩

theorem freshInv_iff (r : Sequencer) : FreshInv r ↔ ∀ o ∈ r.fresh, (r.outValue o).isSome :=
  forall₂_congr fun _ h => by rw [readOut_of_fresh h]

/-- Writing registers and recording them keeps FreshInv, where each recorded register holds a value and none that held one
loses it. -/
theorem freshInv_extend {r r' : Sequencer} {new : List OutReg} (h : FreshInv r) (hf : r'.fresh = new ++ r.fresh)
    (hnew : ∀ o ∈ new, (r'.outValue o).isSome) (hkeep : ∀ o, (r.outValue o).isSome → (r'.outValue o).isSome) :
    FreshInv r' := by
  rw [freshInv_iff] at h ⊢
  intro o ho
  rw [hf, List.mem_append] at ho
  exact ho.elim (hnew o) fun ho => hkeep o (h o ho)

/-! ## The parts of a sequencer's invariant -/

/-- What the invariant says of a running operation at its point. -/
def Sequencer.PointInv (r : Sequencer) : Prop :=
  match r.seq with
  | .idle => True
  | .busy (.apply q) => ApplyInv q r
  | .busy (.receive q) => ReceiveInv q r
  | .busy (.send q) => SendInv q r

theorem inv_iff (r : Sequencer) : r.Inv ↔ FlagsInv r ∧ RangeInv r ∧ FreshInv r ∧ r.PointInv := Iff.rfl

@[simp] theorem pointInv_restAt_apply (q : ApplyPoint) (r : Sequencer) :
    (r.restAt (.apply q)).PointInv ↔ ApplyInv q r := Iff.rfl

@[simp] theorem pointInv_restAt_receive (q : ReceivePoint) (r : Sequencer) :
    (r.restAt (.receive q)).PointInv ↔ ReceiveInv q r := Iff.rfl

@[simp] theorem pointInv_restAt_send (q : SendPoint) (r : Sequencer) :
    (r.restAt (.send q)).PointInv ↔ SendInv q r := Iff.rfl

@[simp] theorem pointInv_finish (ok : Bool) (e : ErrCode) (r : Sequencer) : (r.finish ok e).PointInv := trivial

@[simp] theorem flagsInv_restAt (q : Point) (r : Sequencer) : FlagsInv (r.restAt q) ↔ FlagsInv r := Iff.rfl

theorem flagsInv_succeed (r : Sequencer) : FlagsInv (r.finish true .none) := .inr (.inl ⟨rfl, rfl⟩)

theorem flagsInv_fail {e : ErrCode} (he : e ≠ .none) (r : Sequencer) : FlagsInv (r.finish false e) :=
  .inr (.inr ⟨rfl, e, rfl, he⟩)

@[simp] theorem rangeInv_restAt (q : Point) (r : Sequencer) : RangeInv (r.restAt q) ↔ RangeInv r := Iff.rfl

@[simp] theorem rangeInv_finish (ok : Bool) (e : ErrCode) (r : Sequencer) : RangeInv (r.finish ok e) ↔ RangeInv r :=
  Iff.rfl

@[simp] theorem freshInv_restAt (q : Point) (r : Sequencer) : FreshInv (r.restAt q) ↔ FreshInv r := Iff.rfl

theorem freshInv_finish (ok : Bool) (e : ErrCode) {r : Sequencer} (h : FreshInv r) : FreshInv (r.finish ok e) := by
  refine freshInv_extend h (new := [.ok]) rfl ?_ fun o => ?_
  · simp [Sequencer.outValue, Sequencer.readOut]
  · cases o <;> simp [Sequencer.outValue, Sequencer.readOut]

@[simp] theorem holdsLock_restAt (q : Point) (r : Sequencer) : (r.restAt q).holdsLock = q.holdsLock := rfl

@[simp] theorem holdsLock_finish (ok : Bool) (e : ErrCode) (r : Sequencer) : (r.finish ok e).holdsLock = false := rfl

theorem holdsLock_idle {r : Sequencer} (h : r.seq = .idle) : r.holdsLock = false := by
  simp [Sequencer.holdsLock, h]

theorem holdsLock_busy {r : Sequencer} {q : Point} (h : r.seq = .busy q) : r.holdsLock = q.holdsLock := by
  simp [Sequencer.holdsLock, h]

/-! ## What one step does to the port -/

/-- What one step of agent `a` does to the port (R65): nothing, or one event. `out` is the byte the agent has to write,
and the two Booleans say whether it holds the lock before and after. Bytes are written and read under the lock alone. -/
inductive PortMove (a : Agent) (out : Option Byte) (p : Port) : Bool → Bool → Port → Prop where
  | stay (held : Bool) : PortMove a out p held held p
  | grant (h : p.lockOwner = none) : PortMove a out p false true { p with lockOwner := some a }
  | release (h : p.lockOwner = some a) : PortMove a out p true false { p with lockOwner := none }
  | write {b : Byte} (h : out = some b) : PortMove a out p true true (p.writeByte a b)
  | read {b : Byte} {rest : List Byte} (h : p.rxQ = b :: rest) :
      PortMove a out p true true { p with rxQ := rest, history := p.history ++ [.rd a b] }

namespace PortMove

variable {a : Agent} {out : Option Byte} {p p' : Port} {held held' : Bool}

/-- The lock register goes on agreeing with where the agent stands. -/
theorem owner_self (h : PortMove a out p held held' p') (ha : p.lockOwner = some a ↔ held = true) :
    p'.lockOwner = some a ↔ held' = true := by
  cases h with
  | stay | write | read => exact ha
  | grant | release => simp

/-- The lock changes between FREE and the agent alone. -/
theorem owner_other {b : Agent} (h : PortMove a out p held held' p') (hb : b ≠ a) :
    p'.lockOwner = some b ↔ p.lockOwner = some b := by
  cases h with
  | stay | write | read => rfl
  | grant h | release h => simp [h, hb.symm]

theorem wireOut_eq (h : PortMove a out p held held' p') : p'.wireOut = p.wireOut := by
  cases h <;> rfl

theorem rxQ_cases (h : PortMove a out p held held' p') : p'.rxQ = p.rxQ ∨ ∃ b, p.rxQ = b :: p'.rxQ := by
  cases h with
  | read h => exact .inr ⟨_, h⟩
  | stay | grant | release | write => exact .inl rfl

theorem txQ_cases (h : PortMove a out p held held' p') : p'.txQ = p.txQ ∨ ∃ b, out = some b ∧ p'.txQ = p.txQ ++ [b] := by
  cases h with
  | write h => exact .inr ⟨_, h, rfl⟩
  | stay | grant | release | read => exact .inl rfl

end PortMove

/-- The byte a transmit phase of `frame` writes at `t`. -/
def Tx.byte (frame : Option (List Byte)) : Tx → Option Byte
  | .write i => frame.bind (·[i]?)
  | _ => none

/-- Whether a transmit phase holds the lock after a step. -/
def TxNext.holdsLock : TxNext → Bool
  | .goto t => t.holdsLock
  | .sent => true
  | .timeout => false

/-- Whether a burst holds the lock after a step. -/
def BurstNext.holdsLock : BurstNext → Bool
  | .goto b => b.holdsLock
  | .byte _ b => b.holdsLock
  | .done => false
  | .timeout => false

theorem txStep_portMove {a : Agent} {c : LockChoice} {frame : Option (List Byte)} {t : Tx} {p p' : Port} {n : TxNext}
    (h : txStep a c frame t p = .ok (n, p')) : PortMove a (t.byte frame) p t.holdsLock n.holdsLock p' := by
  obtain ⟨rfl | rfl, hfree, rfl, rfl⟩ | ⟨rfl | rfl, rfl, rfl, -⟩ | ⟨rfl, rfl, rfl⟩ |
    ⟨i, bs, b, rfl, rfl, hb, rfl, rfl⟩ | ⟨i, bs, rfl, rfl, -, rfl, rfl⟩ | ⟨rfl, -, rfl, rfl⟩ | ⟨rfl, -, rfl, rfl⟩ :=
    txStep_ok h
  case inr.inr.inr.inl =>
    have hheld : (TxNext.goto (if i + 1 < bs.length then .write (i + 1) else .flush)).holdsLock = true := by
      split <;> rfl
    rw [hheld]
    exact .write hb
  case inl.inl | inl.inr => exact .grant hfree
  all_goals exact .stay _

theorem burstStep_portMove (out : Option Byte) {g : Granularity} {a : Agent} {c : LockChoice} {b : Burst} {p p' : Port}
    {n : BurstNext} (h : burstStep g a c b p = .ok (n, p')) : PortMove a out p b.holdsLock n.holdsLock p' := by
  have hgrant : (BurstNext.goto (afterGrant g)).holdsLock = true := by cases g <;> rfl
  obtain ⟨rfl, -, rfl, rfl⟩ | ⟨rfl, -, rfl, rfl⟩ | ⟨rfl | rfl, hfree, rfl, rfl⟩ | ⟨rfl | rfl, rfl, rfl, -⟩ |
    ⟨rfl, rfl, rfl⟩ | ⟨rfl, -, rfl, rfl⟩ | ⟨rfl, -, rfl, rfl⟩ | ⟨rfl, -, rfl, ⟨-, rfl⟩ | ⟨-, rfl⟩⟩ |
    ⟨v, rest, rfl, hq, rfl, ⟨-, rfl⟩ | ⟨-, rfl⟩⟩ | ⟨rfl, ho, rfl, rfl⟩ | ⟨v, rfl, ho, rfl, rfl⟩ | ⟨rfl, ho, rfl, rfl⟩ :=
    burstStep_ok h
  -- What is left when the steps without an event are closed: two grants, a read under each granularity, three releases.
  any_goals exact .stay _
  · exact hgrant ▸ .grant hfree
  · exact hgrant ▸ .grant hfree
  · exact .read hq
  · exact .read hq
  · exact .release ho
  · exact .release ho
  · exact .release ho

/-! ## What one step of a running operation does -/

/-- What a step of an operation at `q` writes into its registers, but for `ok`, `err` and `seq` (R41). -/
inductive RegisterWrite (r : Sequencer) : Point → Sequencer → Prop where
  | none (q : Point) : RegisterWrite r q r
  | startCount (q : ApplyPoint) :
      RegisterWrite r (.apply q) { r with respCnt := some 0, fresh := .respCnt :: r.fresh }
  | count (q : ApplyPoint) (n : Byte) : RegisterWrite r (.apply q) { r with respCnt := some n }
  | rxState (q : ReceivePoint) (x : RxState) : RegisterWrite r (.receive q) { r with rxState := x }
  | overflow (q : ReceivePoint) (n : Byte) :
      RegisterWrite r (.receive q) { r with accLen := some n, rxState := .overflow }
  | store (q : ReceivePoint) (n : Byte) (buf : Vector Byte 200) :
      RegisterWrite r (.receive q) { r with accLen := some n, rxBuf := some buf }
  | done (q : ReceivePoint) (n : Byte) (w : Word16) :
      RegisterWrite r (.receive q)
        { r with rxState := .done, rxLen := some n, rxRssi := some w, fresh := .rxLen :: .rxRssi :: r.fresh }

namespace RegisterWrite

variable {r r' : Sequencer} {q : Point}

theorem flags_eq (h : RegisterWrite r q r') : r'.ok = r.ok ∧ r'.err = r.err := by
  cases h <;> exact ⟨rfl, rfl⟩

theorem keeps_flagsInv (h : RegisterWrite r q r') (hr : FlagsInv r) : FlagsInv r' := by
  obtain ⟨hok, herr⟩ := h.flags_eq
  simpa only [FlagsInv, hok, herr] using hr

theorem keeps_outValue (h : RegisterWrite r q r') {o : OutReg} (ho : (r.outValue o).isSome) :
    (r'.outValue o).isSome := by
  cases h <;> cases o <;> simp_all [Sequencer.outValue, Sequencer.readOut]

theorem keeps_freshInv (h : RegisterWrite r q r') (hr : FreshInv r) : FreshInv r' := by
  have hkeep : ∀ o, (r.outValue o).isSome → (r'.outValue o).isSome := fun _ => h.keeps_outValue
  cases h with
  | none | count | rxState | overflow | store => exact freshInv_extend hr (new := []) rfl (by simp) hkeep
  | startCount =>
    exact freshInv_extend hr (new := [.respCnt]) rfl (by simp [Sequencer.outValue, Sequencer.readOut]) hkeep
  | done =>
    exact freshInv_extend hr (new := [.rxLen, .rxRssi]) rfl (by simp [Sequencer.outValue, Sequencer.readOut]) hkeep

end RegisterWrite

/-- The byte an operation's `WriteByte` at `q` sends (R52). -/
def Sequencer.byteAt (r : Sequencer) : Point → Option Byte
  | .apply (.a2 t) => t.byte (r.cmd.map Vector.toList)
  | .send (.s3 t) => t.byte r.txFrame
  | _ => none

/-- Everything a step of sequencer `k`'s operation at `q` can do: at most one port event and one write of its registers,
after which it rests at its next point, succeeds without the lock, or fails and gives the lock up (R65, R203). An overflow
may rest at the release of a lock the port says is the sequencer's. -/
inductive OpStep (k : Nat) (q : Point) (r : Sequencer) (s : State) : State → Prop where
  | rest {r' : Sequencer} {p : Port} {held : Bool} (q' : Point) (hr : RegisterWrite r q r')
      (hp : PortMove (.sequencer k) (r.byteAt q) s.port q.holdsLock held p)
      (hq : held = q'.holdsLock ∨ (p.lockOwner = some (.sequencer k) ∧ q'.holdsLock = true)) :
      OpStep k q r s (s.put k (r'.restAt q') p)
  | succeed {r' : Sequencer} {p : Port} (hr : RegisterWrite r q r')
      (hp : PortMove (.sequencer k) (r.byteAt q) s.port q.holdsLock false p) :
      OpStep k q r s (s.put k (r'.finish true .none) p)
  | fail {r' : Sequencer} {p : Port} {held : Bool} {e : ErrCode} (he : e ≠ .none) (hr : RegisterWrite r q r')
      (hp : PortMove (.sequencer k) (r.byteAt q) s.port q.holdsLock held p) :
      OpStep k q r s (s.put k (r'.finish false e) (unlockedBy k p))

theorem applyResume_opStep {k : Nat} {c : LockChoice} {q : ApplyPoint} {r : Sequencer} {s t : State}
    (h : applyResume k c q r s = .next t) : OpStep k (.apply q) r s t := by
  obtain ⟨r', p', rfl, hcase⟩ := applyResume_next h
  obtain ⟨x, x', rfl, hx, rfl⟩ | ⟨x, rfl, hx, rfl⟩ | ⟨x, p1, rfl, hx, rfl, rfl⟩ | ⟨rfl, ho, rfl, rfl⟩ | ⟨rfl, rfl, rfl⟩ |
    ⟨b, b', rfl, hb, rfl⟩ | ⟨b, v, b', n, rfl, hb, -, rfl⟩ | ⟨b, n, rfl, hb, -, -, rfl⟩ |
    ⟨b, n, p1, rfl, hb, -, -, rfl, rfl⟩ | ⟨b, p1, rfl, hb, rfl, rfl⟩ := hcase
  · exact .rest _ (.none _) (txStep_portMove hx) (.inl rfl)
  · exact .rest _ (.none _) (txStep_portMove hx) (.inl rfl)
  · exact .fail (by decide) (.none _) (txStep_portMove hx)
  · exact .rest _ (.startCount _) (.release ho) (.inl rfl)
  · exact .rest _ (.none _) (.stay _) (.inl rfl)
  · exact .rest _ (.none _) (burstStep_portMove _ hb) (.inl rfl)
  · exact .rest _ (.count _ _) (burstStep_portMove _ hb) (.inl rfl)
  · exact .succeed (.none _) (burstStep_portMove _ hb)
  · exact .fail (by decide) (.none _) (burstStep_portMove _ hb)
  · exact .fail (by decide) (.none _) (burstStep_portMove _ hb)

theorem receiveResume_opStep {k : Nat} {c : LockChoice} {q : ReceivePoint} {r : Sequencer} {s t : State}
    (h : receiveResume k c q r s = .next t) : OpStep k (.receive q) r s t := by
  obtain ⟨r', p', rfl, hcase⟩ := receiveResume_next h
  obtain ⟨rfl, -, rfl, rfl⟩ | ⟨rfl | rfl, -, rfl, rfl⟩ | ⟨rfl, rfl, rfl⟩ | ⟨b, b', rfl, hb, rfl⟩ |
    ⟨b, v, b', p1, rfl, hb, hbyte⟩ | ⟨b, rfl, hb, -, rfl⟩ | ⟨b, n, rfl, hb, -, -, rfl⟩ | ⟨b, p1, rfl, hb, rfl, rfl⟩ |
    ⟨rfl, rfl, rfl⟩ | ⟨rfl, rfl, rfl⟩ | ⟨rfl, -, rfl, n, buf, b, -, -, -, rfl⟩ := hcase
  · exact .rest _ (.none _) (.stay _) (.inl rfl)
  · exact .rest _ (.rxState _ _) (.stay _) (.inl rfl)
  · exact .rest _ (.rxState _ _) (.stay _) (.inl rfl)
  · exact .rest _ (.none _) (.stay _) (.inl rfl)
  · exact .rest _ (.none _) (burstStep_portMove _ hb) (.inl rfl)
  · have hp := burstStep_portMove (r.byteAt (.receive (.x2 b))) hb
    obtain ⟨n, r2, p2, -, ht, ⟨-, ho, rfl, rfl⟩ | ⟨-, ho, rfl, rfl⟩ | ⟨hn, buf, -, rfl, rfl⟩⟩ := receiveByte_next hbyte <;>
      rw [ht]
    · exact .rest _ (.overflow _ _) hp (.inr ⟨ho, rfl⟩)
    · have hfail := OpStep.fail (e := .frameTooLarge) (by decide) (.overflow (r := r) (.x2 b) (n + 1)) hp
      rwa [unlockedBy, if_neg ho] at hfail
    · exact .rest _ (.store _ _ _) hp (.inl rfl)
  · exact .rest _ (.rxState _ _) (burstStep_portMove _ hb) (.inl rfl)
  · exact .rest _ (.rxState _ _) (burstStep_portMove _ hb) (.inl rfl)
  · exact .fail (by decide) (.none _) (burstStep_portMove _ hb)
  · exact .fail (by decide) (.none _) (.stay _)
  · exact .rest _ (.none _) (.stay _) (.inl rfl)
  · exact .succeed (.done _ _ _) (.stay _)

/-- SEND holds the lock at every point but those of its transmit phase before the grant (R174). -/
theorem sendPoint_holdsLock {q : SendPoint} (h : ∀ x, q ≠ .s3 x) : Point.holdsLock (.send q) = true := by
  cases q with
  | s3 x => exact absurd rfl (h x)
  | s4Delay | s5Avail | s5More | s5Read | s5Gap | s5Release => rfl

theorem sendResume_opStep {k : Nat} {c : LockChoice} {q : SendPoint} {r : Sequencer} {s t : State}
    (h : sendResume k c q r s = .next t) : OpStep k (.send q) r s t := by
  obtain ⟨r', p', rfl, hcase⟩ := sendResume_next h
  obtain ⟨x, x', rfl, hx, rfl⟩ | ⟨x, rfl, hx, rfl⟩ | ⟨x, p1, rfl, hx, rfl, rfl⟩ | ⟨q', -, -, hq, hq', rfl, rfl⟩ |
    ⟨rfl, -, rfl, rfl⟩ | ⟨b, rest, rfl, hq, rfl, rfl⟩ | ⟨rfl, ho, rfl, rfl⟩ := hcase
  · exact .rest _ (.none _) (txStep_portMove hx) (.inl rfl)
  · exact .rest _ (.none _) (txStep_portMove hx) (.inl rfl)
  · exact .fail (by decide) (.none _) (txStep_portMove hx)
  · exact .rest _ (.none _) (.stay _) (.inl ((sendPoint_holdsLock hq).trans (sendPoint_holdsLock hq').symm))
  · exact .rest _ (.none _) (.stay _) (.inl rfl)
  · exact .rest _ (.none _) (.read hq) (.inl rfl)
  · exact .succeed (.none _) (.release ho)

/-- A running operation's step is one of those `OpStep` lists. -/
theorem resume_opStep {k : Nat} {c : LockChoice} {q : Point} {r : Sequencer} {s t : State}
    (h : resume k c q r s = .next t) : OpStep k q r s t := by
  cases q with
  | apply q => exact applyResume_opStep h
  | receive q => exact receiveResume_opStep h
  | send q => exact sendResume_opStep h

/-! ## The registers at an operation's points -/

/-- A transmit phase goes on to no byte past its frame's end. -/
theorem txStep_write_lt {a : Agent} {c : LockChoice} {bs : List Byte} {t : Tx} {p p' : Port} {i : Nat}
    (h : txStep a c (some bs) t p = .ok (.goto (.write i), p')) (hbs : 0 < bs.length) : i < bs.length := by
  obtain ⟨-, -, hn, -⟩ | ⟨-, hn, -⟩ | ⟨-, hn, -⟩ | ⟨j, bs', b, -, hf, -, -, hn⟩ | ⟨j, bs', -, -, -, hn, -⟩ |
    ⟨-, -, hn, -⟩ | ⟨-, -, hn, -⟩ := txStep_ok h
  case inr.inr.inr.inl =>
    cases hf
    split at hn <;> cases hn
    assumption
  case inl => cases hn; exact hbs
  all_goals cases hn

/-- A running APPLY keeps the ranges and holds at its next point what that point says (R120, R121). -/
theorem applyResume_keeps {k : Nat} {c : LockChoice} {q : ApplyPoint} {r : Sequencer} {s t : State}
    (h : applyResume k c q r s = .next t) (hr : RangeInv r) (hq : ApplyInv q r) :
    ∃ r' p', t = s.put k r' p' ∧ RangeInv r' ∧ r'.PointInv := by
  obtain ⟨r', p', rfl, hcase⟩ := applyResume_next h
  refine ⟨r', p', rfl, ?_⟩
  obtain ⟨hframe, hpoint⟩ := hq
  obtain ⟨x, x', rfl, hx, rfl⟩ | ⟨x, rfl, hx, rfl⟩ | ⟨x, p1, rfl, hx, rfl, rfl⟩ | ⟨rfl, ho, rfl, rfl⟩ | ⟨rfl, rfl, rfl⟩ |
    ⟨b, b', rfl, hb, rfl⟩ | ⟨b, v, b', n, rfl, hb, -, rfl⟩ | ⟨b, n, rfl, hb, -, -, rfl⟩ |
    ⟨b, n, p1, rfl, hb, -, -, rfl, rfl⟩ | ⟨b, p1, rfl, hb, rfl, rfl⟩ := hcase
  · refine ⟨hr, hframe, ?_⟩
    obtain ⟨e, -, -, hcmd⟩ := hframe
    cases x' with
    | write i =>
      rw [hcmd] at hx
      simpa using txStep_write_lt hx (by simp)
    | acquire | wait | flush => trivial
  · exact ⟨hr, hframe, trivial⟩
  · exact ⟨hr, trivial⟩
  · exact ⟨hr, hframe, rfl⟩
  · exact ⟨hr, hframe, Option.isSome_of_eq_some hpoint⟩
  · exact ⟨hr, hframe, hpoint⟩
  · exact ⟨hr, hframe, rfl⟩
  · exact ⟨hr, trivial⟩
  · exact ⟨hr, trivial⟩
  · exact ⟨hr, trivial⟩

@[simp] theorem outboundFrame_length (addr : Word16) (ch : Byte) (payload : List Byte) :
    (outboundFrame addr ch payload).length = 3 + payload.length := by
  simp only [outboundFrame, List.cons_append, List.nil_append, List.length_cons]
  omega

/-- A running SEND keeps the ranges and holds its frame at its next point (R170 to R173). -/
theorem sendResume_keeps {k : Nat} {c : LockChoice} {q : SendPoint} {r : Sequencer} {s t : State}
    (h : sendResume k c q r s = .next t) (hr : RangeInv r) (hq : SendInv q r) :
    ∃ r' p', t = s.put k r' p' ∧ RangeInv r' ∧ r'.PointInv := by
  obtain ⟨r', p', rfl, hcase⟩ := sendResume_next h
  refine ⟨r', p', rfl, ?_⟩
  obtain ⟨sp, addr, ch, payload, hsp, haddr, hch, hframe, hmax, hlen, -⟩ := hq
  obtain ⟨x, x', rfl, hx, rfl⟩ | ⟨x, rfl, hx, rfl⟩ | ⟨x, p1, rfl, hx, rfl, rfl⟩ | ⟨q', -, -, hq, hq', rfl, rfl⟩ |
    ⟨rfl, -, rfl, rfl⟩ | ⟨b, rest, rfl, hq, rfl, rfl⟩ | ⟨rfl, ho, rfl, rfl⟩ := hcase
  · refine ⟨hr, sp, addr, ch, payload, hsp, haddr, hch, hframe, hmax, hlen, ?_⟩
    cases x' with
    | write i =>
      rw [hframe] at hx
      simpa using txStep_write_lt hx (by simp)
    | acquire | wait | flush => trivial
  · exact ⟨hr, sp, addr, ch, payload, hsp, haddr, hch, hframe, hmax, hlen, trivial⟩
  · exact ⟨hr, trivial⟩
  · refine ⟨hr, sp, addr, ch, payload, hsp, haddr, hch, hframe, hmax, hlen, ?_⟩
    cases q' with
    | s3 x => exact absurd rfl (hq' x)
    | s4Delay | s5Avail | s5More | s5Read | s5Gap | s5Release => trivial
  · exact ⟨hr, sp, addr, ch, payload, hsp, haddr, hch, hframe, hmax, hlen, trivial⟩
  · exact ⟨hr, sp, addr, ch, payload, hsp, haddr, hch, hframe, hmax, hlen, trivial⟩
  · exact ⟨hr, trivial⟩

/-- The RSSI decode of a byte lies in the range of R33. -/
theorem rssiOf_range (b : Byte) : -256 ≤ (rssiOf b).toInt ∧ (rssiOf b).toInt ≤ -1 := by
  have hb := b.isLt
  have h : (rssiOf b).toNat = 65280 + b.toNat := by
    unfold rssiOf
    bv_omega
  rw [BitVec.toInt_eq_toNat_cond, h]
  omega

/-- `acc_len` does not wrap within its range (R33). -/
theorem accLen_succ_toNat {n : Byte} (h : n.toNat ≤ 200) : (n + 1).toNat = n.toNat + 1 := by
  bv_omega

/-- `rx_len` is one less than a count that is not 0 (R145). -/
theorem accLen_pred_toNat {n : Byte} (h : 1 ≤ n.toNat) : (n - 1).toNat = n.toNat - 1 := by
  bv_omega

theorem rangeInv_accLen {r : Sequencer} {n : Byte} (h : RangeInv r) (hn : n.toNat ≤ 201) :
    RangeInv { r with accLen := some n } := by
  obtain ⟨-, hrest⟩ := h
  refine ⟨fun m hm => ?_, hrest⟩
  cases hm
  exact hn

/-- `on_byte` of X2 keeps the ranges, stores the byte behind those stored before, and counts it (R143). -/
theorem receiveByte_keeps {k : Nat} {v : Byte} {b b' : Burst} {r : Sequencer} {p : Port} {s t : State}
    (h : receiveByte k v b' r p s = .next t) (hr : RangeInv r) (hq : ReceiveInv (.x2 b) r) :
    ∃ r' p', t = s.put k r' p' ∧ RangeInv r' ∧ r'.PointInv := by
  obtain ⟨⟨n, buf, hn, hbuf, hzero, hle, hstate⟩, hlen, hrssi⟩ := hq
  obtain ⟨n', r', p', hn', rfl, hcase⟩ := receiveByte_next h
  refine ⟨r', p', rfl, ?_⟩
  obtain rfl : n = n' := Option.some.inj (hn.symm.trans hn')
  have hsucc := accLen_succ_toNat hle
  have hrange : RangeInv { r with accLen := some (n + 1) } := rangeInv_accLen hr (by omega)
  have hzero' : ∀ (j : Nat) (h : j < 200), (n + 1).toNat ≤ j → buf[j] = 0 := fun j hj h => hzero j hj (by omega)
  obtain ⟨hge, -, -, rfl⟩ | ⟨-, -, -, rfl⟩ | ⟨hlt, buf', hbuf', -, rfl⟩ := hcase
  · exact ⟨hrange, ⟨n + 1, buf, rfl, hbuf, hzero', by omega, rfl⟩, hlen, hrssi⟩
  · exact ⟨hrange, trivial⟩
  · obtain rfl : buf = buf' := Option.some.inj (hbuf.symm.trans hbuf')
    refine ⟨hrange, ⟨n + 1, _, rfl, rfl, fun j hj hnj => ?_, by omega, hstate⟩, hlen, hrssi⟩
    rw [Vector.getElem_set_ne (h := by omega)]
    exact hzero' j hj hnj

/-- A running RECEIVE keeps the ranges and holds at its next point what that point says (R140 to R145). -/
theorem receiveResume_keeps {k : Nat} {c : LockChoice} {q : ReceivePoint} {r : Sequencer} {s t : State}
    (h : receiveResume k c q r s = .next t) (hr : RangeInv r) (hq : ReceiveInv q r) :
    ∃ r' p', t = s.put k r' p' ∧ RangeInv r' ∧ r'.PointInv := by
  obtain ⟨⟨n, buf, hn, hbuf, hzero, hpoint⟩, hlen, hrssi⟩ := id hq
  obtain ⟨r', p', rfl, hcase⟩ := receiveResume_next h
  obtain ⟨rfl, -, rfl, rfl⟩ | ⟨rfl | rfl, -, rfl, rfl⟩ | ⟨rfl, rfl, rfl⟩ | ⟨b, b', rfl, hb, rfl⟩ |
    ⟨b, v, b', p1, rfl, hb, hbyte⟩ | ⟨b, rfl, hb, hn', rfl⟩ | ⟨b, n', rfl, hb, hn', hpos, rfl⟩ |
    ⟨b, p1, rfl, hb, rfl, rfl⟩ | ⟨rfl, rfl, rfl⟩ | ⟨rfl, rfl, rfl⟩ |
    ⟨rfl, -, rfl, n', buf', b, hn', hbuf', hb, rfl⟩ := hcase
  · exact ⟨_, _, rfl, hr, ⟨n, buf, hn, hbuf, hzero, hpoint⟩, hlen, hrssi⟩
  · obtain ⟨rfl, -⟩ := hpoint
    exact ⟨_, _, rfl, hr, ⟨0, buf, hn, hbuf, hzero, by decide, rfl⟩, hlen, hrssi⟩
  · obtain ⟨-, hle, -⟩ := hpoint
    exact ⟨_, _, rfl, hr, ⟨n, buf, hn, hbuf, hzero, hle, rfl⟩, hlen, hrssi⟩
  · exact ⟨_, _, rfl, hr, ⟨n, buf, hn, hbuf, hzero, hpoint⟩, hlen, hrssi⟩
  · exact ⟨_, _, rfl, hr, ⟨n, buf, hn, hbuf, hzero, hpoint⟩, hlen, hrssi⟩
  · exact receiveByte_keeps hbyte hr hq
  · obtain rfl : n = 0 := Option.some.inj (hn.symm.trans hn')
    exact ⟨_, _, rfl, hr, ⟨0, buf, hn, hbuf, hzero, rfl, rfl⟩, hlen, hrssi⟩
  · obtain rfl : n = n' := Option.some.inj (hn.symm.trans hn')
    obtain ⟨hle, -⟩ := hpoint
    have hpos' : 1 ≤ n.toNat := by bv_omega
    exact ⟨_, _, rfl, hr, ⟨n, buf, hn, hbuf, hzero, hpos', hle, rfl⟩, hlen, hrssi⟩
  · exact ⟨_, _, rfl, hr, trivial⟩
  · exact ⟨_, _, rfl, hr, trivial⟩
  · exact ⟨_, _, rfl, hr, ⟨n, buf, hn, hbuf, hzero, hpoint⟩, hlen, hrssi⟩
  · obtain rfl : n = n' := Option.some.inj (hn.symm.trans hn')
    obtain ⟨hpos, hle, -⟩ := hpoint
    obtain ⟨hacc, -, hmax⟩ := hr
    have hpred := accLen_pred_toNat hpos
    exact ⟨_, _, rfl, ⟨hacc, .inr ⟨n - 1, rssiOf b, rfl, rfl, by omega, rssiOf_range b⟩, hmax⟩, trivial⟩

/-! ## Putting a sequencer and a port into the state -/

/-- The state determines the registers and the port last put into it. -/
theorem put_inj {k : Nat} {r r' : Sequencer} {p p' : Port} {s : State} (hk : k < s.seqs.length)
    (h : s.put k r p = s.put k r' p') : r = r' ∧ p = p' := by
  have hseqs : (s.put k r p).seqs[k]? = (s.put k r' p').seqs[k]? := by rw [h]
  have hport : (s.put k r p).port = (s.put k r' p').port := by rw [h]
  simp only [put_seqs, List.getElem?_set_self hk] at hseqs
  exact ⟨Option.some.inj hseqs, hport⟩

theorem lt_length_of_getElem? {k : Nat} {r : Sequencer} {s : State} (h : s.seqs[k]? = some r) : k < s.seqs.length :=
  (List.getElem?_eq_some_iff.mp h).1

/-- The registers put into the state are those found there. -/
theorem put_getElem? {k : Nat} {r₀ r r' : Sequencer} {p : Port} {s : State} (h₀ : s.seqs[k]? = some r₀)
    (h : (s.put k r p).seqs[k]? = some r') : r' = r := by
  rw [put_seqs, List.getElem?_set_self (lt_length_of_getElem? h₀)] at h
  exact (Option.some.inj h).symm

/-- Where sequencer `k`'s new registers agree with the new lock register, and the lock moved only to or from it, the lock
register agrees with every sequencer. -/
theorem put_keeps_lockInv {k : Nat} {r : Sequencer} {p : Port} {s : State} (hs : LockInv s) (hk : k < s.seqs.length)
    (hself : p.lockOwner = some (.sequencer k) ↔ r.holdsLock = true)
    (hother : ∀ j, j ≠ k → (p.lockOwner = some (.sequencer j) ↔ s.port.lockOwner = some (.sequencer j))) :
    LockInv (s.put k r p) := by
  intro j
  by_cases hj : j = k
  · subst hj
    simp [hself, hk]
  · rw [put_port, hother j hj, hs j, put_seqs, List.getElem?_set_ne (Ne.symm hj)]

theorem put_keeps_inv {k : Nat} {r : Sequencer} {p : Port} {s : State} (hs : s.Inv) (hk : k < s.seqs.length)
    (hr : r.Inv) (hself : p.lockOwner = some (.sequencer k) ↔ r.holdsLock = true)
    (hother : ∀ j, j ≠ k → (p.lockOwner = some (.sequencer j) ↔ s.port.lockOwner = some (.sequencer j))) :
    (s.put k r p).Inv := by
  obtain ⟨hpos, hlock, hseqs⟩ := hs
  refine ⟨by simpa using hpos, put_keeps_lockInv hlock hk hself hother, fun x hx => ?_⟩
  obtain hx | rfl := List.mem_or_eq_of_mem_set hx
  · exact hseqs x hx
  · exact hr

/-- `LockInv` at one sequencer. -/
theorem lockInv_self {k : Nat} {r : Sequencer} {s : State} (hs : LockInv s) (hr : s.seqs[k]? = some r) :
    s.port.lockOwner = some (.sequencer k) ↔ r.holdsLock = true := by
  simp [hs k, hr]

/-- A change of the port alone keeps the invariant where it gives no sequencer the lock and takes it from none. -/
theorem port_keeps_inv {p : Port} {s : State} (hs : s.Inv)
    (hp : ∀ j, p.lockOwner = some (.sequencer j) ↔ s.port.lockOwner = some (.sequencer j)) :
    State.Inv { s with port := p } := by
  obtain ⟨hpos, hlock, hseqs⟩ := hs
  exact ⟨hpos, fun j => (hp j).trans (hlock j), hseqs⟩

/-! ## Every move keeps the invariant -/

theorem unlockedBy_owner_self (k : Nat) (p : Port) : (unlockedBy k p).lockOwner ≠ some (.sequencer k) := by
  by_cases h : p.lockOwner = some (.sequencer k) <;> simp [h]

theorem unlockedBy_owner_other {k j : Nat} (p : Port) (h : j ≠ k) :
    (unlockedBy k p).lockOwner = some (.sequencer j) ↔ p.lockOwner = some (.sequencer j) := by
  by_cases hk : p.lockOwner = some (.sequencer k) <;> simp [hk, h.symm]

/-- A step of an operation keeps the rules for `ok` and `err` and for fresh registers, and the lock's agreement with it. -/
theorem OpStep.keeps {k : Nat} {q : Point} {r : Sequencer} {s t : State} (h : OpStep k q r s t) (hflags : FlagsInv r)
    (hfresh : FreshInv r) (hself : s.port.lockOwner = some (.sequencer k) ↔ q.holdsLock = true) :
    ∃ r' p', t = s.put k r' p' ∧ FlagsInv r' ∧ FreshInv r' ∧
      (p'.lockOwner = some (.sequencer k) ↔ r'.holdsLock = true) ∧
      ∀ j, j ≠ k → (p'.lockOwner = some (.sequencer j) ↔ s.port.lockOwner = some (.sequencer j)) := by
  have hne : ∀ j, j ≠ k → Agent.sequencer j ≠ .sequencer k := by simp
  cases h with
  | rest q' hr hp hq =>
    refine ⟨_, _, rfl, hr.keeps_flagsInv hflags, hr.keeps_freshInv hfresh, ?_, fun j hj => hp.owner_other (hne j hj)⟩
    obtain rfl | ⟨ho, hheld⟩ := hq
    · exact hp.owner_self hself
    · simp [ho, hheld]
  | succeed hr hp =>
    exact ⟨_, _, rfl, flagsInv_succeed _, freshInv_finish _ _ (hr.keeps_freshInv hfresh), hp.owner_self hself,
      fun j hj => hp.owner_other (hne j hj)⟩
  | fail he hr hp =>
    refine ⟨_, _, rfl, flagsInv_fail he _, freshInv_finish _ _ (hr.keeps_freshInv hfresh), ?_, fun j hj => ?_⟩
    · exact iff_of_false (unlockedBy_owner_self k _) Bool.false_ne_true
    · rw [unlockedBy_owner_other _ hj]
      exact hp.owner_other (hne j hj)

/-- A running operation keeps the ranges and holds at its next point what that point says. -/
theorem resume_keeps_registers {k : Nat} {c : LockChoice} {q : Point} {r : Sequencer} {s t : State}
    (h : resume k c q r s = .next t) (hq : r.seq = .busy q) (hrange : RangeInv r) (hpoint : r.PointInv) :
    ∃ r' p', t = s.put k r' p' ∧ RangeInv r' ∧ r'.PointInv := by
  simp only [Sequencer.PointInv, hq] at hpoint
  cases q with
  | apply q => exact applyResume_keeps h hrange hpoint
  | receive q => exact receiveResume_keeps h hrange hpoint
  | send q => exact sendResume_keeps h hrange hpoint

theorem resume_keeps_inv {k : Nat} {c : LockChoice} {q : Point} {r : Sequencer} {s t : State} (hs : s.Inv)
    (hr : s.seqs[k]? = some r) (hq : r.seq = .busy q) (h : resume k c q r s = .next t) : t.Inv := by
  have hk := lt_length_of_getElem? hr
  obtain ⟨-, hlock, hseqs⟩ := id hs
  obtain ⟨hflags, hrange, hfresh, hpoint⟩ := (inv_iff r).mp (hseqs r (List.mem_of_getElem? hr))
  have hself := (lockInv_self hlock hr).trans (by rw [holdsLock_busy hq])
  obtain ⟨r', p', rfl, hflags', hfresh', hself', hother'⟩ := (resume_opStep h).keeps hflags hfresh hself
  obtain ⟨r₂, p₂, heq, hrange', hpoint'⟩ := resume_keeps_registers h hq hrange hpoint
  obtain ⟨rfl, rfl⟩ := put_inj hk heq
  exact put_keeps_inv hs hk ⟨hflags', hrange', hfresh', hpoint'⟩ hself' hother'

theorem maxPayOf_mem (code : Nat) :
    maxPayOf code = 200 ∨ maxPayOf code = 128 ∨ maxPayOf code = 64 ∨ maxPayOf code = 32 := by
  unfold maxPayOf
  split <;> simp

theorem maxPayOf_le (code : Nat) : (maxPayOf code).toNat ≤ 200 := by
  obtain h | h | h | h := maxPayOf_mem code <;> rw [h] <;> decide

theorem rangeInv_maxPay {r : Sequencer} (h : RangeInv r) (code : Nat) :
    RangeInv { r with maxPay := some (maxPayOf code) } := by
  obtain ⟨hacc, hlen, -, hframe⟩ := h
  refine ⟨hacc, hlen, fun m hm => ?_, hframe⟩
  cases hm
  exact maxPayOf_mem code

theorem rangeInv_txFrame {r : Sequencer} (h : RangeInv r) {f : List Byte} (hf : 3 ≤ f.length ∧ f.length ≤ 203) :
    RangeInv { r with txFrame := some f } := by
  obtain ⟨hacc, hlen, hmax, -⟩ := h
  refine ⟨hacc, hlen, hmax, fun g hg => ?_⟩
  cases hg
  exact hf

/-- Acceptance records as written only registers to which it gives a value (R38). -/
theorem exec_freshInv {i : Instr} {s t : State} {r' : Sequencer} (h : exec i s = .next t)
    (hr' : t.seqs[s.cur]? = some r') : FreshInv r' := by
  obtain ⟨r, r₁, hr, -, rfl, hcase⟩ := exec_next h
  obtain rfl := put_getElem? hr hr'
  rw [freshInv_iff]
  obtain ⟨v, -, rfl⟩ | ⟨cfg, e, -, -, rfl⟩ | ⟨cfg, e, -, -, -, rfl⟩ | ⟨cfg, ch, -, -, -, rfl⟩ | ⟨-, rfl⟩ |
    ⟨cfg, payload, sp, -, -, -, rfl⟩ | ⟨cfg, payload, sp, addr, ch, -, -, -, -, -, rfl⟩ | ⟨-, rfl⟩ := hcase <;>
    simp [Sequencer.outValue, Sequencer.readOut]

/-- The registers of a sequencer that has just accepted a request meet the invariant, and it does not hold the lock. -/
theorem exec_keeps_sequencer {i : Instr} {s t : State} (h : exec i s = .next t) (hs : ∀ r ∈ s.seqs, r.Inv) :
    ∃ r r', s.seqs[s.cur]? = some r ∧ r.seq = .idle ∧ t = s.put s.cur r' s.port ∧ r'.Inv ∧ r'.holdsLock = false := by
  obtain ⟨r, r', hr, hi, rfl, hcase⟩ := exec_next h
  refine ⟨r, r', hr, hi, rfl, ?_⟩
  obtain ⟨hflags, hrange, -⟩ := (inv_iff r).mp (hs r (List.mem_of_getElem? hr))
  have hfresh := exec_freshInv h (List.getElem?_set_self (lt_length_of_getElem? hr))
  rw [inv_iff]
  obtain ⟨v, -, rfl⟩ | ⟨cfg, e, -, -, rfl⟩ | ⟨cfg, e, -, he, hch, rfl⟩ | ⟨cfg, ch, -, -, -, rfl⟩ | ⟨-, rfl⟩ |
    ⟨cfg, payload, sp, -, -, -, rfl⟩ | ⟨cfg, payload, sp, addr, ch, -, hsp, haddr, hch, hlen, rfl⟩ | ⟨-, rfl⟩ := hcase
  · exact ⟨⟨flagsInv_succeed _, hrange, hfresh, trivial⟩, rfl⟩
  · exact ⟨⟨flagsInv_succeed _, hrange, hfresh, trivial⟩, rfl⟩
  · exact ⟨⟨hflags, hrange, hfresh, ⟨e, he, hch, rfl⟩, trivial⟩, rfl⟩
  · exact ⟨⟨flagsInv_fail (by decide) _, hrange, hfresh, trivial⟩, rfl⟩
  · obtain ⟨hacc, -, hrest⟩ := rangeInv_accLen hrange (n := 0) (by decide)
    refine ⟨⟨hflags, ⟨hacc, .inl ⟨rfl, rfl⟩, hrest⟩, hfresh, ⟨0, _, rfl, rfl, fun j hj _ => ?_, rfl, rfl⟩, rfl, rfl⟩, rfl⟩
    exact Vector.getElem_replicate hj
  · exact ⟨⟨flagsInv_fail (by decide) _, rangeInv_maxPay hrange _, hfresh, trivial⟩, rfl⟩
  · have hframe : 3 ≤ (outboundFrame addr ch payload).length ∧ (outboundFrame addr ch payload).length ≤ 203 := by
      have hmax := maxPayOf_le sp.toNat
      simp only [outboundFrame_length]
      omega
    exact ⟨⟨hflags, rangeInv_txFrame (rangeInv_maxPay hrange _) hframe, hfresh,
      sp, addr, ch, payload, hsp, haddr, hch, rfl, rfl, hlen, trivial⟩, rfl⟩
  · exact ⟨⟨flagsInv_fail (by decide) _, hrange, hfresh, trivial⟩, rfl⟩

theorem exec_keeps_inv {i : Instr} {s t : State} (h : exec i s = .next t) (hs : s.Inv) : t.Inv := by
  obtain ⟨-, hlock, hseqs⟩ := id hs
  obtain ⟨r, r', hr, hi, rfl, hinv, hheld⟩ := exec_keeps_sequencer h hseqs
  refine put_keeps_inv hs (lt_length_of_getElem? hr) hinv ?_ fun _ _ => Iff.rfl
  rw [lockInv_self hlock hr, holdsLock_idle hi, hheld]

/-- The requests a sequencer holds are no matter of the invariant. -/
theorem setHeld_keeps_inv {k : Nat} {r : Sequencer} {s : State} (hs : s.Inv) (hr : s.seqs[k]? = some r)
    (held : List Request) : (s.put k { r with held := held } s.port).Inv := by
  obtain ⟨-, hlock, hseqs⟩ := id hs
  have hself := lockInv_self hlock hr
  exact put_keeps_inv hs (lt_length_of_getElem? hr) (hseqs r (List.mem_of_getElem? hr)) hself fun _ _ => Iff.rfl

theorem advance_keeps_inv {k : Nat} {c : LockChoice} {s t : State} (h : advance k c s = .next t) (hs : s.Inv) :
    t.Inv := by
  obtain rfl | ⟨r, q, qs, hr, -, -, h⟩ | ⟨r, q, hr, hq, h⟩ := advance_next h
  · exact hs
  · exact exec_keeps_inv h (setHeld_keeps_inv hs hr qs)
  · exact resume_keeps_inv hs hr hq h

theorem present_keeps_inv {k : Nat} {q : Request} {s : State} (hs : s.Inv) : (present k q s).Inv := by
  unfold present
  split
  · exact hs
  · next r hr => exact setHeld_keeps_inv hs hr _

/-- A host's read changes nothing (R217). -/
theorem hostRead_next {k : Nat} {o : OutReg} {s t : State} (h : hostRead k o s = .next t) : t = s := by
  unfold hostRead at h
  split at h
  · cases h; rfl
  · split at h
    · cases h; rfl
    · obtain ⟨_, -, h⟩ := readWritten_next h
      cases h; rfl

theorem arrive_lockOwner (cap : Option Nat) (b : Byte) (p : Port) : (p.arrive cap b).lockOwner = p.lockOwner := by
  unfold Port.arrive
  split
  · split <;> rfl
  · rfl

theorem transmit_lockOwner (p : Port) : p.transmit.lockOwner = p.lockOwner := by
  unfold Port.transmit
  split <;> rfl

theorem readByte_lockOwner (a : Agent) (p : Port) : (p.readByte a).2.lockOwner = p.lockOwner := by
  unfold Port.readByte
  split <;> rfl

/-- An environment agent changes the port alone, and takes the lock from no sequencer and gives it to none (R62). -/
theorem envAct_next {a : Nat} {act : EnvAction} {s t : State} (h : envAct a act s = .next t) :
    ∃ p, t = { s with port := p } ∧
      ∀ j, p.lockOwner = some (.sequencer j) ↔ s.port.lockOwner = some (.sequencer j) := by
  cases act with
  | acquire =>
    simp only [envAct] at h
    split at h
    · cases h
    · next hacq =>
      cases h
      refine ⟨_, rfl, fun j => ?_⟩
      obtain ⟨-, hfree, rfl⟩ | ⟨-, rfl, -⟩ := tryAcquire_ok hacq
      · simp [hfree]
      · rfl
  | release =>
    simp only [envAct] at h
    split at h
    · cases h
    · next hrel =>
      cases h
      obtain ⟨ho, rfl⟩ := release_ok hrel
      exact ⟨_, rfl, fun j => by simp [ho]⟩
  | write b => cases h; exact ⟨_, rfl, fun _ => Iff.rfl⟩
  | read => cases h; exact ⟨_, rfl, fun _ => by rw [readByte_lockOwner]⟩

/-- The machine meets its invariant at power-on (R230). -/
theorem launch_inv {n : Nat} (hn : 0 < n) (p : Params) : (State.launch n p).Inv := by
  refine ⟨by simpa [State.launch] using hn, fun k => ?_, fun r hr => ?_⟩
  · simp [State.launch, List.getElem?_replicate, Sequencer.holdsLock]
  · obtain rfl := List.eq_of_mem_replicate hr
    refine ⟨.inl ⟨rfl, rfl⟩, ⟨by simp, .inl ⟨rfl, rfl⟩, by simp, by simp⟩, ?_, trivial⟩
    simp [freshInv_iff, Sequencer.outValue, Sequencer.readOut]

theorem resetMove_keeps_inv {rxQ0 : List Byte} {s t : State} (h : resetMove rxQ0 s = .next t) (hs : s.Inv) : t.Inv := by
  obtain ⟨hpos, -⟩ := hs
  unfold resetMove at h
  split at h <;> cases h
  exact launch_inv hpos _

theorem applyMove_keeps_inv {m : Move} {s t : State} (h : applyMove m s = .next t) (hs : s.Inv) : t.Inv := by
  cases m with
  | advance k c => exact advance_keeps_inv h hs
  | present k q => cases h; exact present_keeps_inv hs
  | hostRead k o => rwa [hostRead_next h]
  | arrive b => cases h; exact port_keeps_inv hs fun _ => by rw [arrive_lockOwner]
  | transmit => cases h; exact port_keeps_inv hs fun _ => by rw [transmit_lockOwner]
  | env a act =>
    obtain ⟨p, rfl, hp⟩ := envAct_next h
    exact port_keeps_inv hs hp
  | reset rxQ0 => exact resetMove_keeps_inv h hs

/-- Taking the next move off the schedule changes no register and no part of the port. -/
theorem nextMove_keeps_inv {s : State} (hs : s.Inv) : s.nextMove.2.Inv := by
  unfold State.nextMove
  split <;> exact hs

/-- Settles O45: the next move is one that keeps the invariant, whichever it is. -/
theorem stepKeepsInvariant : Obligations.StepKeepsInvariant := by
  unfold Obligations.StepKeepsInvariant
  intro s t hs h
  exact applyMove_keeps_inv h (nextMove_keeps_inv hs)

/-! ## The end of an operation -/

/-- An operation that rests has written neither `ok` nor `err`; one that has ended has written both (R28, R201). -/
theorem OpStep.flags {k : Nat} {q : Point} {r : Sequencer} {s t : State} (h : OpStep k q r s t) :
    ∃ r' p', t = s.put k r' p' ∧
      (r'.seq = .idle →
        (r'.ok = some true ∧ r'.err = some .none) ∨ (r'.ok = some false ∧ ∃ e, r'.err = some e ∧ e ≠ .none)) ∧
      (r'.seq ≠ .idle → r'.ok = r.ok ∧ r'.err = r.err) := by
  cases h with
  | rest q' hr => exact ⟨_, _, rfl, fun h => (by cases h), fun _ => hr.flags_eq⟩
  | succeed => exact ⟨_, _, rfl, fun _ => .inl ⟨rfl, rfl⟩, fun h => absurd rfl h⟩
  | fail he => exact ⟨_, _, rfl, fun _ => .inr ⟨rfl, _, rfl, he⟩, fun h => absurd rfl h⟩

theorem advance_opStep {k : Nat} {c : LockChoice} {q : Point} {r : Sequencer} {s t : State} (hr : s.seqs[k]? = some r)
    (hq : r.seq = .busy q) (h : advance k c s = .next t) : OpStep k q r s t :=
  resume_opStep ((advance_busy c hr hq).symm.trans h)

/-- Settles O37: an operation's step either rests, which writes no flag, or finishes. -/
theorem operationEndsByFinish : Obligations.OperationEndsByFinish := by
  unfold Obligations.OperationEndsByFinish
  intro s t k c r r' q hr hq h hr'
  obtain ⟨r₁, p₁, rfl, hflags⟩ := (advance_opStep hr hq h).flags
  obtain rfl := put_getElem? hr hr'
  exact hflags

/-! ## Frames -/

/-- Settles O39: acceptance puts new registers at the current sequencer, and none of its cases writes the held requests. -/
theorem acceptanceFrame : Obligations.AcceptanceFrame := by
  unfold Obligations.AcceptanceFrame
  intro i s t h
  obtain ⟨r, r', hr, -, rfl, hcase⟩ := exec_next h
  refine ⟨rfl, rfl, rfl, rfl, rfl, by simp, fun j hj => by simp [hj.symm], r, r', hr, ?_, ?_⟩
  · exact List.getElem?_set_self (lt_length_of_getElem? hr)
  · obtain ⟨v, -, rfl⟩ | ⟨cfg, e, -, -, rfl⟩ | ⟨cfg, e, -, -, -, rfl⟩ | ⟨cfg, ch, -, -, -, rfl⟩ | ⟨-, rfl⟩ |
      ⟨cfg, payload, sp, -, -, -, rfl⟩ | ⟨cfg, payload, sp, addr, ch, -, -, -, -, -, rfl⟩ | ⟨-, rfl⟩ := hcase <;>
      rfl

/-- Settles O40, register by register, over the cases of acceptance. -/
theorem acceptanceRegisterFrame : Obligations.AcceptanceRegisterFrame := by
  unfold Obligations.AcceptanceRegisterFrame
  intro i s t r r' h hr hr'
  obtain ⟨r₁, r₂, hr₁, -, rfl, hcase⟩ := exec_next h
  obtain rfl := put_getElem? hr hr'
  obtain rfl : r = r₁ := Option.some.inj (hr.symm.trans hr₁)
  obtain ⟨v, rfl, rfl⟩ | ⟨cfg, e, rfl, -, rfl⟩ | ⟨cfg, e, rfl, -, -, rfl⟩ | ⟨cfg, ch, rfl, -, -, rfl⟩ | ⟨rfl, rfl⟩ |
    ⟨cfg, payload, sp, rfl, -, -, rfl⟩ | ⟨cfg, payload, sp, addr, ch, rfl, -, -, -, -, rfl⟩ | ⟨-, rfl⟩ := hcase <;>
    simp

/-- What a step of an operation at `q` may not write: no register but those of its own row of R41, and no held
request. -/
def RegisterFrame (q : Point) (r r' : Sequencer) : Prop :=
  r'.cfg = r.cfg ∧ r'.chanOk = r.chanOk ∧ r'.cmd = r.cmd ∧ r'.maxPay = r.maxPay ∧ r'.txFrame = r.txFrame ∧
    r'.held = r.held ∧
    ((∃ a, q = .apply a) ∨ r'.respCnt = r.respCnt) ∧
    ((∃ a, q = .receive a) ∨
      (r'.rxState = r.rxState ∧ r'.rxBuf = r.rxBuf ∧ r'.accLen = r.accLen ∧ r'.rxLen = r.rxLen ∧
        r'.rxRssi = r.rxRssi))

theorem RegisterWrite.frame {r r' : Sequencer} {q : Point} (h : RegisterWrite r q r') : RegisterFrame q r r' := by
  cases h <;> simp [RegisterFrame]

/-- What a step of an operation leaves unchanged in its registers and in the port. -/
theorem OpStep.frame {k : Nat} {q : Point} {r : Sequencer} {s t : State} (h : OpStep k q r s t) :
    ∃ r' p', t = s.put k r' p' ∧ RegisterFrame q r r' ∧
      p'.wireOut = s.port.wireOut ∧ (p'.rxQ = s.port.rxQ ∨ ∃ b, s.port.rxQ = b :: p'.rxQ) ∧
      (p'.txQ = s.port.txQ ∨ ∃ b, r.byteAt q = some b ∧ p'.txQ = s.port.txQ ++ [b]) := by
  cases h with
  | rest q' hr hp => exact ⟨_, _, rfl, hr.frame, hp.wireOut_eq, hp.rxQ_cases, hp.txQ_cases⟩
  | succeed hr hp => exact ⟨_, _, rfl, hr.frame, hp.wireOut_eq, hp.rxQ_cases, hp.txQ_cases⟩
  | fail he hr hp => exact ⟨_, _, rfl, hr.frame, hp.wireOut_eq, hp.rxQ_cases, hp.txQ_cases⟩

theorem txByte_eq_some {frame : Option (List Byte)} {t : Tx} {b : Byte} (h : t.byte frame = some b) :
    ∃ i f, t = .write i ∧ frame = some f ∧ i < f.length := by
  cases t with
  | write i =>
    obtain ⟨f, hf, hb⟩ := Option.bind_eq_some_iff.mp h
    exact ⟨i, f, rfl, hf, (List.getElem?_eq_some_iff.mp hb).1⟩
  | acquire | wait | flush => cases h

/-- An operation has a byte to send only at a `WriteByte` inside APPLY's or SEND's frame. -/
theorem byteAt_eq_some {r : Sequencer} {q : Point} {b : Byte} (h : r.byteAt q = some b) :
    (∃ i v, q = .apply (.a2 (.write i)) ∧ r.cmd = some v ∧ i < 11) ∨
      ∃ i f, q = .send (.s3 (.write i)) ∧ r.txFrame = some f ∧ i < f.length := by
  unfold Sequencer.byteAt at h
  split at h
  · obtain ⟨i, f, rfl, hf, hi⟩ := txByte_eq_some h
    obtain ⟨v, hv, rfl⟩ := Option.map_eq_some_iff.mp hf
    exact .inl ⟨i, v, rfl, hv, by simpa using hi⟩
  · obtain ⟨i, f, rfl, hf, hi⟩ := txByte_eq_some h
    exact .inr ⟨i, f, rfl, hf, hi⟩
  · cases h

/-- The `WriteByte` of a byte inside the frame, and where the phase goes on (R52). -/
theorem txStep_write {a : Agent} {c : LockChoice} {f : List Byte} {i : Nat} {p : Port} (h : i < f.length) :
    txStep a c (some f) (.write i) p =
      .ok (.goto (if i + 1 = f.length then .flush else .write (i + 1)), p.writeByte a f[i]) := by
  simp only [txStep, List.getElem?_eq_getElem h]
  by_cases hlast : i + 1 = f.length
  · rw [if_neg (by omega), if_pos hlast]
  · rw [if_pos (by omega), if_neg hlast]

theorem applyResume_write {k : Nat} {c : LockChoice} {r : Sequencer} {s : State} {i : Nat} {v : Vector Byte 11}
    (h : i < 11) (hv : r.cmd = some v) :
    applyResume k c (.a2 (.write i)) r s =
      .next (s.put k (r.restAt (.apply (.a2 (if i = 10 then .flush else .write (i + 1)))))
        (s.port.writeByte (.sequencer k) v[i])) := by
  simp [applyResume, hv, txStep_write (f := v.toList) (by simpa using h)]

theorem sendResume_write {k : Nat} {c : LockChoice} {r : Sequencer} {s : State} {i : Nat} {f : List Byte}
    (h : i < f.length) (hf : r.txFrame = some f) :
    sendResume k c (.s3 (.write i)) r s =
      .next (s.put k (r.restAt (.send (.s3 (if i + 1 = f.length then .flush else .write (i + 1)))))
        (s.port.writeByte (.sequencer k) f[i])) := by
  simp [sendResume, hf, txStep_write h]

/-- Settles O41: the frame of a step, and at a `WriteByte` the step itself. -/
theorem runningOperationFrame : Obligations.RunningOperationFrame := by
  unfold Obligations.RunningOperationFrame
  intro s t k c r q hr hq h
  have hk := lt_length_of_getElem? hr
  rw [advance_busy c hr hq] at h
  obtain ⟨r', p', rfl, ⟨hcfg, hchan, hcmd, hmax, htx, hheld, hresp, hreceive⟩, hwire, hrxQ, htxQ⟩ :=
    (resume_opStep h).frame
  refine ⟨rfl, rfl, rfl, rfl, hwire, hrxQ, htxQ.imp_right ?_, r', rfl, hcfg, hchan, hcmd, hmax, htx, hheld, hresp,
    hreceive, ?_, ?_⟩
  · rintro ⟨b, hb, -⟩
    exact byteAt_eq_some hb
  · rintro i v hi rfl hv
    obtain ⟨rfl, rfl⟩ := put_inj hk (Host.Outcome.next.inj (h.symm.trans (applyResume_write hi hv)))
    exact ⟨rfl, rfl⟩
  · rintro i f hi rfl hf
    obtain ⟨rfl, rfl⟩ := put_inj hk (Host.Outcome.next.inj (h.symm.trans (sendResume_write hi hf)))
    exact ⟨rfl, rfl⟩

/-! ## Register image and left-out fields -/

/-- Settles O11: the frame's bytes from the fourth on stand at the addresses in order. -/
theorem registerImageOfFrame : Obligations.RegisterImageOfFrame := by
  unfold Obligations.RegisterImageOfFrame
  intro e
  rfl

theorem encodeFields_eq_none {cfg : ConfigurationRecord} (h : cfg.encodeWritten = false) : encodeFields cfg = none := by
  rw [← encodeFields_isSome] at h
  simpa using h

/-- Settles O23: each clause reads a field that is left out. -/
theorem leftOutFieldFaults : Obligations.LeftOutFieldFaults := by
  unfold Obligations.LeftOutFieldFaults
  intro s r cfg payload hr hi
  refine ⟨fun h => ?_, fun ch hch hle h => ?_, fun h => ?_, fun sp hsp hlen h => ?_⟩
  · simp only [exec, execApply, accept_idle _ hr hi, h, readWritten_none]
  · simp only [exec, execApply, accept_idle _ hr hi, hch, readWritten_some, (channel_inRange_iff ch).mpr hle, if_true,
      encodeFields_eq_none h, readWritten_none]
  · simp only [exec, execSend, accept_idle _ hr hi, h, readWritten_none]
  · simp only [exec, execSend, accept_idle _ hr hi, hsp, readWritten_some, if_neg (Nat.not_lt.mpr hlen)]
    obtain h | h := h
    · rw [h, readWritten_none]
    · cases ha : cfg.targetAddress with
      | none => rfl
      | some addr => rw [h]; rfl

/-! ## The host, the receive source and the transmitter -/

/-- Settles O56: a fresh register is read as its own value, which the invariant says it has. -/
theorem hostReadRule : Obligations.HostReadRule := by
  unfold Obligations.HostReadRule
  intro s k r o hs hr hi
  obtain ⟨-, -, hseqs⟩ := hs
  obtain ⟨-, -, hfresh, -⟩ := (inv_iff r).mp (hseqs r (List.mem_of_getElem? hr))
  have hread : hostRead k o s = readWritten (r.readOut o) fun _ => .next s := by
    simp only [hostRead, hr, hi]
  refine ⟨fun ho => ?_, fun ho => ?_, fun ho => ?_⟩
  · obtain ⟨x, hx⟩ := Option.isSome_iff_exists.mp (hfresh o ho)
    rw [hread, hx, readWritten_some]
  · rw [hread, readOut_of_not_fresh ho, readWritten_none]
  · have hx := hfresh o ho
    cases o with
    | rxState =>
      refine ⟨rxStateCode r.rxState, by simp [Sequencer.readOut, ho], ?_, ?_, ?_, ?_, ?_⟩ <;> intro h <;> rw [h] <;> rfl
    | ok | chanOk | cmd | respCnt | rxBuf | accLen | rxLen | rxRssi | maxPay | txFrame =>
      exact readOut_eq_some (by simp only [Sequencer.readOut, ho, if_true]) hx

/-- Settles O59: the three rules of the receive source and the transmitter. -/
theorem environmentPortAgents : Obligations.EnvironmentPortAgents := by
  unfold Obligations.EnvironmentPortAgents
  intro s b
  refine ⟨fun h => ?_, fun n hn hle => ?_, fun rest h => ?_⟩
  · simp only [applyMove, arrive_room _ _ _ h]
  · simp only [applyMove, hn, arrive_full _ _ _ hle]
  · simp only [applyMove, transmit_cons _ _ _ h]

end Sys2Proof.Machine
end

section
/-! SUPPORT. The lock, the queues and the two multi-event phases of 20_memory.md: what each primitive answers, and what the
step of a running operation makes of each answer of its transmit phase or burst, said once for the operations that share
the phase (`TxPhase`, `BurstPhase`). -/

namespace Sys2Proof.Machine

/-! ## The lock -/

section Lock

variable {a b : Agent} {p : Port}

theorem tryAcquire_free (a : Agent) (h : p.lockOwner = none) :
    p.tryAcquire a = .ok (.granted, { p with lockOwner := some a }) := by
  simp [Port.tryAcquire, h]

theorem tryAcquire_self (h : p.lockOwner = some a) : p.tryAcquire a = .error .reentrantAcquire := by
  simp [Port.tryAcquire, h]

theorem tryAcquire_other (h : p.lockOwner = some b) (hb : b ≠ a) : p.tryAcquire a = .ok (.held, p) := by
  simp [Port.tryAcquire, h, hb]

theorem waitAcquire_free (a : Agent) (h : p.lockOwner = none) :
    p.waitAcquire a .grant = (.granted, { p with lockOwner := some a }) := by
  simp [Port.waitAcquire, h]

theorem waitAcquire_held (a : Agent) (h : p.lockOwner ≠ none) : p.waitAcquire a .grant = (.held, p) := by
  simp [Port.waitAcquire, h]

theorem release_other (h : p.lockOwner ≠ some a) : p.release a = .error .releaseNotHeld := by
  simp [Port.release, h]

end Lock

/-- Settles O25: the three answers of a first attempt, by the lock's owner, and the three of a waiting one. -/
theorem acquireRule : Obligations.AcquireRule := by
  unfold Obligations.AcquireRule
  intro a p
  exact ⟨tryAcquire_free a, tryAcquire_self, fun _ => tryAcquire_other, rfl, waitAcquire_free a, waitAcquire_held a⟩

/-- Settles O26: whether the agent is the lock's owner decides. -/
theorem releaseRule : Obligations.ReleaseRule := by
  unfold Obligations.ReleaseRule
  intro a p
  exact ⟨release_owner, release_other⟩

/-- Settles O27: the queue's head decides what a read answers; the other two have one case. -/
theorem portPrimitives : Obligations.PortPrimitives := by
  unfold Obligations.PortPrimitives
  intro a b p
  exact ⟨rfl, rfl, readByte_empty a p, readByte_cons a p b⟩

/-- Settles O57: the environment agent's actions are the lock's own primitives. -/
theorem environmentLockMisuseFaults : Obligations.EnvironmentLockMisuseFaults := by
  unfold Obligations.EnvironmentLockMisuseFaults
  intro s a
  refine ⟨fun h => ?_, fun b h hb => ?_, fun h => ?_, fun h => ?_, fun h => ?_⟩
  · simp only [applyMove, envAct, tryAcquire_free _ h]
  · simp only [applyMove, envAct, tryAcquire_other h hb]
  · simp only [applyMove, envAct, tryAcquire_self h]
  · simp only [applyMove, envAct, release_owner h]
  · simp only [applyMove, envAct, release_other h]

/-- Settles O58: neither queue action of an environment agent looks at the lock. -/
theorem undisciplinedAgentInterleaves : Obligations.UndisciplinedAgentInterleaves := by
  unfold Obligations.UndisciplinedAgentInterleaves
  intro s a b
  refine ⟨rfl, fun rest h => ?_⟩
  simp only [applyMove, envAct, readByte_cons _ _ _ _ h]

/-- Settles O53: the script has a head, or is used up. -/
theorem stepTakesNextMove : Obligations.StepTakesNextMove := by
  unfold Obligations.StepTakesNextMove
  intro s
  refine ⟨fun m rest => step_script, fun h => ?_⟩
  simp only [step, State.nextMove, h]

/-! ## The delay points -/

/-- The five delay points of R212 and their names. -/
theorem delayAt_eq_some {q : Point} {d : DelayPoint} (h : delayAt q = some d) :
    (q = .apply .a3Delay ∧ d = .tCmdSettle) ∨ (q = .receive .x1Delay ∧ d = .tPoll) ∨
      (q = .receive .x3Delay ∧ d = .tRxSettle) ∨ (q = .send .s4Delay ∧ d = .tTxWait) ∨
      (q = .send .s5Gap ∧ d = .tTxGap) := by
  unfold delayAt at h
  split at h <;> cases h <;> simp

/-- Settles O28: at each of the five points the operation goes on in one way only. -/
theorem delayChangesOnlySeq : Obligations.DelayChangesOnlySeq := by
  unfold Obligations.DelayChangesOnlySeq
  intro s k c r q d hr hq hd
  rw [advance_busy c hr hq]
  obtain ⟨rfl, rfl⟩ | ⟨rfl, rfl⟩ | ⟨rfl, rfl⟩ | ⟨rfl, rfl⟩ | ⟨rfl, rfl⟩ := delayAt_eq_some hd
  · exact ⟨_, .inl ⟨rfl, rfl, rfl⟩, rfl⟩
  · exact ⟨_, .inr (.inl ⟨rfl, rfl, rfl⟩), rfl⟩
  · exact ⟨_, .inr (.inr (.inl ⟨rfl, rfl, rfl⟩)), rfl⟩
  · exact ⟨_, .inr (.inr (.inr (.inl ⟨rfl, rfl, rfl⟩))), rfl⟩
  · exact ⟨_, .inr (.inr (.inr (.inr ⟨rfl, rfl, rfl⟩))), rfl⟩

/-! ## The operations' transmit phases and bursts -/

/-- The two transmit phases (R64): where the operation stands at each place of the phase, the frame it sends, and where it
goes on after `Flush`. -/
inductive TxPhase (r : Sequencer) : (Tx → Point) → Option (List Byte) → Point → Prop where
  | apply : TxPhase r (fun t => .apply (.a2 t)) (r.cmd.map Vector.toList) (.apply .a2Release)
  | send : TxPhase r (fun t => .send (.s3 t)) r.txFrame (.send .s4Delay)

/-- The two bursts (R63): where the operation stands at each place of the burst. -/
inductive BurstPhase : (Burst → Point) → Prop where
  | apply : BurstPhase fun b => .apply (.a4 b)
  | receive : BurstPhase fun b => .receive (.x2 b)

section Phases

variable {a b : Agent} {p : Port} {k : Nat} {c : LockChoice} {r : Sequencer} {s : State}

theorem TxPhase.resume_goto {C : Tx → Point} {f : Option (List Byte)} {q : Point} {t t' : Tx} (hC : TxPhase r C f q)
    (h : txStep (.sequencer k) c f t s.port = .ok (.goto t', p)) :
    resume k c (C t) r s = .next (s.put k (r.restAt (C t')) p) := by
  cases hC <;> simp only [resume, applyResume, sendResume, h]

theorem TxPhase.resume_sent {C : Tx → Point} {f : Option (List Byte)} {q : Point} {t : Tx} (hC : TxPhase r C f q)
    (h : txStep (.sequencer k) c f t s.port = .ok (.sent, p)) :
    resume k c (C t) r s = .next (s.put k (r.restAt q) p) := by
  cases hC <;> simp only [resume, applyResume, sendResume, h]

theorem BurstPhase.resume_goto {B : Burst → Point} {b b' : Burst} (hB : BurstPhase B)
    (h : burstStep s.params.granularity (.sequencer k) c b s.port = .ok (.goto b', p)) :
    resume k c (B b) r s = .next (s.put k (r.restAt (B b')) p) := by
  cases hB <;> simp only [resume, applyResume, receiveResume, h]

/-- A step that leaves a sequencer at the point where it stands, and the port as it is, leaves the state as it is. -/
theorem put_restAt_self {q : Point} (hr : s.seqs[k]? = some r) (hq : r.seq = .busy q) :
    s.put k (r.restAt q) s.port = s := by
  have hrest : r.restAt q = r := by rw [Sequencer.restAt, ← hq]
  obtain ⟨hk, hget⟩ := List.getElem?_eq_some_iff.mp hr
  rw [hrest, State.put, ← hget, List.set_getElem_self]

/-! ## The end of a transmit phase -/

theorem txStep_flush_waits (a : Agent) (c : LockChoice) (f : Option (List Byte)) (h : p.txQ ≠ []) :
    txStep a c f .flush p = .ok (.goto .flush, p) := by
  simp [txStep, h]

theorem txStep_flush_sent (a : Agent) (c : LockChoice) (f : Option (List Byte)) (h : p.txQ = []) :
    txStep a c f .flush p = .ok (.sent, p) := by
  simp [txStep, h]

/-- `Flush` holds while `tx_q` is not empty (R57). -/
theorem TxPhase.flush_waits {C : Tx → Point} {f : Option (List Byte)} {q : Point} (hC : TxPhase r C f q)
    (hr : s.seqs[k]? = some r) (hq : r.seq = .busy (C .flush)) (h : s.port.txQ ≠ []) : advance k c s = .next s := by
  rw [advance_busy c hr hq, hC.resume_goto (txStep_flush_waits _ c f h), put_restAt_self hr hq]

/-- `Flush` ends on an empty `tx_q` (R57). -/
theorem TxPhase.flush_ends {C : Tx → Point} {f : Option (List Byte)} {q : Point} (hC : TxPhase r C f q)
    (hr : s.seqs[k]? = some r) (hq : r.seq = .busy (C .flush)) (h : s.port.txQ = []) :
    advance k c s = .next (s.put k (r.restAt q) s.port) := by
  rw [advance_busy c hr hq, hC.resume_sent (txStep_flush_sent _ c f h)]

/-- The transmitter sends what is queued, and then one step of the operation goes past `Flush`. -/
theorem TxPhase.flush_run {C : Tx → Point} {f : Option (List Byte)} {q : Point} (hC : TxPhase r C f q)
    (hr : s.seqs[k]? = some r) (hq : r.seq = .busy (C .flush)) :
    runMoves (transmits s.port.txQ.length ++ advances k 1) s =
      .next (s.put k (r.restAt q) { s.port with txQ := [], wireOut := s.port.wireOut ++ s.port.txQ }) := by
  have hend := hC.flush_ends (c := .grant)
    (s := { s with port := { s.port with txQ := [], wireOut := s.port.wireOut ++ s.port.txQ } }) hr hq rfl
  rw [runMoves_trans (runMoves_transmits rfl) rfl]
  exact runMoves_advance (n := 0) hend rfl

/-! ## Asking for the lock -/

theorem txStep_acquire_free (a : Agent) (c : LockChoice) (f : Option (List Byte)) (h : p.lockOwner = none) :
    txStep a c f .acquire p = .ok (.goto (.write 0), { p with lockOwner := some a }) := by
  simp only [txStep, tryAcquire_free a h]

theorem txStep_acquire_other (c : LockChoice) (f : Option (List Byte)) (h : p.lockOwner = some b) (hb : b ≠ a) :
    txStep a c f .acquire p = .ok (.goto .wait, p) := by
  simp only [txStep, tryAcquire_other h hb]

theorem txStep_wait_free (a : Agent) (f : Option (List Byte)) (h : p.lockOwner = none) :
    txStep a .grant f .wait p = .ok (.goto (.write 0), { p with lockOwner := some a }) := by
  simp only [txStep, waitAcquire_free a h]

theorem txStep_wait_held (a : Agent) (f : Option (List Byte)) (h : p.lockOwner ≠ none) :
    txStep a .grant f .wait p = .ok (.goto .wait, p) := by
  simp only [txStep, waitAcquire_held a h]

theorem burstStep_acquire_free (g : Granularity) (a : Agent) (c : LockChoice) (h : p.lockOwner = none) :
    burstStep g a c .acquire p = .ok (.goto (afterGrant g), { p with lockOwner := some a }) := by
  simp only [burstStep, tryAcquire_free a h]

theorem burstStep_acquire_other (g : Granularity) (c : LockChoice) (h : p.lockOwner = some b) (hb : b ≠ a) :
    burstStep g a c .acquire p = .ok (.goto .wait, p) := by
  simp only [burstStep, tryAcquire_other h hb]

theorem burstStep_wait_free (g : Granularity) (a : Agent) (h : p.lockOwner = none) :
    burstStep g a .grant .wait p = .ok (.goto (afterGrant g), { p with lockOwner := some a }) := by
  simp only [burstStep, waitAcquire_free a h]

theorem burstStep_wait_held (g : Granularity) (a : Agent) (h : p.lockOwner ≠ none) :
    burstStep g a .grant .wait p = .ok (.goto .wait, p) := by
  simp only [burstStep, waitAcquire_held a h]

/-- What an operation at `q₀` that asks for the lock does (R60): granted it goes on at `q₂`, else it waits at `q₁`. -/
def LockRequest (k : Nat) (r : Sequencer) (s : State) (q₀ q₁ q₂ : Point) : Prop :=
  (s.port.lockOwner = none →
    (∀ c, resume k c q₀ r s = .next (s.put k (r.restAt q₂) { s.port with lockOwner := some (.sequencer k) })) ∧
    resume k .grant q₁ r s = .next (s.put k (r.restAt q₂) { s.port with lockOwner := some (.sequencer k) })) ∧
  ∀ a, s.port.lockOwner = some a → a ≠ .sequencer k →
    (∀ c, resume k c q₀ r s = .next (s.put k (r.restAt q₁) s.port)) ∧
    resume k .grant q₁ r s = .next (s.put k (r.restAt q₁) s.port)

theorem TxPhase.lockRequest {C : Tx → Point} {f : Option (List Byte)} {q : Point} (hC : TxPhase r C f q) :
    LockRequest k r s (C .acquire) (C .wait) (C (.write 0)) := by
  refine ⟨fun h => ⟨fun c => ?_, ?_⟩, fun a h ha => ⟨fun c => ?_, ?_⟩⟩
  · exact hC.resume_goto (txStep_acquire_free _ c f h)
  · exact hC.resume_goto (txStep_wait_free _ f h)
  · exact hC.resume_goto (txStep_acquire_other c f h ha)
  · exact hC.resume_goto (txStep_wait_held _ f (by simp [h]))

theorem BurstPhase.lockRequest {B : Burst → Point} (hB : BurstPhase B) :
    LockRequest k r s (B .acquire) (B .wait) (B (afterGrant s.params.granularity)) := by
  refine ⟨fun h => ⟨fun c => ?_, ?_⟩, fun a h ha => ⟨fun c => ?_, ?_⟩⟩
  · exact hB.resume_goto (burstStep_acquire_free _ _ c h)
  · exact hB.resume_goto (burstStep_wait_free _ _ h)
  · exact hB.resume_goto (burstStep_acquire_other _ c h ha)
  · exact hB.resume_goto (burstStep_wait_held _ _ (by simp [h]))

/-! ## A burst's reads and releases -/

/-- What a burst comes to after a `ReadByte`, by its answer (R63). -/
def afterRead : Granularity → Option Byte → BurstNext
  | .perBurst, some v => .byte v .more
  | .perBurst, none => .goto .more
  | .perByte, x => .goto (.releaseByte x)

/-- What a burst under `per_byte` comes to after the `Release` that follows a `ReadByte`, by the read's answer (R63). -/
def afterReleaseByte : Option Byte → BurstNext
  | some v => .byte v .first
  | none => .goto .first

theorem burstStep_read (g : Granularity) (a : Agent) (c : LockChoice) (p : Port) :
    burstStep g a c .read p = .ok (afterRead g (p.readByte a).1, (p.readByte a).2) := by
  cases hq : p.rxQ with
  | nil => cases g <;> simp only [burstStep, readByte_empty a p hq, afterRead]
  | cons v rest => cases g <;> simp only [burstStep, readByte_cons a p v rest hq, afterRead]

theorem burstStep_releaseByte (g : Granularity) (c : LockChoice) (x : Option Byte) (h : p.lockOwner = some a) :
    burstStep g a c (.releaseByte x) p = .ok (afterReleaseByte x, { p with lockOwner := none }) := by
  simp only [burstStep, release_owner h]
  cases x <;> rfl

theorem burstStep_releaseAll (g : Granularity) (c : LockChoice) (h : p.lockOwner = some a) :
    burstStep g a c .releaseAll p = .ok (.done, { p with lockOwner := none }) := by
  simp only [burstStep, release_owner h]

theorem burstStep_first_empty (g : Granularity) (a : Agent) (c : LockChoice) (h : p.rxQ = []) :
    burstStep g a c .first p = .ok (.done, p) := by
  simp [burstStep, Port.avail, h]

/-- The echo check of a written count ends the operation, with success or with EchoMismatch (R125). -/
theorem applyCheck_eq {n : Byte} (hn : r.respCnt = some n) :
    applyCheck k r p s =
      if n.toNat = 11 then .next (s.put k (r.finish true .none) p)
      else .next (s.put k (r.finish false .echoMismatch) (unlockedBy k p)) := by
  simp only [applyCheck, hn, readWritten_some, raise_eq, cmdLen]

end Phases

/-- Settles O29: both transmit phases wait at `Flush` and leave it in the same way. -/
theorem flushHoldsUntilSent : Obligations.FlushHoldsUntilSent := by
  unfold Obligations.FlushHoldsUntilSent
  intro s k r q q' hr hq hwhere
  obtain ⟨rfl, rfl⟩ | ⟨rfl, rfl⟩ := hwhere
  · exact ⟨fun h c => TxPhase.apply.flush_waits hr hq h, TxPhase.apply.flush_run hr hq⟩
  · exact ⟨fun h c => TxPhase.send.flush_waits hr hq h, TxPhase.send.flush_run hr hq⟩

/-- Settles O31: each of the four places is the lock request of a transmit phase or of a burst. -/
theorem lockGrantGoesOn : Obligations.LockGrantGoesOn := by
  unfold Obligations.LockGrantGoesOn
  intro s k r q₀ q₁ q₂ b hr hb hwhere
  have hgrant : b = afterGrant s.params.granularity := by
    obtain ⟨hg, rfl⟩ | ⟨hg, rfl⟩ := hb <;> rw [hg] <;> rfl
  have hrequest : LockRequest k r s q₀ q₁ q₂ := by
    obtain ⟨rfl, rfl, rfl⟩ | ⟨rfl, rfl, rfl⟩ | ⟨rfl, rfl, rfl⟩ | ⟨rfl, rfl, rfl⟩ := hwhere
    · exact TxPhase.apply.lockRequest
    · exact TxPhase.send.lockRequest
    · exact hgrant ▸ BurstPhase.apply.lockRequest
    · exact hgrant ▸ BurstPhase.receive.lockRequest
  obtain ⟨hfree, hheld⟩ := hrequest
  refine ⟨fun h => ?_, fun a h ha => ?_⟩
  · obtain ⟨hfirst, hwait⟩ := hfree h
    exact ⟨fun hq c => (advance_busy c hr hq).trans (hfirst c), fun hq => (advance_busy .grant hr hq).trans hwait⟩
  · obtain ⟨hfirst, hwait⟩ := hheld a h ha
    refine ⟨fun hq c => (advance_busy c hr hq).trans (hfirst c), fun hq => ?_⟩
    rw [advance_busy .grant hr hq, hwait, put_restAt_self hr hq]

/-- Settles O33: each clause names one answer of `burstStep`, and what the operation makes of that answer. -/
theorem burstEndGoesOn : Obligations.BurstEndGoesOn := by
  unfold Obligations.BurstEndGoesOn
  intro s k c r hr
  refine ⟨fun B hB => ?_, fun v b p hbyte => ?_, fun b p n hdone => ?_⟩
  · have hphase : BurstPhase B := by
      obtain rfl | rfl := hB
      · exact .apply
      · exact .receive
    refine ⟨fun hq h => ⟨fun hg => ?_, fun hg => ?_⟩, fun hq hg v rest h => ?_, fun hq h => ?_⟩ <;>
      rw [advance_busy c hr hq]
    · exact hphase.resume_goto (by rw [burstStep_read, readByte_empty _ _ h, hg]; rfl)
    · exact hphase.resume_goto (by rw [burstStep_read, readByte_empty _ _ h, hg]; rfl)
    · exact hphase.resume_goto (by rw [burstStep_read, readByte_cons _ _ _ _ h, hg]; rfl)
    · exact hphase.resume_goto (burstStep_releaseByte _ c none h)
  · have hstep : burstStep s.params.granularity (.sequencer k) c b s.port =
        .ok (.byte v (if b = .read then .more else .first), p) := by
      obtain ⟨hg, rfl, rest, h, rfl⟩ | ⟨rfl, h, rfl⟩ := hbyte
      · rw [burstStep_read, readByte_cons _ _ _ _ h, hg, if_pos rfl]
        rfl
      · rw [if_neg (by simp)]
        exact burstStep_releaseByte _ c (some v) h
    refine ⟨fun hq n hn => ?_, fun hq => ?_⟩ <;> rw [advance_busy c hr hq]
    · simp only [resume, applyResume, hstep, hn, readWritten_some]
      rfl
    · simp only [resume, receiveResume, hstep]
  · have hstep : burstStep s.params.granularity (.sequencer k) c b s.port = .ok (.done, p) := by
      obtain ⟨rfl, h, rfl⟩ | ⟨rfl, h, rfl⟩ := hdone
      · exact burstStep_first_empty _ _ c h
      · exact burstStep_releaseAll _ c h
    refine ⟨fun hq hn => ⟨fun hz => ?_, fun hz => ?_⟩, fun hq hn hfirst => ?_⟩ <;> rw [advance_busy c hr hq]
    · simp only [resume, receiveResume, hstep, receiveBurstDone, hn, readWritten_some, if_pos hz]
      rfl
    · simp only [resume, receiveResume, hstep, receiveBurstDone, hn, readWritten_some, if_neg hz]
      rfl
    · have hfree : p.lockOwner ≠ some (.sequencer k) := by
        obtain ⟨rfl, -, rfl⟩ | ⟨rfl, -, rfl⟩ := hdone
        · exact hfirst rfl
        · simp
      simp only [resume, applyResume, hstep, applyCheck_eq hn, unlockedBy, if_neg hfree]
      by_cases heleven : n.toNat = 11 <;> simp [heleven, Sequencer.finish]

end Sys2Proof.Machine
end

section
/-! SUPPORT. The port shared by its agents (20_memory.md R60 to R65): no byte is lost, a running operation never stops, and
while one agent holds the lock the others leave the port alone. All are read off `PortMove` and `OpStep`. -/

namespace Sys2Proof.Machine

/-! ## The port's history -/

@[simp] theorem writesOf_append (h h' : List PortEvent) : writesOf (h ++ h') = writesOf h ++ writesOf h' := by
  induction h with
  | nil => rfl
  | cons e h ih => cases e <;> simp [writesOf, ih]

@[simp] theorem readsOf_append (h h' : List PortEvent) : readsOf (h ++ h') = readsOf h ++ readsOf h' := by
  induction h with
  | nil => rfl
  | cons e h ih => cases e <;> simp [readsOf, ih]

@[simp] theorem arrivalsOf_append (h h' : List PortEvent) : arrivalsOf (h ++ h') = arrivalsOf h ++ arrivalsOf h' := by
  induction h with
  | nil => rfl
  | cons e h ih => cases e <;> simp [arrivalsOf, ih]

/-- `PortHistoryInv` as a property of the port and of what was on the line at launch. -/
def Port.HistoryInv (rxQ0 : List Byte) (p : Port) : Prop :=
  writesOf p.history = p.wireOut ++ p.txQ ∧ rxQ0 ++ arrivalsOf p.history = readsOf p.history ++ p.rxQ

theorem portHistoryInv_iff (s : State) : PortHistoryInv s ↔ s.port.HistoryInv s.params.rxQ0 := Iff.rfl

/-- A byte that arrives is appended to `rx_q`, or passes without effect (D33). -/
theorem arrive_cases (cap : Option Nat) (b : Byte) (p : Port) :
    p.arrive cap b = { p with rxQ := p.rxQ ++ [b], history := p.history ++ [.arr b] } ∨ p.arrive cap b = p := by
  unfold Port.arrive
  split
  · split
    · exact .inl rfl
    · exact .inr rfl
  · exact .inl rfl

namespace Port.HistoryInv

variable {rxQ0 : List Byte} {p : Port}

/-- The lock is no matter of the history. -/
theorem setOwner (h : p.HistoryInv rxQ0) (o : Option Agent) : Port.HistoryInv rxQ0 { p with lockOwner := o } := h

theorem writeByte (h : p.HistoryInv rxQ0) (a : Agent) (b : Byte) : (p.writeByte a b).HistoryInv rxQ0 := by
  obtain ⟨hout, hin⟩ := h
  exact ⟨by simp [hout, writesOf], by simp [hin, arrivalsOf, readsOf]⟩

/-- A byte read moves from the head of `rx_q` to the end of the bytes read. -/
theorem takeByte (h : p.HistoryInv rxQ0) (a : Agent) {b : Byte} {rest : List Byte} (hq : p.rxQ = b :: rest) :
    Port.HistoryInv rxQ0 { p with rxQ := rest, history := p.history ++ [.rd a b] } := by
  obtain ⟨hout, hin⟩ := h
  exact ⟨by simp [hout, writesOf], by simp [hin, hq, arrivalsOf, readsOf]⟩

theorem readByte (h : p.HistoryInv rxQ0) (a : Agent) : (p.readByte a).2.HistoryInv rxQ0 := by
  cases hq : p.rxQ with
  | nil => rwa [readByte_empty a p hq]
  | cons b rest =>
    rw [readByte_cons a p b rest hq]
    exact h.takeByte a hq

/-- A byte that arrives is at the end of the arrivals and of `rx_q`, or is in neither (D33). -/
theorem arrive (h : p.HistoryInv rxQ0) (cap : Option Nat) (b : Byte) : (p.arrive cap b).HistoryInv rxQ0 := by
  obtain harr | harr := arrive_cases cap b p <;> rw [harr]
  · obtain ⟨hout, hin⟩ := h
    refine ⟨by simp [hout, writesOf], ?_⟩
    rw [arrivalsOf_append, ← List.append_assoc, hin]
    simp [readsOf, arrivalsOf]
  · exact h

/-- The transmitter moves a byte past the place where `wire_out` and `tx_q` meet. -/
theorem transmit (h : p.HistoryInv rxQ0) : p.transmit.HistoryInv rxQ0 := by
  cases hq : p.txQ with
  | nil => rwa [transmit_empty p hq]
  | cons b rest =>
    rw [transmit_cons p b rest hq]
    obtain ⟨hout, hin⟩ := h
    exact ⟨by simp [hout, hq], hin⟩

end Port.HistoryInv

theorem PortMove.keeps_historyInv {a : Agent} {out : Option Byte} {p p' : Port} {held held' : Bool} {rxQ0 : List Byte}
    (h : PortMove a out p held held' p') (hp : p.HistoryInv rxQ0) : p'.HistoryInv rxQ0 := by
  cases h with
  | stay => exact hp
  | grant | release => exact hp.setOwner _
  | write => exact hp.writeByte _ _
  | read hq => exact hp.takeByte _ hq

theorem OpStep.keeps_portHistory {k : Nat} {q : Point} {r : Sequencer} {s t : State} (h : OpStep k q r s t)
    (hs : PortHistoryInv s) : PortHistoryInv t := by
  rw [portHistoryInv_iff] at hs
  cases h with
  | rest _ _ hp => exact hp.keeps_historyInv hs
  | succeed _ hp => exact hp.keeps_historyInv hs
  | fail _ _ hp => exact (hp.keeps_historyInv hs).setOwner _

theorem advance_keeps_portHistory {k : Nat} {c : LockChoice} {s t : State} (h : advance k c s = .next t)
    (hs : PortHistoryInv s) : PortHistoryInv t := by
  obtain rfl | ⟨r, q, qs, -, -, -, h⟩ | ⟨r, q, -, -, h⟩ := advance_next h
  · exact hs
  · obtain ⟨r₀, r', -, -, rfl, -⟩ := exec_next h
    exact hs
  · exact (resume_opStep h).keeps_portHistory hs

/-- A request presented changes no part of the port (R214). -/
@[simp] theorem present_port (k : Nat) (q : Request) (s : State) : (present k q s).port = s.port := by
  unfold present
  split <;> rfl

@[simp] theorem present_params (k : Nat) (q : Request) (s : State) : (present k q s).params = s.params := by
  unfold present
  split <;> rfl

/-- What an environment agent's action makes of the port, and under which lock it goes through (R60 to R62). -/
theorem envAct_port {a : Nat} {act : EnvAction} {s t : State} (h : envAct a act s = .next t) :
    ∃ p, t = { s with port := p } ∧
      ((act = .acquire ∧ s.port.lockOwner = none ∧ p = { s.port with lockOwner := some (.env a) }) ∨
       (act = .acquire ∧ p = s.port) ∨
       (act = .release ∧ s.port.lockOwner = some (.env a) ∧ p = { s.port with lockOwner := none }) ∨
       (∃ b, act = .write b ∧ p = s.port.writeByte (.env a) b) ∨
       (act = .read ∧ p = (s.port.readByte (.env a)).2)) := by
  cases act with
  | acquire =>
    simp only [envAct] at h
    split at h
    · cases h
    · next hacq =>
      cases h
      obtain ⟨-, hfree, rfl⟩ | ⟨-, rfl, -⟩ := tryAcquire_ok hacq
      · exact ⟨_, rfl, .inl ⟨rfl, hfree, rfl⟩⟩
      · exact ⟨_, rfl, .inr (.inl ⟨rfl, rfl⟩)⟩
  | release =>
    simp only [envAct] at h
    split at h
    · cases h
    · next hrel =>
      cases h
      obtain ⟨ho, rfl⟩ := release_ok hrel
      exact ⟨_, rfl, .inr (.inr (.inl ⟨rfl, ho, rfl⟩))⟩
  | write b => cases h; exact ⟨_, rfl, .inr (.inr (.inr (.inl ⟨b, rfl, rfl⟩)))⟩
  | read => cases h; exact ⟨_, rfl, .inr (.inr (.inr (.inr ⟨rfl, rfl⟩)))⟩

theorem envAct_keeps_portHistory {a : Nat} {act : EnvAction} {s t : State} (h : envAct a act s = .next t)
    (hs : PortHistoryInv s) : PortHistoryInv t := by
  rw [portHistoryInv_iff] at hs
  obtain ⟨p, rfl, ⟨-, -, rfl⟩ | ⟨-, rfl⟩ | ⟨-, -, rfl⟩ | ⟨b, -, rfl⟩ | ⟨-, rfl⟩⟩ := envAct_port h
  · exact hs.setOwner _
  · exact hs
  · exact hs.setOwner _
  · exact hs.writeByte _ b
  · exact hs.readByte _

/-- Nothing has been written, read or brought to the line at launch but `rx_q0` (R230). -/
theorem launch_portHistory (n : Nat) (p : Params) : PortHistoryInv (State.launch n p) :=
  ⟨rfl, List.append_nil _⟩

theorem applyMove_keeps_portHistory {m : Move} {s t : State} (h : applyMove m s = .next t) (hs : PortHistoryInv s) :
    PortHistoryInv t := by
  cases m with
  | advance k c => exact advance_keeps_portHistory h hs
  | present k q =>
    cases h
    simpa only [portHistoryInv_iff, present_port, present_params] using hs
  | hostRead k o => rwa [hostRead_next h]
  | arrive b => cases h; exact Port.HistoryInv.arrive hs _ b
  | transmit => cases h; exact Port.HistoryInv.transmit hs
  | env a act => exact envAct_keeps_portHistory h hs
  | reset rxQ0 =>
    simp only [applyMove, resetMove] at h
    split at h <;> cases h
    exact launch_portHistory s.seqs.length { s.params with rxQ0 := rxQ0 }

/-- Taking the next move off the schedule changes no part of the port. -/
theorem nextMove_keeps_portHistory {s : State} (hs : PortHistoryInv s) : PortHistoryInv s.nextMove.2 := by
  unfold State.nextMove
  split <;> exact hs

/-- Settles O46: the next move is one that keeps the history, whichever it is. -/
theorem stepKeepsPortHistory : Obligations.StepKeepsPortHistory := by
  unfold Obligations.StepKeepsPortHistory
  intro s t hs h
  exact applyMove_keeps_portHistory h (nextMove_keeps_portHistory hs)

/-! ## A running operation never stops -/

/-- A transmit phase of a written frame answers, where its agent does not yet hold the lock it asks for. -/
theorem txStep_answers {a : Agent} (c : LockChoice) (bs : List Byte) {t : Tx} {p : Port}
    (h : p.lockOwner = some a → t.holdsLock = true) : ∃ n p', txStep a c (some bs) t p = .ok (n, p') := by
  cases hx : txStep a c (some bs) t p with
  | ok x => exact ⟨_, _, rfl⟩
  | error f =>
    obtain ⟨rfl, -, ho⟩ | ⟨i, -, -, hbs⟩ := txStep_error hx
    · exact absurd (h ho) Bool.false_ne_true
    · cases hbs

/-- A burst answers where the lock register agrees with where it stands. -/
theorem burstStep_answers (g : Granularity) {a : Agent} (c : LockChoice) {b : Burst} {p : Port}
    (h : p.lockOwner = some a ↔ b.holdsLock = true) : ∃ n p', burstStep g a c b p = .ok (n, p') := by
  cases hx : burstStep g a c b p with
  | ok x => exact ⟨_, _, rfl⟩
  | error f =>
    obtain ⟨rfl, ho⟩ | ⟨hb, ho⟩ := burstStep_error hx
    · exact absurd (h.mp ho) Bool.false_ne_true
    · exact absurd (h.mpr hb) ho

theorem applyResume_answers {k : Nat} (c : LockChoice) {q : ApplyPoint} {r : Sequencer} {s : State} (hq : ApplyInv q r)
    (hself : s.port.lockOwner = some (.sequencer k) ↔ (Point.apply q).holdsLock = true) :
    ∃ t, applyResume k c q r s = .next t := by
  obtain ⟨⟨e, -, -, hcmd⟩, hpoint⟩ := hq
  cases q with
  | a2 x =>
    obtain ⟨n, p, hx⟩ := txStep_answers c (commandFrame e).toList hself.mp
    cases n <;> simp [applyResume, hcmd, hx, raise_eq]
  | a2Release => simp [applyResume, release_owner (hself.mpr rfl)]
  | a3Delay => exact ⟨_, rfl⟩
  | a4 b =>
    obtain ⟨cnt, hcnt⟩ := Option.isSome_iff_exists.mp hpoint
    obtain ⟨n, p, hb⟩ := burstStep_answers s.params.granularity c hself
    cases n with
    | done =>
      simp only [applyResume, hb, applyCheck_eq hcnt]
      split <;> exact ⟨_, rfl⟩
    | goto | byte | timeout => simp [applyResume, hb, hcnt, raise_eq]

theorem receiveByte_answers {k : Nat} {r : Sequencer} {n : Byte} {buf : Vector Byte 200} (v : Byte) (b : Burst) (p : Port)
    (s : State) (hn : r.accLen = some n) (hbuf : r.rxBuf = some buf) : ∃ t, receiveByte k v b r p s = .next t := by
  simp only [receiveByte, hn, hbuf, readWritten_some, raise_eq]
  split
  · split <;> exact ⟨_, rfl⟩
  · exact ⟨_, rfl⟩

theorem receiveResume_answers {k : Nat} (c : LockChoice) {q : ReceivePoint} {r : Sequencer} {s : State}
    (hq : ReceiveInv q r) (hself : s.port.lockOwner = some (.sequencer k) ↔ (Point.receive q).holdsLock = true) :
    ∃ t, receiveResume k c q r s = .next t := by
  obtain ⟨⟨n, buf, hn, hbuf, -, hpoint⟩, -⟩ := hq
  cases q with
  | x1Delay | x3Delay => exact ⟨_, rfl⟩
  | x1Avail =>
    simp only [receiveResume]
    split <;> exact ⟨_, rfl⟩
  | x2Overflow => exact ⟨_, raise_eq ..⟩
  | x2 b =>
    obtain ⟨m, p, hb⟩ := burstStep_answers s.params.granularity c hself
    cases m with
    | byte v b' => simpa only [receiveResume, hb] using receiveByte_answers v b' p s hn hbuf
    | done =>
      simp only [receiveResume, hb, receiveBurstDone, hn, readWritten_some]
      split <;> exact ⟨_, rfl⟩
    | goto | timeout => simp [receiveResume, hb, raise_eq]
  | x3Avail =>
    obtain ⟨hpos, hle, -⟩ := hpoint
    have hidx : (n - 1).toNat < 200 := by
      rw [accLen_pred_toNat hpos]
      omega
    simp only [receiveResume, receiveDone, hn, hbuf, Vector.getElem?_eq_getElem hidx, readWritten_some]
    split <;> exact ⟨_, rfl⟩

theorem sendResume_answers {k : Nat} (c : LockChoice) {q : SendPoint} {r : Sequencer} {s : State} (hq : SendInv q r)
    (hself : s.port.lockOwner = some (.sequencer k) ↔ (Point.send q).holdsLock = true) :
    ∃ t, sendResume k c q r s = .next t := by
  obtain ⟨sp, addr, ch, payload, -, -, -, hframe, -⟩ := hq
  cases q with
  | s3 x =>
    obtain ⟨n, p, hx⟩ := txStep_answers c (outboundFrame addr ch payload) hself.mp
    cases n <;> simp [sendResume, hframe, hx, raise_eq]
  | s4Delay | s5Read | s5Gap => exact ⟨_, rfl⟩
  | s5Avail | s5More =>
    simp only [sendResume]
    split <;> exact ⟨_, rfl⟩
  | s5Release => simp [sendResume, release_owner (hself.mpr rfl)]

/-- The lock register agrees with where a running operation stands. -/
theorem lockOwner_iff_holdsLock {k : Nat} {r : Sequencer} {q : Point} {s : State} (hs : s.Inv) (hr : s.seqs[k]? = some r)
    (hq : r.seq = .busy q) : s.port.lockOwner = some (.sequencer k) ↔ q.holdsLock = true := by
  obtain ⟨-, hlock, -⟩ := hs
  rw [lockInv_self hlock hr, holdsLock_busy hq]

/-- Settles O47: the lock and the registers are as the operation's next step needs them, operation by operation. -/
theorem runningOperationNeverStops : Obligations.RunningOperationNeverStops := by
  unfold Obligations.RunningOperationNeverStops
  intro s k c r q hs hr hq
  have hself := lockOwner_iff_holdsLock hs hr hq
  obtain ⟨-, -, hseqs⟩ := hs
  obtain ⟨-, -, -, hpoint⟩ := (inv_iff r).mp (hseqs r (List.mem_of_getElem? hr))
  simp only [Sequencer.PointInv, hq] at hpoint
  rw [advance_busy c hr hq]
  cases q with
  | apply q => exact applyResume_answers c hpoint hself
  | receive q => exact receiveResume_answers c hpoint hself
  | send q => exact sendResume_answers c hpoint hself

/-! ## The lock discipline -/

/-- Only an agent that holds the lock adds to the port's history. -/
theorem PortMove.history_cases {a : Agent} {out : Option Byte} {p p' : Port} {held held' : Bool}
    (h : PortMove a out p held held' p') : p'.history = p.history ∨ held = true := by
  cases h with
  | stay | grant | release => exact .inl rfl
  | write | read => exact .inr rfl

theorem OpStep.history_cases {k : Nat} {q : Point} {r : Sequencer} {s t : State} (h : OpStep k q r s t) :
    t.port.history = s.port.history ∨ q.holdsLock = true := by
  cases h with
  | rest _ _ hp => exact hp.history_cases
  | succeed _ hp => exact hp.history_cases
  | fail _ _ hp => exact hp.history_cases

/-- Settles O48: a step that adds to the history is taken under the lock, and so is one at any of the points named. -/
theorem blockKeepsLockDiscipline : Obligations.BlockKeepsLockDiscipline := by
  unfold Obligations.BlockKeepsLockDiscipline
  intro s t k c r q hs hr hq h hwhere
  rw [lockOwner_iff_holdsLock hs hr hq]
  obtain hhistory | ⟨i, rfl | rfl⟩ | rfl | rfl | rfl | rfl | rfl := hwhere
  case inl => exact (advance_opStep hr hq h).history_cases.resolve_left hhistory
  all_goals rfl

/-- An agent that does not hold the lock leaves the port as it is while another holds it. -/
theorem PortMove.eq_of_owner {a b : Agent} {out : Option Byte} {p p' : Port} {held held' : Bool}
    (h : PortMove a out p held held' p') (ho : p.lockOwner = some b) (hheld : held = false) : p' = p := by
  cases h with
  | stay => rfl
  | grant hfree => simp [ho] at hfree
  | release | write | read => cases hheld

theorem unlockedBy_eq_self {k : Nat} {p : Port} (h : p.lockOwner ≠ some (.sequencer k)) : unlockedBy k p = p := by
  rw [unlockedBy, if_neg h]

theorem OpStep.port_eq_of_owner {k : Nat} {q : Point} {r : Sequencer} {s t : State} {a : Agent} (h : OpStep k q r s t)
    (ho : s.port.lockOwner = some a) (ha : a ≠ .sequencer k) (hq : q.holdsLock = false) : t.port = s.port := by
  cases h with
  | rest _ _ hp => exact hp.eq_of_owner ho hq
  | succeed _ hp => exact hp.eq_of_owner ho hq
  | fail _ _ hp =>
    obtain rfl := hp.eq_of_owner ho hq
    exact unlockedBy_eq_self (by simpa [ho] using ha)

/-- While another agent holds the lock, a sequencer's step leaves the port as it is. -/
theorem advance_port_of_owner {k : Nat} {c : LockChoice} {s t : State} {a : Agent} (hs : s.Inv)
    (h : advance k c s = .next t) (ho : s.port.lockOwner = some a) (ha : a ≠ .sequencer k) : t.port = s.port := by
  obtain rfl | ⟨r, q, qs, -, -, -, h⟩ | ⟨r, q, hr, hq, h⟩ := advance_next h
  · rfl
  · obtain ⟨r₀, r', -, -, rfl, -⟩ := exec_next h
    rfl
  · have hheld : ¬ q.holdsLock = true := by
      rw [← lockOwner_iff_holdsLock hs hr hq, ho]
      simpa using ha
    exact (resume_opStep h).port_eq_of_owner ho ha (Bool.eq_false_iff.mpr hheld)

/-- While another agent holds the lock, a disciplined environment agent leaves the port as it is. -/
theorem envAct_port_of_owner {a : Nat} {act : EnvAction} {s t : State} {b : Agent} (h : envAct a act s = .next t)
    (ho : s.port.lockOwner = some b) (hb : b ≠ .env a) (hd : (Move.env a act).disciplined s = true) :
    t.port = s.port := by
  have hother : s.port.lockOwner ≠ some (.env a) := by simpa [ho] using hb
  obtain ⟨p, rfl, ⟨-, hfree, -⟩ | ⟨-, rfl⟩ | ⟨-, hown, -⟩ | ⟨v, rfl, -⟩ | ⟨rfl, -⟩⟩ := envAct_port h
  · simp [ho] at hfree
  · rfl
  · exact absurd hown hother
  · exact absurd (of_decide_eq_true hd) hother
  · exact absurd (of_decide_eq_true hd) hother

/-- What the lock keeps for its holder `a`: the lock itself, the bytes written, and `rx_q` but for arrivals. -/
def Port.KeptFor (a : Agent) (p p' : Port) : Prop :=
  p'.lockOwner = some a ∧ p'.wireOut ++ p'.txQ = p.wireOut ++ p.txQ ∧ ∃ new, p'.rxQ = p.rxQ ++ new

namespace Port.KeptFor

variable {a : Agent} {p p' : Port}

theorem of_eq (ho : p.lockOwner = some a) (h : p' = p) : p.KeptFor a p' := by
  subst h
  exact ⟨ho, rfl, [], (List.append_nil _).symm⟩

theorem arrive (ho : p.lockOwner = some a) (cap : Option Nat) (b : Byte) : p.KeptFor a (p.arrive cap b) := by
  obtain harr | harr := arrive_cases cap b p
  · rw [harr]
    exact ⟨ho, rfl, [b], rfl⟩
  · exact .of_eq ho harr

/-- The transmitter changes no byte written and no order between them (R65). -/
theorem transmit (ho : p.lockOwner = some a) : p.KeptFor a p.transmit := by
  cases hq : p.txQ with
  | nil => exact .of_eq ho (transmit_empty p hq)
  | cons b rest =>
    rw [transmit_cons p b rest hq]
    exact ⟨ho, by simp [hq], [], (List.append_nil _).symm⟩

end Port.KeptFor

/-- Settles O49: the other agents' moves leave the port as it is, and what the receive source and the transmitter do is
within what the lock keeps. -/
theorem lockExcludesOthers : Obligations.LockExcludesOthers := by
  unfold Obligations.LockExcludesOthers
  intro s t m a hs ho ha hreset hd h
  change s.port.KeptFor a t.port
  cases m with
  | advance k c => exact .of_eq ho (advance_port_of_owner hs h ho (of_decide_eq_false ha))
  | env b act => exact .of_eq ho (envAct_port_of_owner h ho (of_decide_eq_false ha) hd)
  | present k q => cases h; exact .of_eq ho (present_port k q s)
  | hostRead k o => exact .of_eq ho (by rw [hostRead_next h])
  | arrive b => cases h; exact .arrive ho _ b
  | transmit => cases h; exact .transmit ho
  | reset rxQ0 => cases hreset

end Sys2Proof.Machine
end

section
/-! SUPPORT. The encodings of 30_encoding.md as numbers: the places of the fields in the packed configuration and in the
command frame, what `Encode` reads, and what the operations make of `own_channel`. -/

namespace Sys2Proof.Machine

/-! ## The packed configuration (R82) -/

theorem extractLsb'_eq_ofNat_div {w : Nat} (x : BitVec w) (start len : Nat) :
    x.extractLsb' start len = BitVec.ofNat len (x.toNat / 2 ^ start) := by
  rw [← Nat.shiftRight_eq_div_pow]
  rfl

/-- Fields cut out of one word next to each other make up the word again. -/
theorem packConfig_unpackConfig (w : BitVec 83) : packConfig (unpackConfig w) = w := by
  simp only [packConfig, unpackConfig, Option.getD_some, Word16, Byte]
  simp only [BitVec.extractLsb'_append_extractLsb'_eq_extractLsb']
  exact BitVec.extractLsb'_eq_self

theorem toNat_append_eq_add {v w : Nat} (x : BitVec v) (y : BitVec w) :
    (x ++ y).toNat = 2 ^ w * x.toNat + y.toNat := by
  rw [BitVec.toNat_append, Nat.shiftLeft_eq, Nat.mul_comm, Nat.two_pow_add_eq_or_of_lt y.isLt]

theorem ofNat_eq_of_mod_eq {w n : Nat} {x : BitVec w} (h : n % 2 ^ w = x.toNat) : BitVec.ofNat w n = x :=
  BitVec.eq_of_toNat_eq ((BitVec.toNat_ofNat n w).trans h)

/-- The packed word as a number: each field times its place. -/
theorem packConfig_toNat (c : ConfigurationRecord) :
    (packConfig c).toNat =
      2 ^ 67 * (c.ownAddress.getD 0).toNat + 2 ^ 64 * (c.baudRate.getD 0).toNat +
        2 ^ 59 * (c.airDataRate.getD 0).toNat + 2 ^ 57 * (c.subpacketSize.getD 0).toNat +
        2 ^ 56 * (c.rssiAmbientNoiseFlag.getD 0).toNat + 2 ^ 54 * (c.transmittingPower.getD 0).toNat +
        2 ^ 46 * (c.ownChannel.getD 0).toNat + 2 ^ 45 * (c.rssiByteFlag.getD 0).toNat +
        2 ^ 44 * (c.transmissionMethodType.getD 0).toNat + 2 ^ 43 * (c.lbtFlag.getD 0).toNat +
        2 ^ 40 * (c.worCycle.getD 0).toNat + 2 ^ 24 * (c.encryptionKey.getD 0).toNat +
        2 ^ 8 * (c.targetAddress.getD 0).toNat + (c.targetChannel.getD 0).toNat := by
  rw [packConfig, toNat_append_eq_add]
  simp only [toNat_append_eq_add]
  omega

/-- A record with every field written is given by its fourteen values. -/
theorem allWritten_cases {c : ConfigurationRecord} (h : c.allWritten = true) :
    ∃ addr baud air size noise power ch rssi method lbt wor key taddr tch, c =
      ⟨some addr, some baud, some air, some size, some noise, some power, some ch, some rssi, some method, some lbt,
       some wor, some key, some taddr, some tch⟩ := by
  rcases c with ⟨o1, o2, o3, o4, o5, o6, o7, o8, o9, o10, o11, o12, o13, o14⟩
  simp only [ConfigurationRecord.allWritten, Bool.and_eq_true, Option.isSome_iff_exists, and_assoc] at h
  obtain ⟨⟨_, rfl⟩, ⟨_, rfl⟩, ⟨_, rfl⟩, ⟨_, rfl⟩, ⟨_, rfl⟩, ⟨_, rfl⟩, ⟨_, rfl⟩, ⟨_, rfl⟩, ⟨_, rfl⟩, ⟨_, rfl⟩, ⟨_, rfl⟩,
    ⟨_, rfl⟩, ⟨_, rfl⟩, ⟨_, rfl⟩⟩ := h
  exact ⟨_, _, _, _, _, _, _, _, _, _, _, _, _, _, rfl⟩

/-- Each field's bits are a quotient of the packed word, and packing puts the field's value there. -/
theorem unpackConfig_packConfig {c : ConfigurationRecord} (h : c.allWritten = true) :
    unpackConfig (packConfig c) = c := by
  obtain ⟨addr, baud, air, size, noise, power, ch, rssi, method, lbt, wor, key, taddr, tch, rfl⟩ := allWritten_cases h
  simp only [unpackConfig, extractLsb'_eq_ofNat_div, packConfig_toNat, Option.getD_some, ConfigurationRecord.mk.injEq,
    Option.some.injEq]
  refine ⟨?_, ?_, ?_, ?_, ?_, ?_, ?_, ?_, ?_, ?_, ?_, ?_, ?_, ?_⟩ <;> exact ofNat_eq_of_mod_eq (by omega)

/-- Settles O3: the two inverses, and each field's bits read as a quotient of the word. -/
theorem configPackingIsLossless : Obligations.ConfigPackingIsLossless := by
  unfold Obligations.ConfigPackingIsLossless
  refine ⟨packConfig_unpackConfig, fun c => unpackConfig_packConfig, fun w => ?_⟩
  simp only [unpackConfig, extractLsb'_eq_ofNat_div, pow_zero, Nat.div_one, and_self]

/-! ## The op codes (R81) -/

/-- The op codes left are the two whose bit 0 the reserved operation keeps. -/
theorem opCode_illegal11x {op : BitVec 3} (h0 : op ≠ 0b000) (h1 : op ≠ 0b001) (h2 : op ≠ 0b010) (h3 : op ≠ 0b011)
    (h4 : op ≠ 0b100) (h5 : op ≠ 0b101) : (Instr.illegal11x (op.extractLsb' 0 1)).opCode = op := by
  obtain rfl | rfl : op = 0b110 ∨ op = 0b111 := by bv_omega
  · rfl
  · rfl

theorem decodeRequest_opCode (q : Request) : (decodeRequest q).opCode = q.op := by
  unfold decodeRequest
  split_ifs with h0 h1 h2 h3 h4 h5
  · exact h0.symm
  · exact h1.symm
  · exact h2.symm
  · exact h3.symm
  · exact h4.symm
  · exact h5.symm
  · exact opCode_illegal11x h0 h1 h2 h3 h4 h5

/-- Settles O4: the decoder tests the op code for each of its eight values. -/
theorem opCodeSelectsOperation : Obligations.OpCodeSelectsOperation := by
  unfold Obligations.OpCodeSelectsOperation
  intro q
  refine ⟨?_, ?_, ?_, ?_, ?_, ?_, ?_, ?_, decodeRequest_opCode q⟩ <;> intro h <;> simp [decodeRequest, h]

/-! ## Bit fields as numbers -/

/-- A field widened and shifted to bit `k` is its value times `2 ^ k`, where it fits. -/
theorem toNat_setWidth_shiftLeft {n w : Nat} (x : BitVec n) {k : Nat} (h : k + n ≤ w) :
    (x.setWidth w <<< k).toNat = 2 ^ k * x.toNat := by
  have hx : x.toNat < 2 ^ n := x.isLt
  have hshift : 2 ^ k * x.toNat < 2 ^ w := calc
    2 ^ k * x.toNat < 2 ^ k * 2 ^ n := Nat.mul_lt_mul_of_pos_left hx (Nat.two_pow_pos k)
    _ = 2 ^ (k + n) := (pow_add 2 k n).symm
    _ ≤ 2 ^ w := Nat.pow_le_pow_right Nat.two_pos h
  rw [BitVec.toNat_shiftLeft, BitVec.toNat_setWidth_of_le (by omega), Nat.shiftLeft_eq, Nat.mul_comm,
    Nat.mod_eq_of_lt hshift]

/-- A word whose low `k` bits are zero, joined with one of `k` bits, is the sum of the two. -/
theorem toNat_or_of_lt {w : Nat} {x y : BitVec w} (k : Nat) (hx : 2 ^ k ∣ x.toNat) (hy : y.toNat < 2 ^ k) :
    (x ||| y).toNat = x.toNat + y.toNat := by
  obtain ⟨m, hm⟩ := hx
  rw [BitVec.toNat_or, hm, Nat.two_pow_add_eq_or_of_lt hy]

theorem hiByte_toNat (v : Word16) : (hiByte v).toNat = v.toNat / 256 := by
  have hv := v.isLt
  rw [hiByte, extractLsb'_eq_ofNat_div, BitVec.toNat_ofNat]
  omega

theorem loByte_toNat (v : Word16) : (loByte v).toNat = v.toNat % 256 := by
  rw [loByte, extractLsb'_eq_ofNat_div, BitVec.toNat_ofNat]
  omega

/-- The two bytes of a 16-bit value, joined, are the value (R89). -/
theorem hiByte_or_loByte (v : Word16) : ((hiByte v).setWidth 16 <<< 8) ||| (loByte v).setWidth 16 = v := by
  have hhi := toNat_setWidth_shiftLeft (w := 16) (hiByte v) (k := 8) (by decide)
  have hlo : ((loByte v).setWidth 16).toNat = v.toNat % 256 := by
    rw [BitVec.toNat_setWidth_of_le (by decide), loByte_toNat]
  apply BitVec.eq_of_toNat_eq
  rw [toNat_or_of_lt 8 (hhi ▸ Dvd.intro _ rfl) (by omega), hhi, hlo, hiByte_toNat]
  omega

/-- Settles O8: the bytes are the two halves, and their join is the value. -/
theorem highLowSplitIsLossless : Obligations.HighLowSplitIsLossless := by
  unfold Obligations.HighLowSplitIsLossless
  exact fun v => ⟨rfl, rfl, hiByte_or_loByte v⟩

/-! ## MAXPAY and the RSSI byte -/

/-- Settles O9: the four codes, and the default arm for the rest (R93). -/
theorem maxPayTable : Obligations.MaxPayTable := by
  unfold Obligations.MaxPayTable
  refine ⟨rfl, rfl, rfl, rfl, fun code h => ?_⟩
  match code with
  | _ + 4 => rfl

/-- The RSSI byte stands below a high byte of ones (R95). -/
theorem rssiOf_toNat (b : Byte) : (rssiOf b).toNat = 0xFF00 + b.toNat := by
  unfold rssiOf
  bv_omega

theorem rssiOf_eq_or (b : Byte) : rssiOf b = 0xFF00 ||| b.setWidth 16 := by
  have hb : (b.setWidth 16).toNat = b.toNat := BitVec.toNat_setWidth_of_le (by decide)
  apply BitVec.eq_of_toNat_eq
  rw [toNat_or_of_lt 8 (by decide) (hb ▸ b.isLt), hb, rssiOf_toNat]
  rfl

/-- Settles O10: the number of `rssiOf_toNat` read as an `int16`. -/
theorem rssiDecode : Obligations.RssiDecode := by
  unfold Obligations.RssiDecode
  intro b
  have hb := b.isLt
  refine ⟨?_, rssiOf_eq_or b, rssiOf_range b⟩
  rw [BitVec.toInt_eq_toNat_cond, rssiOf_toNat]
  omega

/-! ## The command frame (R84 to R88) -/

theorem reg2_toNat (e : EncodeFields) : (reg2 e).toNat = 32 * e.baudRate.toNat + e.airDataRate.toNat := by
  have hbaud := toNat_setWidth_shiftLeft (w := 8) e.baudRate (k := 5) (by decide)
  have hair : (e.airDataRate.setWidth 8).toNat = e.airDataRate.toNat := BitVec.toNat_setWidth_of_le (by decide)
  rw [reg2, toNat_or_of_lt 5 (by omega) (hair ▸ e.airDataRate.isLt), hbaud, hair]
  rfl

theorem reg3_toNat (e : EncodeFields) :
    (reg3 e).toNat = 64 * e.subpacketSize.toNat + 32 * e.rssiAmbientNoiseFlag.toNat + e.transmittingPower.toNat := by
  have hsize := toNat_setWidth_shiftLeft (w := 8) e.subpacketSize (k := 6) (by decide)
  have hnoise := toNat_setWidth_shiftLeft (w := 8) e.rssiAmbientNoiseFlag (k := 5) (by decide)
  have hpower : (e.transmittingPower.setWidth 8).toNat = e.transmittingPower.toNat :=
    BitVec.toNat_setWidth_of_le (by decide)
  have hflag := e.rssiAmbientNoiseFlag.isLt
  have hhigh := toNat_or_of_lt 6 (x := e.subpacketSize.setWidth 8 <<< 6) (y := e.rssiAmbientNoiseFlag.setWidth 8 <<< 5)
    (by omega) (by omega)
  rw [reg3, toNat_or_of_lt 2 (by omega) (hpower ▸ e.transmittingPower.isLt), hhigh, hsize, hnoise, hpower]
  rfl

theorem reg5_toNat (e : EncodeFields) :
    (reg5 e).toNat = 128 * e.rssiByteFlag.toNat + 64 * e.transmissionMethodType.toNat + 16 * e.lbtFlag.toNat +
      e.worCycle.toNat := by
  have hrssi := toNat_setWidth_shiftLeft (w := 8) e.rssiByteFlag (k := 7) (by decide)
  have hmethod := toNat_setWidth_shiftLeft (w := 8) e.transmissionMethodType (k := 6) (by decide)
  have hlbt := toNat_setWidth_shiftLeft (w := 8) e.lbtFlag (k := 4) (by decide)
  have hwor : (e.worCycle.setWidth 8).toNat = e.worCycle.toNat := BitVec.toNat_setWidth_of_le (by decide)
  have hmethodLt := e.transmissionMethodType.isLt
  have hlbtLt := e.lbtFlag.isLt
  have htop := toNat_or_of_lt 7 (x := e.rssiByteFlag.setWidth 8 <<< 7)
    (y := e.transmissionMethodType.setWidth 8 <<< 6) (by omega) (by omega)
  have hhigh := toNat_or_of_lt 6 (x := e.rssiByteFlag.setWidth 8 <<< 7 ||| e.transmissionMethodType.setWidth 8 <<< 6)
    (y := e.lbtFlag.setWidth 8 <<< 4) (by omega) (by omega)
  rw [reg5, toNat_or_of_lt 3 (by omega) (hwor ▸ e.worCycle.isLt), hhigh, htop, hrssi, hmethod, hlbt, hwor]
  rfl

/-- Settles O6: the registers' values, and the two bytes of the address and of the key. -/
theorem commandFrameBytes : Obligations.CommandFrameBytes := by
  unfold Obligations.CommandFrameBytes
  intro e
  rw [← hiByte_toNat, ← loByte_toNat, ← reg2_toNat, ← reg3_toNat, ← reg5_toNat, ← hiByte_toNat, ← loByte_toNat]
  rfl

/-- Each byte's number gives its fields back: the fields of a register byte do not overlap (R90). -/
theorem commandFrame_injective {e e' : EncodeFields} (h : commandFrame e = commandFrame e') : e = e' := by
  have hbytes := commandFrameBytes e
  rw [h, commandFrameBytes e'] at hbytes
  simp only [List.cons.injEq] at hbytes
  obtain ⟨-, -, -, haddrHi, haddrLo, hreg2, hreg3, hchannel, hreg5, hkeyHi, hkeyLo, -⟩ := hbytes
  rcases e with ⟨addr, baud, air, size, noise, power, channel, rssi, method, lbt, wor, key⟩
  rcases e' with ⟨addr', baud', air', size', noise', power', channel', rssi', method', lbt', wor', key'⟩
  simp only [EncodeFields.mk.injEq]
  refine ⟨?_, ?_, ?_, ?_, ?_, ?_, ?_, ?_, ?_, ?_, ?_, ?_⟩ <;> bv_omega

/-! ## What `Encode` reads (R90) -/

/-- The configuration whose fields are `e` and the given target fields. -/
def EncodeFields.record (e : EncodeFields) (targetAddress : Option Word16) (targetChannel : Option Byte) :
    ConfigurationRecord where
  ownAddress := some e.ownAddress
  baudRate := some e.baudRate
  airDataRate := some e.airDataRate
  subpacketSize := some e.subpacketSize
  rssiAmbientNoiseFlag := some e.rssiAmbientNoiseFlag
  transmittingPower := some e.transmittingPower
  ownChannel := some e.ownChannel
  rssiByteFlag := some e.rssiByteFlag
  transmissionMethodType := some e.transmissionMethodType
  lbtFlag := some e.lbtFlag
  worCycle := some e.worCycle
  encryptionKey := some e.encryptionKey
  targetAddress := targetAddress
  targetChannel := targetChannel

/-- What `Encode` reads leaves nothing of the configuration open but its target fields. -/
theorem eq_record_of_encodeFields {c : ConfigurationRecord} {e : EncodeFields} (h : encodeFields c = some e) :
    c = e.record c.targetAddress c.targetChannel := by
  rcases c with ⟨o1, o2, o3, o4, o5, o6, o7, o8, o9, o10, o11, o12, o13, o14⟩
  simp only [encodeFields, Option.bind_eq_bind, Option.bind_eq_some_iff] at h
  obtain ⟨_, rfl, _, rfl, _, rfl, _, rfl, _, rfl, _, rfl, _, rfl, _, rfl, _, rfl, _, rfl, _, rfl, _, rfl, h⟩ := h
  cases h
  rfl

/-- Settles O7: a configuration `Encode` reads is the record of the fields it reads, and the frame determines these. -/
theorem encodeIsTotalAndInjective : Obligations.EncodeIsTotalAndInjective := by
  unfold Obligations.EncodeIsTotalAndInjective
  refine ⟨fun c h => (encodeFields_isSome c).trans h, fun c e h => ?_, fun _ _ _ => rfl,
    fun _ _ => commandFrame_injective, fun c c' e e' h h' hframe => ?_⟩
  · rw [eq_record_of_encodeFields h]
    simp [EncodeFields.record]
  · obtain rfl := commandFrame_injective hframe
    rw [eq_record_of_encodeFields h, eq_record_of_encodeFields h']
    rfl

/-! ## Accepting a request with a configuration -/

section Accept

variable {s : State} {r : Sequencer} {cfg : ConfigurationRecord} {e : EncodeFields}

/-- ENCODE (R111): the frame goes into `cmd`, and the operation has ended. -/
theorem exec_encode_eq (hr : s.seqs[s.cur]? = some r) (hi : r.seq = .idle) (he : encodeFields cfg = some e) :
    exec (.encode cfg) s =
      .next (s.put s.cur
        (({ r with cfg := cfg, cmd := some (commandFrame e), fresh := [.cmd] } : Sequencer).finish true .none)
        s.port) := by
  simp only [exec, execEncode, accept_idle _ hr hi, he, readWritten_some]

/-- APPLY of a channel in range (R120): the frame goes into `cmd`, and the operation stands before its `Acquire`. -/
theorem exec_apply_accepts (hr : s.seqs[s.cur]? = some r) (hi : r.seq = .idle) (he : encodeFields cfg = some e)
    (hle : e.ownChannel.toNat ≤ 30) :
    exec (.apply cfg) s =
      .next (s.put s.cur
        (({ r with cfg := cfg, cmd := some (commandFrame e), fresh := [.cmd] } : Sequencer).restAt
          (.apply (.a2 .acquire))) s.port) := by
  simp only [exec, execApply, accept_idle _ hr hi, encodeFields_ownChannel he, he, readWritten_some,
    (channel_inRange_iff e.ownChannel).mpr hle, if_true]

/-- APPLY of a channel out of range (R121): the operation has ended before it encodes. -/
theorem exec_apply_refuses {ch : Byte} (hr : s.seqs[s.cur]? = some r) (hi : r.seq = .idle)
    (hch : cfg.ownChannel = some ch) (hlt : 30 < ch.toNat) :
    exec (.apply cfg) s =
      .next (s.put s.cur (({ r with cfg := cfg, fresh := [] } : Sequencer).finish false .invalidConfig) s.port) := by
  have hrange : ¬ inRange 0 chanMax ch.toNat = true := by
    rw [channel_inRange_iff]
    omega
  simp only [exec, execApply, accept_idle _ hr hi, hch, readWritten_some, if_neg hrange]

/-- SEND of a payload within the maximum (R170 to R173): the frame goes into `tx_frame`, and the operation stands before
its `Acquire`. -/
theorem exec_send_accepts {payload : List Byte} {sp : BitVec 2} {addr : Word16} {ch : Byte}
    (hr : s.seqs[s.cur]? = some r) (hi : r.seq = .idle) (hsp : cfg.subpacketSize = some sp)
    (haddr : cfg.targetAddress = some addr) (hch : cfg.targetChannel = some ch)
    (hlen : payload.length ≤ (maxPayOf sp.toNat).toNat) :
    exec (.send cfg payload) s =
      .next (s.put s.cur
        (({ r with cfg := cfg, maxPay := some (maxPayOf sp.toNat), txFrame := some (outboundFrame addr ch payload),
                   fresh := [.txFrame, .maxPay] } : Sequencer).restAt (.send (.s3 .acquire))) s.port) := by
  simp only [exec, execSend, accept_idle _ hr hi, hsp, haddr, hch, readWritten_some, if_neg (Nat.not_lt.mpr hlen)]

end Accept

/-- Settles O60: the steps that accept ENCODE, APPLY on both sides of the bound, and SEND, with byte 7 of the frame. -/
theorem ownChannelIsRegister4 : Obligations.OwnChannelIsRegister4 := by
  unfold Obligations.OwnChannelIsRegister4
  intro s r cfg e hr hi he
  have hput (r' : Sequencer) : (s.put s.cur r' s.port).seqs[s.cur]? = some r' :=
    List.getElem?_set_self (lt_length_of_getElem? hr)
  refine ⟨?_, fun hle => ?_, fun hlt => ?_, fun payload hlen haddr hch => ?_⟩
  · exact ⟨_, _, _, exec_encode_eq hr hi he, hput _, rfl, rfl, rfl⟩
  · exact ⟨_, _, _, exec_apply_accepts hr hi he hle, hput _, by simp, rfl, rfl⟩
  · exact ⟨_, _, exec_apply_refuses hr hi (encodeFields_ownChannel he) hlt, hput _, rfl, rfl, rfl⟩
  · obtain ⟨addr, haddr⟩ := Option.isSome_iff_exists.mp haddr
    obtain ⟨ch, hch⟩ := Option.isSome_iff_exists.mp hch
    have hsp : cfg.subpacketSize = some e.subpacketSize := by rw [eq_record_of_encodeFields he, EncodeFields.record]
    exact ⟨_, _, exec_send_accepts hr hi hsp haddr hch hlen, hput _, rfl⟩

end Sys2Proof.Machine
end

section
/-! SUPPORT. The configuration path (40_config_path.md): what VALIDATE, ENCODE and APPLY answer in the step that accepts
them, a whole transmit phase as one run, said once for the operations that share it, and APPLY from its acceptance to its
end. -/

namespace Sys2Proof.Machine

/-! ## The step that accepts the request -/

/-- The channel check as the comparison it decides (R110, R112). -/
theorem channel_inRange_eq (v : Byte) : inRange 0 chanMax v.toNat = decide (v.toNat ≤ 30) :=
  Bool.eq_iff_iff.mpr ((channel_inRange_iff v).trans decide_eq_true_iff.symm)

/-- Settles O12: VALIDATE writes the answer of the channel check and finishes. -/
theorem validateResult : Obligations.ValidateResult := by
  unfold Obligations.ValidateResult
  intro s r v hr hi
  simp only [exec, execValidate, accept_idle _ hr hi, channel_inRange_eq]
  rfl

/-- ENCODE of a configuration that leaves out a field it reads (R38, R111). -/
theorem exec_encode_faults {s : State} {r : Sequencer} {cfg : ConfigurationRecord} (hr : s.seqs[s.cur]? = some r)
    (hi : r.seq = .idle) (h : cfg.encodeWritten = false) : exec (.encode cfg) s = .fault .readUnwritten := by
  simp only [exec, execEncode, accept_idle _ hr hi, encodeFields_eq_none h, readWritten_none]

/-- Settles O13: the fields `Encode` reads are written, or one of them is left out. -/
theorem encodeResult : Obligations.EncodeResult := by
  unfold Obligations.EncodeResult
  intro s r cfg hr hi
  exact ⟨fun e he => exec_encode_eq hr hi he, exec_encode_faults hr hi⟩

/-- Settles O14: the channel is in range, so APPLY encodes and goes on to A2. -/
theorem applyStarts : Obligations.ApplyStarts := by
  unfold Obligations.ApplyStarts
  intro s r cfg e hr hi he hle
  exact exec_apply_accepts hr hi he hle

/-- Settles O16: the channel is out of range, so APPLY ends before it encodes. -/
theorem applyRefusesChannel : Obligations.ApplyRefusesChannel := by
  unfold Obligations.ApplyRefusesChannel
  intro s r cfg ch hr hi hch hlt
  exact exec_apply_refuses hr hi hch hlt

/-! ## A sequencer that runs alone -/

@[simp] theorem restAt_restAt (q q' : Point) (r : Sequencer) : (r.restAt q).restAt q' = r.restAt q' := rfl

section Runs

variable {k : Nat} {c : LockChoice} {r : Sequencer} {s : State} {p p' : Port}

/-- A phase's point and frame do not depend on where the sequencer stands. -/
theorem TxPhase.restAt {C : Tx → Point} {f : Option (List Byte)} {q : Point} (hC : TxPhase r C f q) (x : Point) :
    TxPhase (r.restAt x) C f q := by
  cases hC with
  | apply => exact .apply
  | send => exact .send

/-- A step within a transmit phase, of the sequencer just put in the state. -/
theorem TxPhase.resume_put {C : Tx → Point} {f : Option (List Byte)} {q : Point} {t t' : Tx} (hC : TxPhase r C f q)
    (h : txStep (.sequencer k) c f t p = .ok (.goto t', p')) :
    resume k c (C t) (r.restAt (C t)) (s.put k (r.restAt (C t)) p) = .next (s.put k (r.restAt (C t')) p') := by
  rw [(hC.restAt (C t)).resume_goto h, put_put, restAt_restAt]

/-- A step within a burst, of the sequencer just put in the state. -/
theorem BurstPhase.resume_put {B : Burst → Point} {b b' : Burst} (hB : BurstPhase B)
    (h : burstStep s.params.granularity (.sequencer k) c b p = .ok (.goto b', p')) :
    resume k c (B b) (r.restAt (B b)) (s.put k (r.restAt (B b)) p) = .next (s.put k (r.restAt (B b')) p') := by
  rw [hB.resume_goto h, put_put, restAt_restAt]

/-- On a free lock, one step takes the lock and one writes each byte of the frame (R52, R64). -/
theorem TxPhase.write_run {C : Tx → Point} {bs : List Byte} {q : Point} (hC : TxPhase r C (some bs) q)
    (hk : k < s.seqs.length) (hlock : p.lockOwner = none) (hbs : 0 < bs.length) :
    runMoves (advances k (bs.length + 1)) (s.put k (r.restAt (C .acquire)) p) =
      .next (s.put k (r.restAt (C .flush))
        { p with lockOwner := some (.sequencer k), txQ := p.txQ ++ bs,
                 history := p.history ++ bs.map (PortEvent.wr (.sequencer k)) }) := by
  obtain ⟨m, hm⟩ : ∃ m, bs.length = m + 1 := ⟨bs.length - 1, by omega⟩
  rw [runMoves_put hk rfl (hC.resume_put (txStep_acquire_free _ _ _ hlock)), hm,
    runMoves_writes C hk (fun _ _ _ _ => hC.resume_put) m 0 _ (by omega)]
  rfl

/-- A transmit phase run alone, the lock free and `tx_q` empty at its start: the frame is on the wire, and the operation
holds the lock (R52, R57, R64). -/
theorem TxPhase.send_run {C : Tx → Point} {bs : List Byte} {q : Point} (hC : TxPhase r C (some bs) q)
    (hk : k < s.seqs.length) (hlock : p.lockOwner = none) (htx : p.txQ = []) (hbs : 0 < bs.length) :
    runMoves (advances k (bs.length + 1) ++ (transmits bs.length ++ advances k 1)) (s.put k (r.restAt (C .acquire)) p) =
      .next (s.put k (r.restAt q)
        { p with lockOwner := some (.sequencer k), wireOut := p.wireOut ++ bs,
                 history := p.history ++ bs.map (PortEvent.wr (.sequencer k)) }) := by
  have hput (r' : Sequencer) (p' : Port) : (s.put k r' p').seqs[k]? = some r' := List.getElem?_set_self hk
  have hflush := (hC.restAt (C .flush)).flush_run (hput (r.restAt (C .flush))
    { p with lockOwner := some (.sequencer k), txQ := bs,
             history := p.history ++ bs.map (PortEvent.wr (.sequencer k)) }) rfl
  rw [put_put, restAt_restAt] at hflush
  rw [runMoves_trans (hC.write_run hk hlock hbs) rfl, htx]
  exact hflush.trans (by simp)

/-! ## APPLY's counter (R32, R120) -/

/-- The value of `resp_cnt` after `n` bytes: it stops at 255. -/
def respCount (n : Nat) : Byte := BitVec.ofNat 8 (min n 255)

@[simp] theorem respCount_toNat (n : Nat) : (respCount n).toNat = min n 255 :=
  (BitVec.toNat_ofNat _ _).trans (Nat.mod_eq_of_lt (by omega))

theorem satSucc_respCount (n : Nat) : satSucc (respCount n) = respCount (n + 1) := by
  rw [satSucc, respCount_toNat, respCount]
  congr 1
  omega

/-- The registers of an APPLY that has counted `n` bytes of its answer. -/
def Sequencer.counted (r : Sequencer) (n : Nat) : Sequencer := { r with respCnt := some (respCount n) }

/-! ## APPLY's steps outside its transmit phase -/

/-- The `Release` of A2 clears the counter (R120). -/
theorem applyResume_release (h : p.lockOwner = some (.sequencer k)) :
    resume k c (.apply .a2Release) r (s.put k r p) =
      .next (s.put k (({ r with fresh := .respCnt :: r.fresh }.counted 0).restAt (.apply .a3Delay))
        { p with lockOwner := none }) := by
  simp only [resume, applyResume, put_port, release_owner h, put_put]
  rfl

/-- A byte of the answer is counted and dropped (R124). -/
theorem applyResume_byte {n : Nat} {v : Byte} {b b' : Burst}
    (h : burstStep s.params.granularity (.sequencer k) c b p = .ok (.byte v b', p')) :
    resume k c (.apply (.a4 b)) ((r.counted n).restAt (.apply (.a4 b)))
        (s.put k ((r.counted n).restAt (.apply (.a4 b))) p) =
      .next (s.put k ((r.counted (n + 1)).restAt (.apply (.a4 b'))) p') := by
  simp only [resume, applyResume, put_params, put_port, h, restAt_respCnt, Sequencer.counted, readWritten_some,
    satSucc_respCount, put_put]
  rfl

/-- The end of the burst is the echo check, by the length of the answer alone (R125): 255 is not the length of a frame, so
the counter's stop does not show. -/
theorem applyResume_done {n : Nat} {b : Burst}
    (h : burstStep s.params.granularity (.sequencer k) c b p = .ok (.done, p')) (hfree : p'.lockOwner = none) :
    resume k c (.apply (.a4 b)) ((r.counted n).restAt (.apply (.a4 b)))
        (s.put k ((r.counted n).restAt (.apply (.a4 b))) p) =
      .next (s.put k ((r.counted n).finish (decide (n = 11)) .echoMismatch) p') := by
  have hlen : (respCount n).toNat = 11 ↔ n = 11 := by
    rw [respCount_toNat]
    omega
  have hunlocked : unlockedBy k p' = p' := unlockedBy_eq_self (by simp [hfree])
  simp only [resume, applyResume, put_params, put_port, h, hlen, hunlocked, put_put,
    applyCheck_eq (r := (r.counted n).restAt (.apply (.a4 b))) (n := respCount n) rfl]
  by_cases heleven : n = 11
  · simp only [heleven, if_true, decide_true]
    rfl
  · simp only [heleven, if_false, decide_false]
    rfl

/-! ## APPLY run alone (R120) -/

/-- A2: the frame goes on the wire, the lock is free again, and the counter is clear. -/
theorem apply_a2_run {f : Vector Byte 11} (hk : k < s.seqs.length) (hcmd : r.cmd = some f) (hlock : p.lockOwner = none)
    (htx : p.txQ = []) :
    runMoves (advances k 12 ++ transmits 11 ++ advances k 2) (s.put k (r.restAt (.apply (.a2 .acquire))) p) =
      .next (s.put k (({ r with fresh := .respCnt :: r.fresh }.counted 0).restAt (.apply .a3Delay))
        { p with lockOwner := none, wireOut := p.wireOut ++ f.toList,
                 history := p.history ++ f.toList.map (PortEvent.wr (.sequencer k)) }) := by
  have hC : TxPhase r (fun t => .apply (.a2 t)) (some f.toList) (.apply .a2Release) := by
    simpa only [hcmd, Option.map_some] using TxPhase.apply (r := r)
  have hsend := hC.send_run hk hlock htx (by simp)
  rw [Vector.length_toList] at hsend
  rw [advances_add k 1 1, ← List.append_assoc, List.append_assoc (advances k 12), runMoves_trans hsend rfl,
    runMoves_put hk rfl (applyResume_release rfl)]
  rfl

/-- A3 to A5, on a free lock: every waiting byte is read and counted, and their number decides. -/
theorem apply_a4_run (hk : k < s.seqs.length) (hlock : p.lockOwner = none) :
    runMoves (advances k (1 + burstSteps s.params.granularity p.rxQ.length))
        (s.put k ((r.counted 0).restAt (.apply .a3Delay)) p) =
      .next (s.put k ((r.counted p.rxQ.length).finish (decide (p.rxQ.length = 11)) .echoMismatch)
        { p with rxQ := [], history := p.history ++ p.rxQ.map (PortEvent.rd (.sequencer k)) }) := by
  have hdelay : resume k .grant (.apply .a3Delay) ((r.counted 0).restAt (.apply .a3Delay))
      (s.put k ((r.counted 0).restAt (.apply .a3Delay)) p) =
        .next (s.put k ((r.counted 0).restAt (.apply (.a4 .first))) p) := by
    simp only [resume, applyResume, put_put, restAt_restAt, put_port]
  obtain ⟨b, p', hdone, hburst⟩ := runMoves_burst (s := s) (fun b => .apply (.a4 b)) r.counted p hk hlock
    (fun _ _ _ _ _ => BurstPhase.apply.resume_put) (fun _ _ _ _ _ _ => applyResume_byte)
  rw [Nat.add_comm, runMoves_put hk rfl hdelay, ← Nat.add_zero (burstSteps _ _), hburst,
    runMoves_put hk rfl (applyResume_done hdone hlock)]
  rfl

/-- From A3 to the end: the bytes that arrive during the delay join those that wait (decision D14). -/
theorem apply_a3_run {echo : List Byte} {n : Nat} (hk : k < s.seqs.length) (hn : p.rxQ.length + echo.length = n)
    (hlock : p.lockOwner = none) (hroom : ∀ cap, s.params.rxFifoCap = some cap → n ≤ cap) :
    runMoves (arrivals echo ++ advances k (1 + burstSteps s.params.granularity n))
        (s.put k ((r.counted 0).restAt (.apply .a3Delay)) p) =
      .next (s.put k ((r.counted n).finish (decide (n = 11)) .echoMismatch)
        { p with rxQ := [], history := p.history ++ echo.map PortEvent.arr ++
                                         (p.rxQ ++ echo).map (PortEvent.rd (.sequencer k)) }) := by
  subst hn
  rw [runMoves_trans (runMoves_arrivals (s := s.put k ((r.counted 0).restAt (.apply .a3Delay)) p) hroom) rfl,
    ← List.length_append]
  exact apply_a4_run (p := { p with rxQ := p.rxQ ++ echo, history := p.history ++ echo.map PortEvent.arr }) hk hlock

end Runs

/-- Settles O15: A2, the bytes that arrive during A3, and the burst with the check after it, one run after the other. -/
theorem applyRun : Obligations.ApplyRun := by
  unfold Obligations.ApplyRun
  intro s r cfg e echo hr hi he hle hlock htx hroom
  have hk : s.cur < s.seqs.length := lt_length_of_getElem? hr
  refine ⟨_, exec_apply_accepts hr hi he hle, rfl, ?_⟩
  have ha2 := apply_a2_run (r := { r with cfg := cfg, cmd := some (commandFrame e), fresh := [.cmd] }) hk rfl hlock htx
  rw [List.append_assoc, runMoves_trans ha2 rfl]
  refine Eq.trans (apply_a3_run hk (by rfl) (by rfl) hroom) ?_
  simp [htx, respCount, Sequencer.counted, Sequencer.finish]

end Sys2Proof.Machine
end

section
/-! SUPPORT. The frame receiver (41_frame_receive.md): what a step of RECEIVE answers at each of its points, the buffer that
holds the bytes read so far, RECEIVE from its acceptance to its end, and what other agents leave of a running operation. -/

namespace Sys2Proof.Machine

/-! ## RECEIVE's steps outside its burst -/

section Steps

variable {k : Nat} {q : ReceivePoint} {r : Sequencer} {s : State} {n : Byte} {buf : Vector Byte 200}

/-- Both availability tests of RECEIVE go to the start of X2 where bytes wait (R142, R144). -/
theorem receiveResume_avail_waiting (c : LockChoice) (hq : q = .x1Avail ∨ q = .x3Avail) (h : s.port.rxQ ≠ []) :
    receiveResume k c q r s =
      .next (s.put k (({ r with rxState := .draining } : Sequencer).restAt (.receive (.x2 .first))) s.port) := by
  obtain rfl | rfl := hq <;> simp [receiveResume, Port.avail, h]

/-- X1's availability test goes to the delay where none waits (R142). -/
theorem receiveResume_x1Avail_empty (c : LockChoice) (h : s.port.rxQ = []) :
    receiveResume k c .x1Avail r s = .next (s.put k (r.restAt (.receive .x1Delay)) s.port) := by
  simp [receiveResume, Port.avail, h]

/-- X3's availability test ends the frame where none waits (R145). -/
theorem receiveResume_x3Avail_empty (c : LockChoice) (h : s.port.rxQ = []) :
    receiveResume k c .x3Avail r s = receiveDone k r s := by
  simp [receiveResume, Port.avail, h]

/-- The last byte accumulated is the RSSI byte, and the length does not count it (R145). -/
theorem receiveDone_eq (hn : r.accLen = some n) (hbuf : r.rxBuf = some buf) (hpos : 1 ≤ n.toNat) (hle : n.toNat ≤ 200) :
    receiveDone k r s =
      .next (s.put k
        (({ r with rxState := .done, rxLen := some (n - 1), rxRssi := some (rssiOf buf[n.toNat - 1]),
                   fresh := .rxLen :: .rxRssi :: r.fresh } : Sequencer).finish true .none) s.port) := by
  have hlast : buf[(n - 1).toNat]? = some buf[n.toNat - 1] := by
    rw [accLen_pred_toNat hpos]
    exact Vector.getElem?_eq_getElem (by omega)
  simp only [receiveDone, hn, hbuf, readWritten_some, hlast]

/-- X2's end with bytes read goes on to Settling (R144). -/
theorem receiveBurstDone_settles {p : Port} (hn : r.accLen = some n) (hpos : n ≠ 0) :
    receiveBurstDone k r p s =
      .next (s.put k (({ r with rxState := .settling } : Sequencer).restAt (.receive .x3Delay)) p) := by
  simp only [receiveBurstDone, hn, readWritten_some, if_neg hpos]

/-! ## The byte a burst hands on (R143) -/

variable {v : Byte} {b : Burst} {p : Port}

theorem receiveByte_stores (hn : r.accLen = some n) (hbuf : r.rxBuf = some buf) (hlt : n.toNat < 200) :
    receiveByte k v b r p s =
      .next (s.put k
        (({ r with accLen := some (n + 1), rxBuf := some (buf.set n.toNat v hlt) } : Sequencer).restAt
          (.receive (.x2 b))) p) := by
  have hroom : ¬ n.toNat + 1 > rxMax := by
    simp only [rxMax]
    omega
  simp only [receiveByte, hn, hbuf, readWritten_some, dif_neg hroom]

/-- The registers of a RECEIVE that has counted the byte its buffer has no place for (R143). -/
def Sequencer.overflowed (r : Sequencer) : Sequencer := { r with accLen := some 201, rxState := .overflow }

/-- The 201st byte is counted; the operation ends at once, or at the `Release` of a lock it holds (R203). -/
theorem receiveByte_overflows (hn : r.accLen = some 200) :
    receiveByte k v b r p s =
      if p.lockOwner = some (.sequencer k) then .next (s.put k (r.overflowed.restAt (.receive .x2Overflow)) p)
      else .next (s.put k (r.overflowed.finish false .frameTooLarge) p) := by
  have hover : (200 : Byte).toNat + 1 > rxMax := by decide
  simp only [receiveByte, hn, readWritten_some, dif_pos hover]
  by_cases ho : p.lockOwner = some (.sequencer k)
  · simp only [if_pos ho]
    rfl
  · simp only [State.raise, if_neg ho]
    rfl

end Steps

/-- Settles O32: the test finds a byte, or ends the frame. -/
theorem settlingExtendsFrame : Obligations.SettlingExtendsFrame := by
  unfold Obligations.SettlingExtendsFrame
  intro s k c r hr hq
  rw [advance_busy c hr hq]
  refine ⟨receiveResume_avail_waiting c (.inr rfl), fun h n buf hpos hle hn hbuf => ?_⟩
  exact (receiveResume_x3Avail_empty c h).trans (receiveDone_eq hn hbuf hpos hle)

/-- Settles O34: the buffer with the byte set at the next index. -/
theorem receiveStoresOneByte : Obligations.ReceiveStoresOneByte := by
  unfold Obligations.ReceiveStoresOneByte
  intro s k b next r p n buf hn hbuf hlt
  refine ⟨_, receiveByte_stores hn hbuf hlt, fun j hj => ?_⟩
  rw [Vector.getElem_set]
  exact ite_congr (propext eq_comm) (fun _ => rfl) fun _ => rfl

/-! ## The bytes read so far -/

/-- The buffer that holds the bytes of `l` and zeros after them. -/
def frameBuffer (l : List Byte) : Vector Byte 200 := Vector.ofFn fun i => l.getD i 0

theorem frameBuffer_getElem (l : List Byte) {j : Nat} (h : j < 200) : (frameBuffer l)[j] = l.getD j 0 :=
  Vector.getElem_ofFn h

theorem frameBuffer_nil : frameBuffer [] = Vector.replicate 200 0 := by
  ext j hj
  rw [frameBuffer_getElem [] hj, Vector.getElem_replicate hj, List.getD_nil]

theorem frameBuffer_set {l : List Byte} (v : Byte) (h : l.length < 200) :
    (frameBuffer l).set l.length v h = frameBuffer (l ++ [v]) := by
  ext j hj
  rw [Vector.getElem_set, frameBuffer_getElem l hj, frameBuffer_getElem _ hj]
  obtain hlt | rfl | hgt := Nat.lt_trichotomy j l.length
  · rw [if_neg (Nat.ne_of_gt hlt), List.getD_append _ _ _ _ hlt]
  · simp
  · rw [if_neg (Nat.ne_of_lt hgt), List.getD_eq_default _ _ hgt.le, List.getD_eq_default]
    simpa using hgt

theorem frameBuffer_toList {l : List Byte} (h : l.length ≤ 200) :
    (frameBuffer l).toList = l ++ List.replicate (200 - l.length) 0 := by
  refine List.ext_getElem (by simp; omega) fun j hj _ => ?_
  rw [Vector.length_toList] at hj
  rw [Vector.getElem_toList, frameBuffer_getElem l hj]
  by_cases hlt : j < l.length
  · rw [List.getElem_append_left hlt, List.getD_eq_getElem _ _ hlt]
  · rw [List.getElem_append_right (by omega), List.getElem_replicate, List.getD_eq_default _ _ (by omega)]

/-- The registers of a RECEIVE that has read the bytes of `l`. -/
def Sequencer.received (r : Sequencer) (l : List Byte) : Sequencer :=
  { r with accLen := some (BitVec.ofNat 8 l.length), rxBuf := some (frameBuffer l) }

/-- The registers of a RECEIVE that has found the bytes of `body` and the RSSI byte `last` (R145, decision D13). -/
def Sequencer.framed (r : Sequencer) (body : List Byte) (last : Byte) : Sequencer :=
  { r.received (body ++ [last]) with
    rxState := .done, rxLen := some (BitVec.ofNat 8 body.length), rxRssi := some (rssiOf last),
    fresh := .rxLen :: .rxRssi :: r.fresh }

/-- The count of the bytes read fits `acc_len` (R33). -/
theorem accLen_toNat {n : Nat} (h : n ≤ 200) : (BitVec.ofNat 8 n).toNat = n := by
  rw [BitVec.toNat_ofNat]
  omega

theorem receiveByte_received {k : Nat} {b : Burst} {q : Point} {r : Sequencer} {p : Port} {s : State} {l : List Byte}
    (v : Byte) (h : l.length < 200) :
    receiveByte k v b ((r.received l).restAt q) p s =
      .next (s.put k ((r.received (l ++ [v])).restAt (.receive (.x2 b))) p) := by
  have hn : (BitVec.ofNat 8 l.length).toNat = l.length := accLen_toNat h.le
  rw [receiveByte_stores rfl rfl (by rw [hn]; exact h)]
  simp only [hn, frameBuffer_set]
  simp only [Sequencer.received, Sequencer.restAt, List.length_append, List.length_singleton, BitVec.ofNat_add]
  rfl

/-! ## The step that accepts RECEIVE -/

/-- The registers, but for the buffer and the count, in which RECEIVE starts (R141). -/
def Sequencer.cleared (r : Sequencer) : Sequencer :=
  { r with rxLen := none, rxRssi := none, rxState := .idle, fresh := [.rxBuf, .accLen, .rxState] }

theorem exec_receive_eq {s : State} {r : Sequencer} (hr : s.seqs[s.cur]? = some r) (hi : r.seq = .idle) :
    exec .receive s = .next (s.put s.cur ((r.cleared.received []).restAt (.receive .x1Avail)) s.port) := by
  simp only [exec, execReceive, accept_idle _ hr hi, Sequencer.received, frameBuffer_nil]
  rfl

/-- Settles O17: the buffer of no byte is 200 zeros. -/
theorem receiveStartsClear : Obligations.ReceiveStartsClear := by
  unfold Obligations.ReceiveStartsClear
  intro s r hr hi
  rw [exec_receive_eq hr hi, Sequencer.received, frameBuffer_nil]
  rfl

/-! ## RECEIVE run alone (R140) -/

theorem burstStep_first_waiting {p : Port} (g : Granularity) (a : Agent) (c : LockChoice) (h : p.rxQ ≠ []) :
    burstStep g a c .first p = .ok (.goto .acquire, p) := by
  simp [burstStep, Port.avail, h]

theorem burstStep_read_perBurst {p : Port} {v : Byte} {rest : List Byte} (a : Agent) (c : LockChoice)
    (h : p.rxQ = v :: rest) :
    burstStep .perBurst a c .read p =
      .ok (.byte v .more, { p with rxQ := rest, history := p.history ++ [.rd a v] }) := by
  rw [burstStep_read, readByte_cons a p v rest h, afterRead]

theorem burstStep_read_perByte {p : Port} {v : Byte} {rest : List Byte} (a : Agent) (c : LockChoice)
    (h : p.rxQ = v :: rest) :
    burstStep .perByte a c .read p =
      .ok (.goto (.releaseByte (some v)), { p with rxQ := rest, history := p.history ++ [.rd a v] }) := by
  rw [burstStep_read, readByte_cons a p v rest h, afterRead]

theorem burstStep_more_waiting {p : Port} (g : Granularity) (a : Agent) (c : LockChoice) (h : p.rxQ ≠ []) :
    burstStep g a c .more p = .ok (.goto .read, p) := by
  simp [burstStep, Port.avail, h]

section Runs

variable {g : Granularity} {k : Nat} {c : LockChoice} {r : Sequencer} {s : State} {p p' : Port} {b b' : Burst} {v last : Byte}
  {l kept rest body : List Byte}

/-- A run from the registers and the port just put in the state to others goes on from these. -/
theorem runMoves_put_add {m n : Nat} {r' : Sequencer}
    (h : runMoves (advances k m) (s.put k r p) = .next (s.put k r' p')) :
    runMoves (advances k (m + n)) (s.put k r p) = runMoves (advances k n) (s.put k r' p') := by
  rw [advances_add, runMoves_trans h rfl]

/-- A step within RECEIVE's burst, under granularity `g`. -/
theorem resume_receive_goto (hg : s.params.granularity = g)
    (h : burstStep g (.sequencer k) c b p = .ok (.goto b', p')) :
    resume k c (.receive (.x2 b)) (r.restAt (.receive (.x2 b))) (s.put k (r.restAt (.receive (.x2 b))) p) =
      .next (s.put k (r.restAt (.receive (.x2 b'))) p') := by
  subst hg
  exact BurstPhase.receive.resume_put h

/-- A byte handed on by the burst of the sequencer just put in the state. -/
theorem resume_receive_byte (hg : s.params.granularity = g)
    (h : burstStep g (.sequencer k) c b p = .ok (.byte v b', p')) :
    resume k c (.receive (.x2 b)) (r.restAt (.receive (.x2 b))) (s.put k (r.restAt (.receive (.x2 b))) p) =
      receiveByte k v b' (r.restAt (.receive (.x2 b))) p' (s.put k (r.restAt (.receive (.x2 b))) p) := by
  simp only [resume, receiveResume, put_params, put_port, hg, h]

/-- Byte `j` of `l` is stored behind the `j` bytes before it. -/
theorem resume_receive_stores {j : Nat} (hg : s.params.granularity = g) (hl : l.length ≤ 200) (hj : j < l.length)
    (h : burstStep g (.sequencer k) c b p = .ok (.byte l[j] b', p')) :
    resume k c (.receive (.x2 b)) ((r.received (l.take j)).restAt (.receive (.x2 b)))
        (s.put k ((r.received (l.take j)).restAt (.receive (.x2 b))) p) =
      .next (s.put k ((r.received (l.take (j + 1))).restAt (.receive (.x2 b'))) p') := by
  have hlt : (l.take j).length < 200 := by
    rw [List.length_take]
    omega
  rw [resume_receive_byte hg h, receiveByte_received _ hlt, put_put, List.take_concat_get' l j hj]

/-- The 201st byte, where the buffer is full. -/
theorem resume_receive_overflows (hg : s.params.granularity = g) (hkept : kept.length = 200)
    (h : burstStep g (.sequencer k) c b p = .ok (.byte v b', p')) :
    resume k c (.receive (.x2 b)) ((r.received kept).restAt (.receive (.x2 b)))
        (s.put k ((r.received kept).restAt (.receive (.x2 b))) p) =
      if p'.lockOwner = some (.sequencer k) then
        .next (s.put k ((r.received kept).overflowed.restAt (.receive .x2Overflow)) p')
      else .next (s.put k ((r.received kept).overflowed.finish false .frameTooLarge) p') := by
  have hfull : ((r.received kept).restAt (.receive (.x2 b))).accLen = some 200 := by
    rw [restAt_accLen, Sequencer.received, hkept]
    rfl
  rw [resume_receive_byte hg h, receiveByte_overflows hfull, put_put, put_put]
  rfl

/-- The end of a burst that has read the bytes of `l`. -/
theorem resume_receive_settles (hpos : l ≠ []) (hl : l.length ≤ 200)
    (h : burstStep s.params.granularity (.sequencer k) c b p = .ok (.done, p')) :
    resume k c (.receive (.x2 b)) ((r.received l).restAt (.receive (.x2 b)))
        (s.put k ((r.received l).restAt (.receive (.x2 b))) p) =
      .next (s.put k ((({ r with rxState := .settling } : Sequencer).received l).restAt (.receive .x3Delay)) p') := by
  have hne : BitVec.ofNat 8 l.length ≠ 0 := fun h0 => by
    have hzero := accLen_toNat hl
    rw [h0] at hzero
    exact hpos (List.length_eq_zero_iff.mp hzero.symm)
  simp only [resume, receiveResume, put_params, put_port, h]
  rw [receiveBurstDone_settles (r := (r.received l).restAt (.receive (.x2 b))) rfl hne, put_put]
  rfl

/-- The settle delay ends (R144). -/
theorem resume_receive_settled :
    resume k c (.receive .x3Delay) (r.restAt (.receive .x3Delay)) (s.put k (r.restAt (.receive .x3Delay)) p) =
      .next (s.put k (r.restAt (.receive .x3Avail)) p) := by
  simp only [resume, receiveResume, put_put, restAt_restAt, put_port]

/-- The `Release` after an overflow ends the operation (R203). -/
theorem resume_receive_gives_up (h : p.lockOwner = some (.sequencer k)) :
    resume k c (.receive .x2Overflow) (r.restAt (.receive .x2Overflow)) (s.put k (r.restAt (.receive .x2Overflow)) p) =
      .next (s.put k (r.finish false .frameTooLarge) { p with lockOwner := none }) := by
  simp only [resume, receiveResume, State.raise, put_port, if_pos h, put_put]
  rfl

/-- The availability test of X1, where bytes wait. -/
theorem resume_receive_starts (h : p.rxQ ≠ []) :
    resume k c (.receive .x1Avail) ((r.received []).restAt (.receive .x1Avail))
        (s.put k ((r.received []).restAt (.receive .x1Avail)) p) =
      .next (s.put k ((({ r with rxState := .draining } : Sequencer).received []).restAt (.receive (.x2 .first))) p) := by
  rw [resume, receiveResume_avail_waiting c (.inl rfl) h, put_put]
  rfl

/-- The end of the frame of `body` with the RSSI byte `last`, on a line that stays quiet. -/
theorem resume_receive_ends (hbody : body.length ≤ 199) (hq : p.rxQ = []) :
    resume k c (.receive .x3Avail) ((r.received (body ++ [last])).restAt (.receive .x3Avail))
        (s.put k ((r.received (body ++ [last])).restAt (.receive .x3Avail)) p) =
      .next (s.put k ((r.framed body last).finish true .none) p) := by
  have hcount : (BitVec.ofNat 8 (body ++ [last]).length).toNat = body.length + 1 := by
    rw [List.length_append, List.length_singleton, accLen_toNat (by omega)]
  have hlen : BitVec.ofNat 8 (body ++ [last]).length - 1 = BitVec.ofNat 8 body.length := by
    apply BitVec.eq_of_toNat_eq
    rw [accLen_pred_toNat (by omega), hcount, accLen_toNat (by omega), Nat.add_sub_cancel]
  have hlast : (frameBuffer (body ++ [last]))[body.length] = last := by
    rw [frameBuffer_getElem _ (by omega)]
    simp
  rw [resume, receiveResume_x3Avail_empty c hq, receiveDone_eq rfl rfl (by omega) (by omega), put_put]
  simp only [hcount, hlen, hlast, Nat.add_sub_cancel, put_port]
  rfl

/-- X1, the burst that reads the bytes of `body` and one more, and X3. -/
theorem receive_run (hk : k < s.seqs.length) (hlock : p.lockOwner = none) (hq : p.rxQ = body ++ [last])
    (hbody : body.length ≤ 199) :
    runMoves (advances k (1 + burstSteps s.params.granularity (body.length + 1) + 2))
        (s.put k ((r.received []).restAt (.receive .x1Avail)) p) =
      .next (s.put k ((r.framed body last).finish true .none)
        { p with rxQ := [], history := p.history ++ (body ++ [last]).map (PortEvent.rd (.sequencer k)) }) := by
  have hlen : p.rxQ.length = body.length + 1 := by rw [hq, List.length_append, List.length_singleton]
  have hle : p.rxQ.length ≤ 200 := by omega
  have hne : p.rxQ ≠ [] := List.ne_nil_of_length_eq_add_one hlen
  obtain ⟨b, p', hdone, hburst⟩ := runMoves_burst (s := s) (fun b => .receive (.x2 b))
    (fun j => ({ r with rxState := .draining } : Sequencer).received (p.rxQ.take j)) p hk hlock
    (fun _ _ _ _ _ => BurstPhase.receive.resume_put) (fun _ hj _ _ _ _ => resume_receive_stores rfl hle hj)
  rw [hlen, List.take_of_length_le hlen.le] at hburst
  rw [Nat.add_assoc, Nat.add_comm, runMoves_put hk rfl (resume_receive_starts hne)]
  refine (hburst 2).trans ?_
  rw [runMoves_put hk rfl (resume_receive_settles hne hle hdone), hq, runMoves_put hk rfl resume_receive_settled,
    runMoves_put hk rfl (resume_receive_ends hbody rfl)]
  rfl

/-- X1 and the burst under `per_burst`, up to the byte beyond the buffer and the release after it. -/
theorem receive_overflow_run_perBurst (hg : s.params.granularity = .perBurst) (hk : k < s.seqs.length)
    (hlock : p.lockOwner = none) (hq : p.rxQ = kept ++ last :: rest) (hkept : kept.length = 200) :
    runMoves (advances k (1 + 405)) (s.put k ((r.received []).restAt (.receive .x1Avail)) p) =
      .next (s.put k ((r.received kept).overflowed.finish false .frameTooLarge)
        { p with rxQ := rest, history := p.history ++ (kept ++ [last]).map (PortEvent.rd (.sequencer k)) }) := by
  have hne : p.rxQ ≠ [] := by simp [hq]
  have hreads := runMoves_reads_perBurst (s := s) (l := kept) (fun b => .receive (.x2 b))
    (fun j => ({ r with rxState := .draining } : Sequencer).received (kept.take j)) hk
    (fun _ _ _ _ _ => resume_receive_goto hg) (fun _ hj _ _ _ _ => resume_receive_stores hg hkept.le hj) 200 0
    { p with lockOwner := some (.sequencer k) } (by omega) hq
  simp only [List.take_zero, List.drop_zero, List.take_length] at hreads
  rw [show 1 + 405 = 2 * 200 + 3 + 1 + 1 + 1 by rfl, runMoves_put hk rfl (resume_receive_starts hne),
    runMoves_put hk rfl (resume_receive_goto hg (burstStep_first_waiting _ _ _ hne)),
    runMoves_put hk rfl (resume_receive_goto hg (burstStep_acquire_free _ _ _ hlock)), afterGrant, runMoves_put_add hreads,
    runMoves_put hk rfl (resume_receive_goto hg (burstStep_more_waiting _ _ _ (by simp))),
    runMoves_put hk rfl ((resume_receive_overflows hg hkept (burstStep_read_perBurst _ _ rfl)).trans (if_pos rfl)),
    runMoves_put hk rfl (resume_receive_gives_up rfl)]
  simp [advances, runMoves_nil, Sequencer.overflowed, Sequencer.received, hlock]

/-- X1 and the burst under `per_byte`, up to the byte beyond the buffer. -/
theorem receive_overflow_run_perByte (hg : s.params.granularity = .perByte) (hk : k < s.seqs.length)
    (hlock : p.lockOwner = none) (hq : p.rxQ = kept ++ last :: rest) (hkept : kept.length = 200) :
    runMoves (advances k (1 + 804)) (s.put k ((r.received []).restAt (.receive .x1Avail)) p) =
      .next (s.put k ((r.received kept).overflowed.finish false .frameTooLarge)
        { p with rxQ := rest, history := p.history ++ (kept ++ [last]).map (PortEvent.rd (.sequencer k)) }) := by
  have hne : p.rxQ ≠ [] := by simp [hq]
  have hreads := runMoves_reads_perByte (s := s) (l := kept) (fun b => .receive (.x2 b))
    (fun j => ({ r with rxState := .draining } : Sequencer).received (kept.take j)) hk
    (fun _ _ _ _ _ => resume_receive_goto hg) (fun _ hj _ _ _ _ => resume_receive_stores hg hkept.le hj) 200 0 p
    (by omega) hq hlock
  simp only [List.take_zero, List.drop_zero, List.take_length] at hreads
  rw [show 1 + 804 = 4 * 200 + 4 + 1 by rfl, runMoves_put hk rfl (resume_receive_starts hne), runMoves_put_add hreads,
    runMoves_put hk rfl (resume_receive_goto hg (burstStep_first_waiting _ _ _ (by simp))),
    runMoves_put hk rfl (resume_receive_goto hg (burstStep_acquire_free _ _ _ (by exact hlock))), afterGrant,
    runMoves_put hk rfl (resume_receive_goto hg (burstStep_read_perByte _ _ rfl)),
    runMoves_put hk rfl
      ((resume_receive_overflows hg hkept (burstStep_releaseByte _ _ (some last) rfl)).trans (if_neg (by simp)))]
  simp [advances, runMoves_nil, Sequencer.overflowed, Sequencer.received, hlock]

end Runs

/-- Settles O18: RECEIVE accepted and run to the end of its frame. -/
theorem receiveRun : Obligations.ReceiveRun := by
  unfold Obligations.ReceiveRun
  intro s r hr hi hlock body last hq hbody
  refine ⟨_, exec_receive_eq hr hi, frameBuffer (body ++ [last]), ?_, ?_⟩
  · rw [frameBuffer_toList (by simpa using Nat.lt_succ_of_le hbody), List.length_append, List.length_singleton,
      show 200 - (body.length + 1) = 199 - body.length by omega]
  · rw [receive_run (lt_length_of_getElem? hr) hlock hq hbody, hlock, Sequencer.framed, Sequencer.received,
      List.length_append, List.length_singleton]
    rfl

/-- Settles O19: RECEIVE accepted and run to the byte its buffer has no place for, under each granularity. -/
theorem receiveOverflowRun : Obligations.ReceiveOverflowRun := by
  unfold Obligations.ReceiveOverflowRun
  intro s r hr hi hlock kept rest last hq hkept
  rw [List.append_assoc] at hq
  refine ⟨_, exec_receive_eq hr hi, frameBuffer kept, ?_, ?_⟩
  · rw [frameBuffer_toList hkept.le, hkept, Nat.sub_self, List.replicate_zero, List.append_nil]
  · have hk := lt_length_of_getElem? hr
    cases hg : s.params.granularity with
    | perBurst =>
      rw [receive_overflow_run_perBurst hg hk hlock hq hkept, hlock]
      rfl
    | perByte =>
      rw [receive_overflow_run_perByte hg hk hlock hq hkept, hlock]
      rfl

/-! ## A RECEIVE that fails (R146) -/

/-- Only a RECEIVE that succeeds writes a length or an RSSI value. -/
theorem receiveResume_results {k : Nat} {c : LockChoice} {q : ReceivePoint} {r : Sequencer} {s t : State}
    (h : receiveResume k c q r s = .next t) :
    ∃ r' p', t = s.put k r' p' ∧ ((r'.rxLen = r.rxLen ∧ r'.rxRssi = r.rxRssi) ∨ r'.ok = some true) := by
  obtain ⟨r', p', rfl, hcase⟩ := receiveResume_next h
  obtain ⟨-, -, -, rfl⟩ | ⟨-, -, -, rfl⟩ | ⟨-, -, rfl⟩ | ⟨b, b', -, -, rfl⟩ | ⟨b, v, b', p1, -, -, hbyte⟩ |
    ⟨b, -, -, -, rfl⟩ | ⟨b, n, -, -, -, -, rfl⟩ | ⟨b, p1, -, -, -, rfl⟩ | ⟨-, -, rfl⟩ | ⟨-, -, rfl⟩ |
    ⟨-, -, -, n, buf, b, -, -, -, rfl⟩ := hcase
  · exact ⟨_, _, rfl, .inl ⟨rfl, rfl⟩⟩
  · exact ⟨_, _, rfl, .inl ⟨rfl, rfl⟩⟩
  · exact ⟨_, _, rfl, .inl ⟨rfl, rfl⟩⟩
  · exact ⟨_, _, rfl, .inl ⟨rfl, rfl⟩⟩
  · obtain ⟨n, r₂, p₂, -, ht, hcase⟩ := receiveByte_next hbyte
    refine ⟨r₂, p₂, ht, .inl ?_⟩
    obtain ⟨-, -, -, rfl⟩ | ⟨-, -, -, rfl⟩ | ⟨-, buf, -, -, rfl⟩ := hcase <;> exact ⟨rfl, rfl⟩
  · exact ⟨_, _, rfl, .inl ⟨rfl, rfl⟩⟩
  · exact ⟨_, _, rfl, .inl ⟨rfl, rfl⟩⟩
  · exact ⟨_, _, rfl, .inl ⟨rfl, rfl⟩⟩
  · exact ⟨_, _, rfl, .inl ⟨rfl, rfl⟩⟩
  · exact ⟨_, _, rfl, .inl ⟨rfl, rfl⟩⟩
  · exact ⟨_, _, rfl, .inr rfl⟩

theorem hostRead_unwritten {k : Nat} {o : OutReg} {r : Sequencer} {s : State} (hr : s.seqs[k]? = some r)
    (hi : r.seq = .idle) (ho : r.readOut o = none) : hostRead k o s = .fault .readUnwritten := by
  simp only [hostRead, hr, hi, ho, readWritten_none]

theorem readOut_rxLen_unwritten {r : Sequencer} (h : r.rxLen = none) : r.readOut .rxLen = none := by
  simp [Sequencer.readOut, h]

theorem readOut_rxRssi_unwritten {r : Sequencer} (h : r.rxRssi = none) : r.readOut .rxRssi = none := by
  simp [Sequencer.readOut, h]

/-- Settles O38: the invariant says a running RECEIVE has no length and no RSSI value yet, and failing writes none. -/
theorem failedReceiveHasNoLength : Obligations.FailedReceiveHasNoLength := by
  unfold Obligations.FailedReceiveHasNoLength
  intro s t k c r r' q hs hr hq h hr' hi hok
  obtain ⟨-, -, hseqs⟩ := hs
  obtain ⟨-, -, -, hpoint⟩ := (inv_iff r).mp (hseqs r (List.mem_of_getElem? hr))
  simp only [Sequencer.PointInv, hq] at hpoint
  obtain ⟨-, hlen, hrssi⟩ := hpoint
  obtain ⟨r₁, p₁, rfl, hresults⟩ := receiveResume_results ((advance_busy c hr hq).symm.trans h)
  obtain rfl := put_getElem? hr hr'
  obtain ⟨hlen', hrssi'⟩ := hresults.resolve_right (by simp [hok])
  rw [hlen] at hlen'
  rw [hrssi] at hrssi'
  exact ⟨hlen', hrssi', hostRead_unwritten hr' hi (readOut_rxLen_unwritten hlen'),
    hostRead_unwritten hr' hi (readOut_rxRssi_unwritten hrssi')⟩

/-! ## What a running operation keeps under the other agents' moves (R209, R214) -/

/-- A sequencer's step leaves every other sequencer as it is. -/
theorem advance_other {j k : Nat} {c : LockChoice} {s t : State} (h : advance j c s = .next t) (hj : k ≠ j) :
    t.seqs[k]? = s.seqs[k]? := by
  obtain rfl | ⟨r, q, qs, -, -, -, h⟩ | ⟨r, q, -, -, h⟩ := advance_next h
  · rfl
  · obtain ⟨r₀, r', -, -, rfl, -⟩ := exec_next h
    simp [hj.symm]
  · cases resume_opStep h <;> simp [hj.symm]

/-- A request presented leaves every sequencer as it is, but for the requests it holds. -/
theorem present_getElem? {j k : Nat} {q : Request} {r : Sequencer} {s : State} (hr : s.seqs[k]? = some r) :
    ∃ new, (present j q s).seqs[k]? = some { r with held := r.held ++ new } := by
  by_cases hj : j = k
  · subst hj
    refine ⟨[q], ?_⟩
    rw [present, hr]
    exact List.getElem?_set_self (lt_length_of_getElem? hr)
  · refine ⟨[], ?_⟩
    rw [List.append_nil, ← hr, present]
    split
    · rfl
    · exact List.getElem?_set_ne hj

theorem resetMove_idle {k : Nat} {rxQ0 : List Byte} {r : Sequencer} {s t : State} (h : resetMove rxQ0 s = .next t)
    (hr : s.seqs[k]? = some r) : r.seq = .idle := by
  unfold resetMove at h
  split at h
  · next hidle => exact of_decide_eq_true (List.all_eq_true.mp hidle r (List.mem_of_getElem? hr))
  · cases h

/-- The machine does not reset under a running operation (R231). -/
theorem not_isReset_of_busy {k : Nat} {m : Move} {r : Sequencer} {q : Point} {s t : State}
    (h : applyMove m s = .next t) (hr : s.seqs[k]? = some r) (hq : r.seq = .busy q) : m.isReset = false := by
  cases m with
  | reset rxQ0 => rw [resetMove_idle h hr] at hq; cases hq
  | advance | present | hostRead | arrive | transmit | env => rfl

/-- A sequencer's own moves are its steps. -/
theorem eq_advance_of_isOf {k : Nat} {m : Move} (h : m.isOf (.sequencer k) = true) : ∃ c, m = .advance k c := by
  cases m with
  | advance j c =>
    cases of_decide_eq_true h
    exact ⟨c, rfl⟩
  | env | present | hostRead | arrive | transmit | reset => cases h

/-- No move but its own changes a running sequencer, except that the host may add to the requests it holds. -/
theorem applyMove_keeps_busy {k : Nat} {m : Move} {r : Sequencer} {q : Point} {s t : State}
    (h : applyMove m s = .next t) (hr : s.seqs[k]? = some r) (hq : r.seq = .busy q)
    (hm : m.isOf (.sequencer k) = false) : ∃ new, t.seqs[k]? = some { r with held := r.held ++ new } := by
  have hkept : t.seqs[k]? = s.seqs[k]? → ∃ new, t.seqs[k]? = some { r with held := r.held ++ new } := fun hsame =>
    ⟨[], by rw [hsame, hr, List.append_nil]⟩
  cases m with
  | advance j c => exact hkept (advance_other h (by simpa [Move.isOf] using hm))
  | present j q' => cases h; exact present_getElem? hr
  | hostRead j o => exact hkept (by rw [hostRead_next h])
  | arrive b => cases h; exact hkept rfl
  | transmit => cases h; exact hkept rfl
  | env a act =>
    obtain ⟨p, rfl, -⟩ := envAct_next h
    exact hkept rfl
  | reset rxQ0 => cases not_isReset_of_busy h hr hq

/-! ## RECEIVE on a silent line (R142, R149) -/

/-- A step of a running operation brings no byte to the line. -/
theorem OpStep.rxQ_empty {k : Nat} {q : Point} {r : Sequencer} {s t : State} (h : OpStep k q r s t)
    (hempty : s.port.rxQ = []) : t.port.rxQ = [] := by
  have hmove {out : Option Byte} {held held' : Bool} {p : Port}
      (hp : PortMove (.sequencer k) out s.port held held' p) : p.rxQ = [] := by
    obtain hsame | ⟨b, hread⟩ := hp.rxQ_cases
    · rw [hsame, hempty]
    · simp [hempty] at hread
  cases h with
  | rest _ _ hp => exact hmove hp
  | succeed _ hp => exact hmove hp
  | fail _ _ hp =>
    have hkept := hmove hp
    exact hkept

theorem advance_rxQ_empty {k : Nat} {c : LockChoice} {s t : State} (h : advance k c s = .next t)
    (hempty : s.port.rxQ = []) : t.port.rxQ = [] := by
  obtain rfl | ⟨r, q, qs, -, -, -, h⟩ | ⟨r, q, -, -, h⟩ := advance_next h
  · exact hempty
  · obtain ⟨r₀, r', -, -, rfl, -⟩ := exec_next h
    exact hempty
  · exact (resume_opStep h).rxQ_empty hempty

theorem transmit_rxQ (p : Port) : p.transmit.rxQ = p.rxQ := by
  unfold Port.transmit
  split <;> rfl

theorem envAct_rxQ_empty {a : Nat} {act : EnvAction} {s t : State} (h : envAct a act s = .next t)
    (hempty : s.port.rxQ = []) : t.port.rxQ = [] := by
  obtain ⟨p, rfl, ⟨-, -, rfl⟩ | ⟨-, rfl⟩ | ⟨-, -, rfl⟩ | ⟨b, -, rfl⟩ | ⟨-, rfl⟩⟩ := envAct_port h
  · exact hempty
  · exact hempty
  · exact hempty
  · exact hempty
  · simpa [readByte_empty _ _ hempty] using hempty

/-- Only an arrival or a reset brings a byte to an empty line (R65, R70). -/
theorem applyMove_rxQ_empty {m : Move} {s t : State} (h : applyMove m s = .next t) (hempty : s.port.rxQ = [])
    (harrival : m.isArrival = false) (hreset : m.isReset = false) : t.port.rxQ = [] := by
  cases m with
  | advance k c => exact advance_rxQ_empty h hempty
  | present k q => cases h; rwa [present_port]
  | hostRead k o => rwa [hostRead_next h]
  | arrive b => cases harrival
  | transmit => cases h; exact (transmit_rxQ s.port).trans hempty
  | env a act => exact envAct_rxQ_empty h hempty
  | reset rxQ0 => cases hreset

/-- RECEIVE waits at X1: before its availability test, or at its delay (R142). -/
def Sequencer.WaitsAtX1 (r : Sequencer) : Prop := r.seq = .busy (.receive .x1Avail) ∨ r.seq = .busy (.receive .x1Delay)

/-- On an empty line the availability test goes to the delay, and the delay to the test. -/
theorem advance_keeps_waitsAtX1 {k : Nat} {c : LockChoice} {r : Sequencer} {s t : State} (h : advance k c s = .next t)
    (hr : s.seqs[k]? = some r) (hx1 : r.WaitsAtX1) (hempty : s.port.rxQ = []) :
    ∃ r', t.seqs[k]? = some r' ∧ r'.WaitsAtX1 := by
  have hput (q : Point) (p : Port) : (s.put k (r.restAt q) p).seqs[k]? = some (r.restAt q) :=
    List.getElem?_set_self (lt_length_of_getElem? hr)
  obtain hq | hq := hx1 <;> rw [advance_busy c hr hq] at h
  · rw [resume, receiveResume_x1Avail_empty c hempty] at h
    cases h
    exact ⟨_, hput _ _, .inr rfl⟩
  · cases h
    exact ⟨_, hput _ _, .inl rfl⟩

theorem Sequencer.WaitsAtX1.busy {r : Sequencer} (h : r.WaitsAtX1) : ∃ q, r.seq = .busy q :=
  h.elim (fun h => ⟨_, h⟩) fun h => ⟨_, h⟩

/-- Settles O35: the move is the sequencer's own step, or leaves a running sequencer where it stands. -/
theorem receiveWaitsOnSilentLine : Obligations.ReceiveWaitsOnSilentLine := by
  unfold Obligations.ReceiveWaitsOnSilentLine
  intro s t m k r hr hx1 hempty harrival h
  change r.WaitsAtX1 at hx1
  obtain ⟨q, hq⟩ := hx1.busy
  refine ⟨applyMove_rxQ_empty h hempty harrival (not_isReset_of_busy h hr hq), ?_⟩
  by_cases hown : m.isOf (.sequencer k) = true
  · obtain ⟨c, rfl⟩ := eq_advance_of_isOf hown
    exact advance_keeps_waitsAtX1 h hr hx1 hempty
  · obtain ⟨new, hkept⟩ := applyMove_keeps_busy h hr hq (Bool.eq_false_iff.mpr hown)
    exact ⟨_, hkept, hx1⟩

end Sys2Proof.Machine
end

section
/-! SUPPORT. The frame sender (42_frame_send.md): the step that accepts SEND, what a step of its discard loop answers at
each of its points, a pass of the loop, and SEND from its acceptance to its end. -/

namespace Sys2Proof.Machine

/-! ## The step that accepts SEND -/

/-- SEND of a payload over the maximum (R172): the operation has ended before it reads the target fields. -/
theorem exec_send_refuses {s : State} {r : Sequencer} {cfg : ConfigurationRecord} {payload : List Byte} {sp : BitVec 2}
    (hr : s.seqs[s.cur]? = some r) (hi : r.seq = .idle) (hsp : cfg.subpacketSize = some sp)
    (hlen : (maxPayOf sp.toNat).toNat < payload.length) :
    exec (.send cfg payload) s =
      .next (s.put s.cur
        (({ r with cfg := cfg, maxPay := some (maxPayOf sp.toNat), fresh := [.maxPay] } : Sequencer).finish false
          .payloadTooLarge) s.port) := by
  simp only [exec, execSend, accept_idle _ hr hi, hsp, readWritten_some, if_pos hlen]

/-- Settles O21: the payload is within the maximum, or over it. -/
theorem sendSizeCheck : Obligations.SendSizeCheck := by
  unfold Obligations.SendSizeCheck
  intro s r cfg payload sp hr hi hsp
  refine ⟨fun hlen addr ch haddr hch => ⟨outboundFrame_length addr ch payload, rfl, ?_⟩, fun hlen => ?_⟩
  · exact exec_send_accepts hr hi hsp haddr hch hlen
  · exact exec_send_refuses hr hi hsp hlen

/-! ## The steps of the discard loop (R175) -/

section Steps

variable {k : Nat} {r : Sequencer} {s : State}

/-- The test at the loop's head goes to the inner loop where bytes wait. -/
theorem sendResume_s5Avail_waiting (c : LockChoice) (h : s.port.rxQ ≠ []) :
    sendResume k c .s5Avail r s = .next (s.put k (r.restAt (.send .s5More)) s.port) := by
  simp [sendResume, Port.avail, h]

/-- The test at the loop's head goes to the `Release` where none waits. -/
theorem sendResume_s5Avail_empty (c : LockChoice) (h : s.port.rxQ = []) :
    sendResume k c .s5Avail r s = .next (s.put k (r.restAt (.send .s5Release)) s.port) := by
  simp [sendResume, Port.avail, h]

/-- The test of the inner loop goes to a `ReadByte` where bytes wait. -/
theorem sendResume_s5More_waiting (c : LockChoice) (h : s.port.rxQ ≠ []) :
    sendResume k c .s5More r s = .next (s.put k (r.restAt (.send .s5Read)) s.port) := by
  simp [sendResume, Port.avail, h]

/-- The test of the inner loop goes to the gap where none waits. -/
theorem sendResume_s5More_empty (c : LockChoice) (h : s.port.rxQ = []) :
    sendResume k c .s5More r s = .next (s.put k (r.restAt (.send .s5Gap)) s.port) := by
  simp [sendResume, Port.avail, h]

/-- The byte read is discarded. -/
theorem sendResume_s5Read_cons (c : LockChoice) {v : Byte} {rest : List Byte} (h : s.port.rxQ = v :: rest) :
    sendResume k c .s5Read r s =
      .next (s.put k (r.restAt (.send .s5More))
        { s.port with rxQ := rest, history := s.port.history ++ [.rd (.sequencer k) v] }) := by
  rw [sendResume, readByte_cons _ _ _ _ h]

/-- A `ReadByte` that answers none discards nothing (R55). -/
theorem sendResume_s5Read_empty (c : LockChoice) (h : s.port.rxQ = []) :
    sendResume k c .s5Read r s = .next (s.put k (r.restAt (.send .s5More)) s.port) := by
  rw [sendResume, readByte_empty _ _ h]

/-- The `Release` ends SEND with success (R176). -/
theorem sendResume_s5Release (c : LockChoice) (h : s.port.lockOwner = some (.sequencer k)) :
    sendResume k c .s5Release r s = .next (s.put k (r.finish true .none) { s.port with lockOwner := none }) := by
  simp only [sendResume, release_owner h]

end Steps

/-! ## The discard loop run alone -/

/-- A sequencer rests where it stands. -/
theorem restAt_self {q : Point} {r : Sequencer} (hq : r.seq = .busy q) : r.restAt q = r := by
  rw [Sequencer.restAt, ← hq]

section Runs

variable {k : Nat} {r : Sequencer} {s : State} {p : Port}

/-- A run of the SEND of a sequencer just put in the state goes on from the next point. -/
theorem runMoves_put_send {n : Nat} {q q' : SendPoint} {p' : Port} (hk : k < s.seqs.length)
    (h : sendResume k .grant q (r.restAt (.send q)) (s.put k (r.restAt (.send q)) p) =
      .next ((s.put k (r.restAt (.send q)) p).put k ((r.restAt (.send q)).restAt (.send q')) p')) :
    runMoves (advances k (n + 1)) (s.put k (r.restAt (.send q)) p) =
      runMoves (advances k n) (s.put k (r.restAt (.send q')) p') :=
  runMoves_put hk rfl (h.trans (by rw [put_put, restAt_restAt]))

/-- The inner loop reads and discards every byte of `l`, which are all that wait. -/
theorem send_reads_run {l : List Byte} (hk : k < s.seqs.length) (hl : p.rxQ = l) :
    runMoves (advances k (2 * l.length)) (s.put k (r.restAt (.send .s5More)) p) =
      .next (s.put k (r.restAt (.send .s5More))
        { p with rxQ := [], history := p.history ++ l.map (PortEvent.rd (.sequencer k)) }) := by
  induction l generalizing p with
  | nil =>
    rw [List.length_nil, Nat.mul_zero, List.map_nil, List.append_nil, ← hl]
    rfl
  | cons v rest ih =>
    have hne : p.rxQ ≠ [] := by simp [hl]
    rw [List.length_cons, Nat.mul_succ, runMoves_put_send hk (sendResume_s5More_waiting _ hne), put_port,
      runMoves_put_send hk (sendResume_s5Read_cons _ hl), put_port, ih rfl]
    simp

/-- The inner loop from the loop's head, where bytes wait, to the gap. -/
theorem send_discard_run (hk : k < s.seqs.length) (hne : p.rxQ ≠ []) :
    runMoves (advances k (2 * p.rxQ.length + 2)) (s.put k (r.restAt (.send .s5Avail)) p) =
      .next (s.put k (r.restAt (.send .s5Gap))
        { p with rxQ := [], history := p.history ++ p.rxQ.map (PortEvent.rd (.sequencer k)) }) := by
  rw [← Nat.add_assoc _ 1 1, runMoves_put_send hk (sendResume_s5Avail_waiting _ hne), put_port,
    runMoves_put_add (send_reads_run hk rfl), runMoves_put_send hk (sendResume_s5More_empty _ rfl)]
  rfl

/-- A pass of the loop, with bytes arriving at the gap: SEND is at the loop's head again. -/
theorem send_pass_run {more : List Byte} (hk : k < s.seqs.length) (hne : p.rxQ ≠ [])
    (hroom : ∀ n, s.params.rxFifoCap = some n → more.length ≤ n) :
    runMoves (advances k (2 * p.rxQ.length + 2) ++ arrivals more ++ advances k 1)
        (s.put k (r.restAt (.send .s5Avail)) p) =
      .next (s.put k (r.restAt (.send .s5Avail))
        { p with rxQ := more, history := p.history ++ p.rxQ.map (PortEvent.rd (.sequencer k)) ++
                                          more.map PortEvent.arr }) := by
  rw [List.append_assoc, runMoves_trans (send_discard_run hk hne) rfl,
    runMoves_trans (runMoves_arrivals (by simpa using hroom)) rfl]
  exact runMoves_put_send (n := 0) hk rfl

/-- The loop's end on a quiet line, with the lock SEND's own (R176). -/
theorem send_end_run (hk : k < s.seqs.length) (hlock : p.lockOwner = some (.sequencer k)) (hq : p.rxQ = []) :
    runMoves (advances k 2) (s.put k (r.restAt (.send .s5Avail)) p) =
      .next (s.put k (r.finish true .none) { p with lockOwner := none }) := by
  have hrelease : resume k .grant (.send .s5Release) (r.restAt (.send .s5Release))
      (s.put k (r.restAt (.send .s5Release)) p) =
        .next (s.put k (r.finish true .none) { p with lockOwner := none }) := by
    rw [resume, sendResume_s5Release _ hlock, put_put]
    rfl
  rw [runMoves_put_send (n := 1) hk (sendResume_s5Avail_empty _ hq)]
  exact runMoves_put (n := 0) hk rfl hrelease

/-- S5 on a line that brings no more bytes: one pass where bytes wait, and the end. -/
theorem send_s5_run (hk : k < s.seqs.length) (hlock : p.lockOwner = some (.sequencer k)) :
    runMoves (advances k (if p.rxQ.length = 0 then 2 else 2 * p.rxQ.length + 5))
        (s.put k (r.restAt (.send .s5Avail)) p) =
      .next (s.put k (r.finish true .none)
        { p with lockOwner := none, rxQ := [],
                 history := p.history ++ p.rxQ.map (PortEvent.rd (.sequencer k)) }) := by
  by_cases hq : p.rxQ = []
  · simp [hq, send_end_run hk hlock hq]
  · have hlen : p.rxQ.length ≠ 0 := fun h => hq (List.length_eq_zero_iff.mp h)
    rw [if_neg hlen, show 2 * p.rxQ.length + 5 = 2 * p.rxQ.length + 2 + (2 + 1) by rfl,
      runMoves_put_add (send_discard_run hk hq), runMoves_put_send hk rfl]
    exact send_end_run hk hlock rfl

/-- S4 and S5: the bytes that arrive during the wait join those on the line, and all are discarded (decision D11). -/
theorem send_s4_run {late : List Byte} {n : Nat} (hk : k < s.seqs.length) (hn : p.rxQ.length + late.length = n)
    (hlock : p.lockOwner = some (.sequencer k)) (hroom : ∀ cap, s.params.rxFifoCap = some cap → n ≤ cap) :
    runMoves (arrivals late ++ advances k (1 + if n = 0 then 2 else 2 * n + 5))
        (s.put k (r.restAt (.send .s4Delay)) p) =
      .next (s.put k (r.finish true .none)
        { p with lockOwner := none, rxQ := [],
                 history := p.history ++ late.map PortEvent.arr ++
                              (p.rxQ ++ late).map (PortEvent.rd (.sequencer k)) }) := by
  subst hn
  rw [runMoves_trans (runMoves_arrivals (s := s.put k (r.restAt (.send .s4Delay)) p) hroom) rfl, ← List.length_append,
    Nat.add_comm]
  refine (runMoves_put_send hk rfl).trans ?_
  exact send_s5_run (p := { p with rxQ := p.rxQ ++ late, history := p.history ++ late.map PortEvent.arr }) hk hlock

end Runs

/-- Settles O36: a pass from the loop's head, and the three steps that read none, leave the loop and end SEND. -/
theorem sendDiscardPass : Obligations.SendDiscardPass := by
  unfold Obligations.SendDiscardPass
  intro s k r hr
  refine ⟨fun more hq hne hroom => ?_, fun c => ⟨fun hq hempty => ?_, fun hq hempty => ?_, fun hq hlock => ?_⟩⟩
  · have hpass := send_pass_run (r := r) (lt_length_of_getElem? hr) hne hroom
    rwa [put_restAt_self hr hq, restAt_self hq] at hpass
  · exact (advance_busy c hr hq).trans (sendResume_s5Read_empty c hempty)
  · exact (advance_busy c hr hq).trans (sendResume_s5Avail_empty c hempty)
  · exact (advance_busy c hr hq).trans (sendResume_s5Release c hlock)

/-- Settles O20: the transmit phase of the accepted frame, and then S4 and S5 with the bytes that arrive during S4. -/
theorem sendRun : Obligations.SendRun := by
  unfold Obligations.SendRun
  intro s r cfg payload late sp addr ch hr hi hsp haddr hch hlen hlock htx hroom
  have hk : s.cur < s.seqs.length := lt_length_of_getElem? hr
  refine ⟨_, exec_send_accepts hr hi hsp haddr hch hlen, ?_⟩
  have hphase := TxPhase.send (r := { r with cfg := cfg, maxPay := some (maxPayOf sp.toNat),
                                             txFrame := some (outboundFrame addr ch payload),
                                             fresh := [.txFrame, .maxPay] })
  have hsend := hphase.send_run hk hlock htx (by simp)
  rw [outboundFrame_length, show 3 + payload.length + 1 = 4 + payload.length by omega, ← List.append_assoc] at hsend
  rw [List.append_assoc, runMoves_trans hsend rfl]
  refine Eq.trans (send_s4_run hk (by rfl) (by rfl) hroom) ?_
  simp [htx, outboundFrame, Sequencer.finish]

end Sys2Proof.Machine
end

section
/-! SUPPORT. Exceptions and concurrency (60_exceptions.md): the reserved op codes, a request on a busy sequencer, the lock's
timeout, the requests a sequencer holds, and what ends or changes a running operation. -/

namespace Sys2Proof.Machine

/-! ## What a sequencer keeps (R203, R209, R210, R214) -/

/-- Settles O42: the other agents' moves add to the requests held and do nothing else to a running sequencer. -/
theorem nothingElseMovesASequencer : Obligations.NothingElseMovesASequencer := by
  unfold Obligations.NothingElseMovesASequencer
  intro s t m k r q hr hq hm h
  obtain ⟨new, hnew⟩ := applyMove_keeps_busy h hr hq hm
  exact ⟨r.held ++ new, hnew, new, rfl⟩

/-- Where the invariant holds, an IDLE sequencer does not own the lock (R203). -/
theorem lockOwner_ne_of_idle {k : Nat} {r : Sequencer} {s : State} (hs : s.Inv) (hr : s.seqs[k]? = some r)
    (hi : r.seq = .idle) : s.port.lockOwner ≠ some (.sequencer k) := by
  obtain ⟨-, hlock, -⟩ := hs
  rw [Ne, lockInv_self hlock hr, holdsLock_idle hi]
  exact Bool.false_ne_true

/-- Settles O50: the step keeps the invariant, by which no IDLE sequencer owns the lock. -/
theorem noOperationEndsHoldingLock : Obligations.NoOperationEndsHoldingLock := by
  unfold Obligations.NoOperationEndsHoldingLock
  intro s t k c r' hs h hr' hi
  exact lockOwner_ne_of_idle (advance_keeps_inv h hs) hr' hi

/-! ## Requests that are not run (R206, R207) -/

/-- A reserved operation is accepted and has ended with IllegalOp (R206). -/
theorem exec_illegal_eq {s : State} {r : Sequencer} {i : Instr} (hr : s.seqs[s.cur]? = some r) (hi : r.seq = .idle)
    (h : i = .illegal101 ∨ ∃ x, i = .illegal11x x) :
    exec i s =
      .next (s.put s.cur (({ r with fresh := [] } : Sequencer).finish false .illegalOp) s.port) := by
  obtain rfl | ⟨x, rfl⟩ := h
  · simp only [exec, execIllegal101, accept_idle _ hr hi]
  · simp only [exec, execIllegal11x, accept_idle _ hr hi]

/-- Settles O22: the decoder's three reserved op codes, and the one answer of the operations they select. -/
theorem illegalOpResult : Obligations.IllegalOpResult := by
  unfold Obligations.IllegalOpResult
  refine ⟨fun q hq => ?_, fun s r i hr hi h => exec_illegal_eq hr hi h⟩
  obtain ⟨-, -, -, -, -, h101, h110, h111, -⟩ := opCodeSelectsOperation q
  obtain hq | hq | hq := hq
  · exact .inl (h101 hq)
  · exact .inr ⟨0, h110 hq⟩
  · exact .inr ⟨1, h111 hq⟩

/-- A request is not accepted on a busy sequencer (R207). -/
theorem accept_busy {s : State} {r : Sequencer} {q : Point} (run : Nat → Sequencer → Answer)
    (hr : s.seqs[s.cur]? = some r) (hq : r.seq = .busy q) : s.accept run = .fault .busy := by
  simp [State.accept, hr, hq]

/-- Settles O24: every instruction is accepted first, and a busy sequencer accepts none. -/
theorem execOnBusySequencerFaults : Obligations.ExecOnBusySequencerFaults := by
  unfold Obligations.ExecOnBusySequencerFaults
  intro s r q i hr hq
  cases i with
  | validate v => simp only [exec, execValidate, accept_busy _ hr hq]
  | encode cfg => simp only [exec, execEncode, accept_busy _ hr hq]
  | apply cfg => simp only [exec, execApply, accept_busy _ hr hq]
  | receive => simp only [exec, execReceive, accept_busy _ hr hq]
  | send cfg payload => simp only [exec, execSend, accept_busy _ hr hq]
  | illegal101 => simp only [exec, execIllegal101, accept_busy _ hr hq]
  | illegal11x x => simp only [exec, execIllegal11x, accept_busy _ hr hq]

/-! ## A lock wait that times out (R60, R200) -/

section Timeout

variable {k : Nat} {r : Sequencer} {s : State}

theorem TxPhase.resume_timeout {C : Tx → Point} {f : Option (List Byte)} {q : Point} (hC : TxPhase r C f q) :
    resume k .timeout (C .wait) r s = s.raise k .channelBusy r s.port := by
  cases hC <;> rfl

theorem BurstPhase.resume_timeout {B : Burst → Point} (hB : BurstPhase B) :
    resume k .timeout (B .wait) r s = s.raise k .channelBusy r s.port := by
  cases hB <;> rfl

/-- `raise` by a sequencer that does not hold the lock leaves the port as it is. -/
theorem raise_unlocked {e : ErrCode} {p : Port} (h : p.lockOwner ≠ some (.sequencer k)) :
    s.raise k e r p = .next (s.put k (r.finish false e) p) := by
  rw [State.raise, if_neg h]

end Timeout

/-- Settles O30: each of the four points is the wait of a transmit phase or of a burst, whose timeout raises ChannelBusy. -/
theorem lockTimeoutIsChannelBusy : Obligations.LockTimeoutIsChannelBusy := by
  unfold Obligations.LockTimeoutIsChannelBusy
  intro s k r q hr hq hlock hwhere
  have hraise : resume k .timeout q r s = s.raise k .channelBusy r s.port := by
    obtain rfl | rfl | rfl | rfl := hwhere
    · exact TxPhase.apply.resume_timeout
    · exact BurstPhase.apply.resume_timeout
    · exact BurstPhase.receive.resume_timeout
    · exact TxPhase.send.resume_timeout
  rw [advance_busy .timeout hr hq, hraise, raise_unlocked hlock]
  rfl

/-! ## The requests a sequencer holds (R214, R217) -/

/-- An IDLE sequencer's step is the acceptance of the oldest request it holds. -/
theorem advance_held {k : Nat} {s : State} {r : Sequencer} {q : Request} {qs : List Request} (c : LockChoice)
    (hr : s.seqs[k]? = some r) (hi : r.seq = .idle) (hq : r.held = q :: qs) :
    advance k c s = exec (decodeRequest q) { s with seqs := s.seqs.set k { r with held := qs }, cur := k } := by
  simp only [advance, hr, hi, hq]

/-- A byte image decodes to the operation of the request it parses to (R81). -/
theorem decode_of_parseRequest {bs : List Byte} {q : Request} (h : parseRequest bs = .ok q) :
    decode bs = .ok (decodeRequest q) := by
  simp only [decode, h]

/-- Settles O51: the script's move is the sequencer's step, and a byte image selects the operation its request selects. -/
theorem stepRunsHeldRequest : Obligations.StepRunsHeldRequest := by
  unfold Obligations.StepRunsHeldRequest
  intro s k c rest r q qs hs hr hi hq
  have hstep : step s =
      exec (decodeRequest q) { s with seqs := s.seqs.set k { r with held := qs }, cur := k, script := rest } :=
    (step_script hs).trans (advance_held c hr hi hq)
  refine ⟨hstep, fun bs i hparse hdecode => ?_⟩
  cases (decode_of_parseRequest hparse).symm.trans hdecode
  exact hstep

/-- Settles O54: a request presented to a sequencer the machine has stands last among those it holds. -/
theorem busySequencerHoldsRequest : Obligations.BusySequencerHoldsRequest := by
  unfold Obligations.BusySequencerHoldsRequest
  intro s k q r hr
  simp only [applyMove, present, hr]

end Sys2Proof.Machine
end

section
/-! SUPPORT. Power-on and reset (70_reset_and_hazards.md R230, R231). -/

namespace Sys2Proof.Machine

/-! ## Power-on (R230) -/

/-- Each sequencer of a machine just launched holds its power-on values. -/
theorem launch_getElem? {n k : Nat} (hk : k < n) (p : Params) : (State.launch n p).seqs[k]? = some {} :=
  List.getElem?_replicate_of_lt hk

/-- The one result register with a value at power-on is `rx_state` (R38). -/
theorem mem_fresh_default (o : OutReg) : o ∈ ({} : Sequencer).fresh ↔ o = .rxState := List.mem_singleton

/-- Settles O43: every sequencer is the power-on one, whose one readable result register is `rx_state`. -/
theorem launchValues : Obligations.LaunchValues := by
  unfold Obligations.LaunchValues
  intro n p
  refine ⟨List.length_replicate, fun r hr => ?_, fun k o hk => ?_, rfl, rfl, rfl, rfl⟩
  · obtain rfl := List.eq_of_mem_replicate hr
    exact ⟨rfl, rfl, rfl, rfl, rfl, rfl, rfl, rfl, rfl, rfl, rfl, rfl, rfl, rfl, rfl⟩
  · have hn : 0 < n := Nat.zero_lt_of_lt hk
    obtain ⟨hwritten, hunwritten, -⟩ := hostReadRule _ k {} o (launch_inv hn p) (launch_getElem? hk p) rfl
    rw [mem_fresh_default] at hwritten hunwritten
    exact ⟨hwritten, hunwritten⟩

/-- Settles O44: no sequencer runs or holds the lock, and the port's history is empty. -/
theorem launchMeetsInvariants : Obligations.LaunchMeetsInvariants := by
  unfold Obligations.LaunchMeetsInvariants
  exact fun n p hn => ⟨launch_inv hn p, launch_portHistory n p⟩

/-! ## Reset (R230, R231) -/

theorem allIdle_iff (s : State) : s.allIdle = true ↔ ∀ r ∈ s.seqs, r.seq = .idle := by
  simp only [State.allIdle, List.all_eq_true, decide_eq_true_eq]

/-- Settles O55: a reset tests that every sequencer is IDLE, and one that is not fails the test. -/
theorem resetRule : Obligations.ResetRule := by
  unfold Obligations.ResetRule
  intro s rxQ0
  refine ⟨fun hidle => ?_, fun r hr hbusy => ?_⟩
  · exact if_pos ((allIdle_iff s).mpr hidle)
  · exact if_neg fun hidle => hbusy ((allIdle_iff s).mp hidle r hr)

end Sys2Proof.Machine
end

section
/-! SUPPORT. The byte image of a request (30_encoding.md R80 to R83, log 5): what the decoder reads from the encoder's
image, which images it refuses, and how a table word runs (log 2). -/

namespace Sys2Proof.Machine

/-! ## Bytes and their value -/

/-- The low bytes of a number hold what is left of it below their end. -/
theorem leValue_leBytes (n w : Nat) : leValue (leBytes n w) = w % 256 ^ n := by
  induction n generalizing w with
  | zero => exact (Nat.mod_one w).symm
  | succ n ih =>
    have hb : (BitVec.ofNat 8 w).toNat = w % 256 := BitVec.toNat_ofNat w 8
    rw [leBytes, leValue, ih, hb, pow_succ', Nat.mod_mul]

theorem leValue_append (xs ys : List Byte) : leValue (xs ++ ys) = leValue xs + 256 ^ xs.length * leValue ys := by
  induction xs with
  | nil => simp [leValue]
  | cons x xs ih => simp only [List.cons_append, leValue, ih, List.length_cons]; ring

theorem leValue_lt (bs : List Byte) : leValue bs < 256 ^ bs.length := by
  induction bs with
  | nil => exact Nat.one_pos
  | cons b bs ih =>
    have hb : b.toNat < 256 := b.isLt
    rw [leValue, List.length_cons, pow_succ']
    omega

/-- The last byte of a list is its value's quotient by the bytes below. -/
theorem leValue_concat_div (bs : List Byte) (b : Byte) : leValue (bs ++ [b]) / 256 ^ bs.length = b.toNat := by
  have hb : leValue [b] = b.toNat := rfl
  rw [leValue_append, hb, Nat.add_mul_div_left _ _ (Nat.pos_of_neZero _), Nat.div_eq_of_lt (leValue_lt bs), zero_add]

/-! ## The encoder's image -/

/-- The fixed fields of a request as the number its image holds. -/
def requestWord (q : Request) : Nat := q.op.toNat + 2 ^ 3 * q.v.toNat + 2 ^ 11 * (packConfig q.cfgIn).toNat

theorem requestBytes_eq (q : Request) : requestBytes q = leBytes 12 (requestWord q) ++ q.payload := rfl

theorem requestWord_lt (q : Request) : requestWord q < 2 ^ 94 := by
  have hop := q.op.isLt
  have hv := q.v.isLt
  have hcfg := (packConfig q.cfgIn).isLt
  unfold requestWord
  omega

theorem leValue_take_requestBytes (q : Request) : leValue ((requestBytes q).take 12) = requestWord q := by
  rw [requestBytes_eq, List.take_left' (Laws.OpField.leBytes_length 12 _), leValue_leBytes]
  exact Nat.mod_eq_of_lt ((requestWord_lt q).trans (by norm_num))

theorem drop_requestBytes (q : Request) : (requestBytes q).drop 12 = q.payload :=
  List.drop_left' (Laws.OpField.leBytes_length 12 _)

theorem requestWord_op (q : Request) : BitVec.ofNat 3 (requestWord q) = q.op :=
  ofNat_eq_of_mod_eq (by
    have hop := q.op.isLt
    unfold requestWord
    omega)

theorem requestWord_v (q : Request) : BitVec.ofNat 8 (requestWord q / 2 ^ 3) = q.v :=
  ofNat_eq_of_mod_eq (by
    have hop := q.op.isLt
    have hv := q.v.isLt
    unfold requestWord
    omega)

theorem requestWord_cfgIn (q : Request) : BitVec.ofNat 83 (requestWord q / 2 ^ 11) = packConfig q.cfgIn :=
  ofNat_eq_of_mod_eq (by
    have hop := q.op.isLt
    have hv := q.v.isLt
    have hcfg := (packConfig q.cfgIn).isLt
    unfold requestWord
    omega)

/-- The image of a request parses to it, with its configuration as the packed port carries it (R82). -/
theorem parseRequest_requestBytes (q : Request) :
    parseRequest (requestBytes q) = .ok { q with cfgIn := unpackConfig (packConfig q.cfgIn) } := by
  have hlen : ¬ (requestBytes q).length < 12 := by rw [Laws.OpField.requestBytes_length]; omega
  have hpad : requestWord q / 2 ^ 94 = 0 := Nat.div_eq_of_lt (requestWord_lt q)
  simp only [parseRequest, if_neg hlen, leValue_take_requestBytes, if_pos hpad, requestWord_op, requestWord_v,
    requestWord_cfgIn, drop_requestBytes]

/-- The packed port loses nothing an operation uses: a configuration that is used is whole, and the others are
ignored (R80). -/
theorem decodeRequest_packed {i : Instr} (h : i.WellFormed = true) :
    decodeRequest { requestOf i with cfgIn := unpackConfig (packConfig (requestOf i).cfgIn) } = i := by
  cases i with
  | validate v => rfl
  | encode cfg => exact congrArg Instr.encode (unpackConfig_packConfig h)
  | apply cfg => exact congrArg Instr.apply (unpackConfig_packConfig h)
  | receive => rfl
  | send cfg payload => exact congrArg (Instr.send · payload) (unpackConfig_packConfig h)
  | illegal101 => rfl
  | illegal11x x =>
    obtain rfl | rfl : x = 0 ∨ x = 1 := by bv_omega
    · rfl
    · rfl

/-- Settles O2: the image parses to the instruction's request, which selects the instruction. -/
theorem decodeOfEncodeIsInstr : Obligations.DecodeOfEncodeIsInstr := by
  unfold Obligations.DecodeOfEncodeIsInstr
  intro i h
  calc decode (encode i)
      = .ok (decodeRequest { requestOf i with cfgIn := unpackConfig (packConfig (requestOf i).cfgIn) }) :=
        decode_of_parseRequest (parseRequest_requestBytes (requestOf i))
    _ = .ok i := by rw [decodeRequest_packed h]

/-! ## The images the decoder refuses -/

theorem decode_eq_error_iff (bs : List Byte) (e : DecodeError) : decode bs = .error e ↔ parseRequest bs = .error e := by
  unfold decode
  cases parseRequest bs with
  | ok q => exact ⟨nofun, nofun⟩
  | error e' => simp only [Except.error.injEq]

theorem parseRequest_short {bs : List Byte} (h : bs.length < 12) : parseRequest bs = .error .truncated := if_pos h

theorem parseRequest_padded {bs : List Byte} (h : ¬ bs.length < 12) (hw : leValue (bs.take 12) / 2 ^ 94 ≠ 0) :
    parseRequest bs = .error .padding :=
  (if_neg h).trans (if_neg hw)

theorem parseRequest_fits {bs : List Byte} (h : ¬ bs.length < 12) (hw : leValue (bs.take 12) / 2 ^ 94 = 0) :
    ∃ q, parseRequest bs = .ok q :=
  ⟨_, (if_neg h).trans (if_pos hw)⟩

/-- Bits 95:94 of an image are the two high bits of its twelfth byte. -/
theorem leValue_take_div {bs : List Byte} {b : Byte} (h : bs[11]? = some b) :
    leValue (bs.take 12) / 2 ^ 94 = b.toNat / 64 := by
  obtain ⟨hlen, hb⟩ := List.getElem?_eq_some_iff.mp h
  have htake : bs.take 12 = bs.take 11 ++ [b] := by rw [← hb, List.take_concat_get' bs 11 hlen]
  have hlen11 : (bs.take 11).length = 11 := List.length_take_of_le hlen.le
  have hbyte := leValue_concat_div (bs.take 11) b
  rw [hlen11] at hbyte
  rw [htake, show 2 ^ 94 = 256 ^ 11 * 64 by norm_num, ← Nat.div_div_eq_div_mul, hbyte]

/-- Settles O5: an image is too short, or its padding is the twelfth byte divided by 64. -/
theorem decoderRefusesByName : Obligations.DecoderRefusesByName := by
  unfold Obligations.DecoderRefusesByName
  intro bs
  rw [decode_eq_error_iff, decode_eq_error_iff]
  by_cases hlen : bs.length < 12
  · have hnone : bs[11]? = none := List.getElem?_eq_none (by omega)
    simp [parseRequest_short hlen, hlen, hnone]
  · obtain ⟨b, hb⟩ : ∃ b, bs[11]? = some b := ⟨bs[11], List.getElem?_eq_getElem _⟩
    have hpad := leValue_take_div hb
    by_cases hw : b.toNat / 64 = 0
    · obtain ⟨q, hq⟩ := parseRequest_fits hlen (hpad.trans hw)
      have hfits : ¬ 64 ≤ b.toNat := by omega
      simp [hq, hlen, hb, hfits]
    · have hover : 64 ≤ b.toNat := by omega
      simp [parseRequest_padded hlen (hpad.trans_ne hw), hlen, hb, hover]

/-! ## Given images and table words -/

/-- Settles O1: the decoder computes on each image. -/
theorem sampleRequestsDecode : Obligations.SampleRequestsDecode := by
  unfold Obligations.SampleRequestsDecode
  exact ⟨rfl, rfl, rfl, rfl, rfl⟩

/-- A table word that decodes is a request that selects its instruction. -/
theorem decodeTableWord_eq_some {nbits w : Nat} {i : Instr} (h : decodeTableWord nbits w = some i) :
    ∃ q, parseRequest (tableBytes nbits w) = .ok q ∧ decodeRequest q = i := by
  unfold decodeTableWord at h
  cases hq : parseRequest (tableBytes nbits w) with
  | ok q =>
    rw [decode_of_parseRequest hq] at h
    exact ⟨q, rfl, Option.some.inj h⟩
  | error e =>
    rw [(decode_eq_error_iff _ e).mpr hq] at h
    cases h

/-- A request placed for the next step is run by sequencer 0, IDLE; the schedule and the requests held before are then
as they were. -/
theorem step_placeRequest {s : State} {r : Sequencer} (q : Request) (hr : s.seqs[0]? = some r) :
    step (placeRequest q s) =
      exec (decodeRequest q) { s with seqs := s.seqs.set 0 { r with seq := .idle }, cur := 0 } := by
  have hplace : placeRequest q s =
      { s with
        seqs := s.seqs.set 0 { r with seq := .idle, held := q :: r.held }
        script := .advance 0 .grant :: s.script } := by
    simp only [placeRequest, hr]
  have hk : 0 < s.seqs.length := lt_length_of_getElem? hr
  rw [hplace, step_script rfl]
  refine (advance_held .grant (List.getElem?_set_self hk) rfl rfl).trans ?_
  rw [List.set_set]

/-- Settles O52: the word placed is a request placed, which runs next. -/
theorem tableWordRunsNext : Obligations.TableWordRunsNext := by
  unfold Obligations.TableWordRunsNext
  intro s nbits w i r hi hr
  obtain ⟨q, hq, rfl⟩ := decodeTableWord_eq_some hi
  simp only [State.withFetchWord, hq]
  exact step_placeRequest q hr

end Sys2Proof.Machine
end
